-- ==== Sys2Proof/Word.lean ====
section
/-! DEFINITION. The two word types of the CPU bus (00_scope.md R6: 8 data bits, 16 address bits) and the plainest
arithmetic on them. Bit-field helpers stand in Machine/Bits.lean. -/

namespace Sys2Proof

/-- Data width of the CPU, of its registers A, X, Y, SP, P and of every memory (R6). -/
abbrev Byte := BitVec 8

/-- A CPU-bus address, and the width of PC (R6). -/
abbrev Word := BitVec 16

/-- `a:b` of R8: the 16-bit value `a * 256 + b`, the high byte written first. -/
abbrev mkWord (hi lo : Byte) : Word := hi ++ lo

end Sys2Proof
end

