-- ==== Sys2Proof/Machine/Bits.lean ====
section
/-! DEFINITION. Bit-field, extension and byte-order helpers of 00_scope.md R8. -/

namespace Sys2Proof.Machine

/-- `lo(w) = w[7:0]`. -/
def loByte (w : Word) : Byte := w.extractLsb' 0 8

/-- `hi(w) = w[15:8]`. -/
def hiByte (w : Word) : Byte := w.extractLsb' 8 8

/-- `zext_16(b)`. -/
def zext16 (b : Byte) : Word := b.setWidth 16

/-- `sext_16(b)`: bit 7 copied into bits 15..8. -/
def sext16 (b : Byte) : Word := b.signExtend 16

/-- A flag as the 8-bit value 0 or 1. -/
def bitByte (b : Bool) : Byte := if b then 1 else 0

/-- The address is on another page than the base: their high bytes differ (R138, R142). -/
def pageCrossed (base ea : Word) : Bool := hiByte base != hiByte ea

end Sys2Proof.Machine
end

