-- ==== Sys2Proof/Machine/Events.lean ====
section
/-! DEFINITION. The event history (10_state.md R51): what a run emits and the core never reads back. -/

namespace Sys2Proof.Machine

/-- A rendered frame (61_ppu.md R354): 240 rows of 256 six-bit system-colour indices, row 0 at the top, column 0 at the
left. -/
structure Frame where
  rows : List (List (BitVec 6))
  deriving DecidableEq, Repr

/-- The direction of a bus access, for the diagnostic of an unmapped one (20_memory.md R64). -/
inductive Access where
  | read
  | write
  deriving DecidableEq, Repr

/-- The kinds of a logged diagnostic (R65, 62_devices.md R382). -/
inductive DiagKind where
  | unmapped (access : Access)
  | romWrite
  deriving DecidableEq, Repr

inductive Event where
  | frame     (f : Frame)                       -- 61_ppu.md R343
  | diag      (kind : DiagKind) (addr : Word)   -- 20_memory.md R65, 62_devices.md R382
  | portWrite (addr : Word) (v : Byte)          -- 62_devices.md R374
  | portRead  (addr : Word) (v : Byte)          -- 62_devices.md R374, 61_ppu.md R313, R322
  deriving DecidableEq, Repr

end Sys2Proof.Machine
end

