-- ==== Sys2Proof/Config.lean ====
section
/-! DEFINITION. What is fixed for a run (10_state.md R54, 00_scope.md R7) and the free values. The parameters that have a
default are the record `RunConfig`, which State carries and no step changes, so that a claim about every state is a claim
about every parameter value. The parameters the spec leaves OPEN are constants with no body: nothing can be proved of their
values. -/

namespace Sys2Proof

/-- `busConfig` (20_memory.md R66, R78). -/
inductive BusConfig where
  | nesMap
  | flatRam
  deriving DecidableEq, Repr

/-- `cart.mirroring` (62_devices.md R380); FourScreen is refused before a run (R387). -/
inductive Mirroring where
  | horizontal
  | vertical
  deriving DecidableEq, Repr

/-- The two PRG sizes NROM supports (62_devices.md R380, R381): 16384 or 32768 bytes. -/
inductive PrgBanks where
  | single
  | dual
  deriving DecidableEq, Repr

/-- Bytes by index, sparse: strictly rising indices (`Laws.Memory`). What an index that is not listed holds is said by the
memory's owner: a power-on draw for a memory that is written (`Config.powerOnByte`), 0x00 for a ROM image. -/
abbrev Memory := List Host.Cell

/-- The cartridge configuration `cart` (62_devices.md R380). `prg` and `chr` list the bytes that are not 0x00. -/
structure Cart where
  banks     : PrgBanks
  prg       : Memory
  chr       : Memory
  mirroring : Mirroring
  mapperId  : Nat
  deriving DecidableEq, Repr

/-- `sprite0HitPolicy` (61_ppu.md R345). -/
inductive Sprite0HitPolicy where
  | never
  | lineMatch
  deriving DecidableEq, Repr

/-- The parameters of R7 that are given per run or have a default, and the cartridge. -/
structure RunConfig where
  bus               : BusConfig
  cart              : Cart
  nmiEntryCycles    : Nat
  aneMagic          : Byte
  lxaMagic          : Byte
  oamDmaStallCycles : Nat
  sprite0HitPolicy  : Sprite0HitPolicy
  deriving DecidableEq, Repr

/-- The writable memories of the machine, whose power-on contents are draws (10_state.md R56). -/
inductive Store where
  | ram | wram | flat | vram | oam | palette
  deriving DecidableEq, Repr

/-- The number of bytes of each (R46 to R50; 20_memory.md R78). -/
def Store.size : Store → Nat
  | .ram => 0x800
  | .wram => 0x2000
  | .flat => 0x10000
  | .vram => 0x800
  | .oam => 0x100
  | .palette => 0x20

/-- A cartridge with no byte set, 32 KB of PRG, Horizontal mirroring, NROM. DESIGN CHOICE (log entry 2): the cartridge is
given per run, and this is only what State.reset carries. -/
def Cart.blank : Cart := ⟨.dual, [], [], .horizontal, 0⟩

/-- The defaults of R7 about a cartridge: `NesMap`, 7, 0xEE, 0xEE, 513, `lineMatch`. -/
def RunConfig.ofCart (cart : Cart) : RunConfig := ⟨.nesMap, cart, 7, 0xEE, 0xEE, 513, .lineMatch⟩

/-- FREE VALUE: the parameters `ramInit`, `wramInit`, `vramInit`, `oamInit`, `paletteInit` (R7), and the contents of the
flat RAM. A byte no step has written holds it (R56). -/
opaque Config.powerOnByte : Store → Nat → Byte

/-- FREE VALUE: the external read oracle `extRead(addr, history, choice)` (R7). `choice` is the count of earlier reads. -/
opaque Config.extRead : Word → List Machine.Event → Nat → Byte

/-- FREE VALUE: the 64-entry system colour table, RGB (R7, 61_ppu.md R355). -/
opaque Config.systemPalette : BitVec 6 → Byte × Byte × Byte

end Sys2Proof
end

