-- ==== Sys2Proof/Machine/Memory.lean ====
section
/-! DEFINITION. The sparse memories: reading and writing one byte, and the canonical form. -/

namespace Sys2Proof

/-- The byte listed at an index. -/
def Memory.get? : Memory → Nat → Option Byte
  | [], _ => none
  | (k, b) :: rest, i => if k = i then some b else Memory.get? rest i

/-- Lists a byte at an index, in rising order of indices. -/
def Memory.set : Memory → Nat → Byte → Memory
  | [], i, v => [(i, v)]
  | (k, b) :: rest, i, v =>
    if i < k then (i, v) :: (k, b) :: rest
    else if i = k then (i, v) :: rest
    else (k, b) :: Memory.set rest i v

/-- Indices strictly rising. -/
def Memory.rising : Memory → Bool
  | [] => true
  | [_] => true
  | (i, _) :: (j, b) :: rest => decide (i < j) && Memory.rising ((j, b) :: rest)

/-- The canonical form of a memory of `size` bytes: indices strictly rising and inside it. An index that is not listed has
no listed byte, so no entry can equal what it reads as. -/
def Memory.wf (size : Nat) (m : Memory) : Bool := m.rising && m.all (fun c => decide (c.1 < size))

/-- What an index of a writable memory reads as (10_state.md R56): the byte listed there, else its power-on draw. -/
def Memory.read (store : Store) (m : Memory) (i : Nat) : Byte :=
  match m.get? i with
  | some b => b
  | none => Config.powerOnByte store i

/-- What an index of a ROM image reads as: the byte listed there, else 0x00. -/
def Memory.romRead (m : Memory) (i : Nat) : Byte :=
  match m.get? i with
  | some b => b
  | none => 0

/-- The canonical form of a ROM image: rising, inside it, and no entry equal to the 0x00 that an unlisted index reads as. -/
def Memory.romWf (size : Nat) (m : Memory) : Bool := m.wf size && m.all (fun c => c.2 != 0)

def Memory.erase : Memory → Nat → Memory
  | [], _ => []
  | (k, b) :: rest, i => if k = i then rest else (k, b) :: Memory.erase rest i

/-- Sets a byte of a ROM image, keeping its canonical form. No step of the machine does this; a loader does. -/
def Memory.romSet (m : Memory) (i : Nat) (v : Byte) : Memory := if v = 0 then m.erase i else m.set i v

/-- The ROM image of consecutive bytes, the first at index `i`. -/
def Memory.romOfBytes (i : Nat) : List Byte → Memory
  | [] => []
  | b :: rest => if b = 0 then Memory.romOfBytes (i + 1) rest else (i, b) :: Memory.romOfBytes (i + 1) rest

end Sys2Proof
end

