-- ==== Sys2Proof/Syntax.lean ====
section
/-! DEFINITION. The instructions as data: the operand forms of the 13 addressing modes (30_encoding.md R100) and ONE
inductive with a constructor for each operation of spec/opcode_table.json. The table's 256 rows are the pairs of an
operation and an addressing mode, and an operand of a constructor below is its mode with the operand bytes in it: a row
(ORA, IndirectX) is `Instr.ora (.mem (.indX zp8))`. Where several rows share operation AND mode (the 12 JAM bytes, the
undocumented NOPs, the two ANC bytes) the constructor carries its opcode byte, so that every row is one distinct term. The
official NOP (0xEA, R231) and the undocumented NOPs (R261) share a mnemonic and are two constructors. -/

namespace Sys2Proof

/-- The memory operand forms, R134 to R141. A `Byte` is `zp8`, a `Word` is `abs16`. -/
inductive MemOperand where
  | zp   (zp8 : Byte)     -- `$nn`,      R134
  | zpX  (zp8 : Byte)     -- `$nn,X`,    R135
  | zpY  (zp8 : Byte)     -- `$nn,Y`,    R136
  | abs  (abs16 : Word)   -- `$nnnn`,    R137
  | absX (abs16 : Word)   -- `$nnnn,X`,  R138
  | absY (abs16 : Word)   -- `$nnnn,Y`,  R139
  | indX (zp8 : Byte)     -- `($nn,X)`,  R140
  | indY (zp8 : Byte)     -- `($nn),Y`,  R141
  deriving DecidableEq, Repr

/-- An operand that is only read: an immediate byte (R133) or a memory operand. -/
inductive ReadOperand where
  | imm (imm8 : Byte)
  | mem (m : MemOperand)
  deriving DecidableEq, Repr

/-- The operand of a shift or rotate: the accumulator (R132) or a memory operand. -/
inductive ShiftOperand where
  | acc
  | mem (m : MemOperand)
  deriving DecidableEq, Repr

/-- The operand of JMP: a target (R137) or the address of a pointer to it (R143). -/
inductive JumpOperand where
  | abs (abs16 : Word)
  | ind (ptr16 : Word)
  deriving DecidableEq, Repr

/-- The operand of an undocumented NOP (R261), read and discarded. -/
inductive NopOperand where
  | implied
  | imm (imm8 : Byte)
  | mem (m : MemOperand)
  deriving DecidableEq, Repr

/-- One constructor per operation of the opcode map (R103). -/
inductive Instr where
  -- loads, stores, transfers: 40_addressing_load_store.md R146 to R157
  | lda (o : ReadOperand)
  | ldx (o : ReadOperand)
  | ldy (o : ReadOperand)
  | sta (m : MemOperand)
  | stx (m : MemOperand)
  | sty (m : MemOperand)
  | tax
  | tay
  | txa
  | tya
  | tsx
  | txs
  -- stack: 41_stack.md R174 to R177
  | pha
  | php
  | plp
  | pla
  -- arithmetic, logic, compare: 42_alu.md R180 to R188
  | adc (o : ReadOperand)
  | sbc (o : ReadOperand)
  | and (o : ReadOperand)
  | ora (o : ReadOperand)
  | eor (o : ReadOperand)
  | bit (m : MemOperand)
  | cmp (o : ReadOperand)
  | cpx (o : ReadOperand)
  | cpy (o : ReadOperand)
  -- increment, decrement, shifts: 42_alu.md R189 to R198
  | inc (m : MemOperand)
  | dec (m : MemOperand)
  | inx
  | iny
  | dex
  | dey
  | asl (o : ShiftOperand)
  | lsr (o : ShiftOperand)
  | rol (o : ShiftOperand)
  | ror (o : ShiftOperand)
  -- branches: 43_control.md R211 to R218
  | bpl (rel8 : Byte)
  | bmi (rel8 : Byte)
  | bvc (rel8 : Byte)
  | bvs (rel8 : Byte)
  | bcc (rel8 : Byte)
  | bcs (rel8 : Byte)
  | bne (rel8 : Byte)
  | beq (rel8 : Byte)
  -- jumps, calls, returns, software interrupt: 43_control.md R219 to R223
  | jmp (o : JumpOperand)
  | jsr (abs16 : Word)
  | rts
  | rti
  | brk
  -- flags and NOP: 43_control.md R224 to R231
  | clc
  | sec
  | cli
  | sei
  | cld
  | sed
  | clv
  | nop
  -- undocumented: 44_undocumented.md R241 to R262
  | slo (m : MemOperand)
  | rla (m : MemOperand)
  | sre (m : MemOperand)
  | rra (m : MemOperand)
  | dcp (m : MemOperand)
  | isc (m : MemOperand)
  | sax (m : MemOperand)
  | lax (m : MemOperand)
  | las (abs16 : Word)
  | anc (opcode : Byte) (imm8 : Byte)
  | alr (imm8 : Byte)
  | arr (imm8 : Byte)
  | ane (imm8 : Byte)
  | lxa (imm8 : Byte)
  | sbx (imm8 : Byte)
  | usbc (imm8 : Byte)
  | sha (m : MemOperand)
  | shx (abs16 : Word)
  | shy (abs16 : Word)
  | tas (abs16 : Word)
  | nopU (opcode : Byte) (o : NopOperand)
  -- lock-up: 44_undocumented.md R270
  | jam (opcode : Byte)
  deriving DecidableEq, Repr

end Sys2Proof
end

