-- ==== Sys2Proof/WellFormed.lean ====
section
/-! DEFINITION. Which terms of `Instr` are rows of the opcode map (30_encoding.md R103): for each operation, the addressing
modes its rule lists under "Encoding". A term outside these lists has no opcode byte; 30_encoding.md R108 calls it a decode
defect ("invalid addressing mode for an operation"). -/

namespace Sys2Proof

/-- The modes of a memory operand, without its bytes (R100). -/
inductive MemMode where
  | zp | zpX | zpY | abs | absX | absY | indX | indY
  deriving DecidableEq, Repr

def MemOperand.mode : MemOperand → MemMode
  | .zp _ => .zp
  | .zpX _ => .zpX
  | .zpY _ => .zpY
  | .abs _ => .abs
  | .absX _ => .absX
  | .absY _ => .absY
  | .indX _ => .indX
  | .indY _ => .indY

/-- The seven memory modes of the accumulator's instructions: all but ZeroPageY (R146, R149, R180, R241). -/
def accumulatorModes : List MemMode := [.zp, .zpX, .abs, .absX, .absY, .indX, .indY]

/-- The memory modes of the official read-modify-write instructions (R189, R190, R195 to R198). -/
def modifyModes : List MemMode := [.zp, .zpX, .abs, .absX]

def ReadOperand.allows (modes : List MemMode) : ReadOperand → Bool
  | .imm _ => true
  | .mem m => modes.contains m.mode

def ShiftOperand.allows (modes : List MemMode) : ShiftOperand → Bool
  | .acc => true
  | .mem m => modes.contains m.mode

/-- The 12 JAM bytes (R105). -/
def jamOpcodes : List Byte := [0x02, 0x12, 0x22, 0x32, 0x42, 0x52, 0x62, 0x72, 0x92, 0xB2, 0xD2, 0xF2]

/-- The bytes of an undocumented NOP of each form (R107, R261). -/
def nopOpcodes : NopOperand → List Byte
  | .implied => [0x1A, 0x3A, 0x5A, 0x7A, 0xDA, 0xFA]
  | .imm _ => [0x80, 0x82, 0x89, 0xC2, 0xE2]
  | .mem (.zp _) => [0x04, 0x44, 0x64]
  | .mem (.zpX _) => [0x14, 0x34, 0x54, 0x74, 0xD4, 0xF4]
  | .mem (.abs _) => [0x0C]
  | .mem (.absX _) => [0x1C, 0x3C, 0x5C, 0x7C, 0xDC, 0xFC]
  | .mem _ => []

/-- The instruction is a row of the opcode map. -/
def Instr.wellFormed : Instr → Bool
  | .lda o => o.allows accumulatorModes
  | .ldx o => o.allows [.zp, .zpY, .abs, .absY]
  | .ldy o => o.allows [.zp, .zpX, .abs, .absX]
  | .sta m => accumulatorModes.contains m.mode
  | .stx m => [MemMode.zp, .zpY, .abs].contains m.mode
  | .sty m => [MemMode.zp, .zpX, .abs].contains m.mode
  | .tax => true
  | .tay => true
  | .txa => true
  | .tya => true
  | .tsx => true
  | .txs => true
  | .pha => true
  | .php => true
  | .plp => true
  | .pla => true
  | .adc o => o.allows accumulatorModes
  | .sbc o => o.allows accumulatorModes
  | .and o => o.allows accumulatorModes
  | .ora o => o.allows accumulatorModes
  | .eor o => o.allows accumulatorModes
  | .bit m => [MemMode.zp, .abs].contains m.mode
  | .cmp o => o.allows accumulatorModes
  | .cpx o => o.allows [.zp, .abs]
  | .cpy o => o.allows [.zp, .abs]
  | .inc m => modifyModes.contains m.mode
  | .dec m => modifyModes.contains m.mode
  | .inx => true
  | .iny => true
  | .dex => true
  | .dey => true
  | .asl o => o.allows modifyModes
  | .lsr o => o.allows modifyModes
  | .rol o => o.allows modifyModes
  | .ror o => o.allows modifyModes
  | .bpl _ => true
  | .bmi _ => true
  | .bvc _ => true
  | .bvs _ => true
  | .bcc _ => true
  | .bcs _ => true
  | .bne _ => true
  | .beq _ => true
  | .jmp _ => true
  | .jsr _ => true
  | .rts => true
  | .rti => true
  | .brk => true
  | .clc => true
  | .sec => true
  | .cli => true
  | .sei => true
  | .cld => true
  | .sed => true
  | .clv => true
  | .nop => true
  | .slo m => accumulatorModes.contains m.mode
  | .rla m => accumulatorModes.contains m.mode
  | .sre m => accumulatorModes.contains m.mode
  | .rra m => accumulatorModes.contains m.mode
  | .dcp m => accumulatorModes.contains m.mode
  | .isc m => accumulatorModes.contains m.mode
  | .sax m => [MemMode.zp, .zpY, .abs, .indX].contains m.mode
  | .lax m => [MemMode.zp, .zpY, .abs, .absY, .indX, .indY].contains m.mode
  | .las _ => true
  | .anc op _ => op == 0x0B || op == 0x2B
  | .alr _ => true
  | .arr _ => true
  | .ane _ => true
  | .lxa _ => true
  | .sbx _ => true
  | .usbc _ => true
  | .sha m => [MemMode.indY, .absY].contains m.mode
  | .shx _ => true
  | .shy _ => true
  | .tas _ => true
  | .nopU op o => (nopOpcodes o).contains op
  | .jam op => jamOpcodes.contains op

end Sys2Proof
end

