-- ==== Sys2Proof/Decode.lean ====
section
/-! DEFINITION. The opcode map (30_encoding.md R103) as a 16 x 16 table, the decoder that reads it, and the encoder, written
from the "Encoding" lists of the instruction rules (R146 to R270), a second place of the spec. -/

namespace Sys2Proof

open Machine (loByte hiByte)

/-- The 13 addressing modes of R100; Absolute is a memory mode here also where JMP and JSR use it as a target. -/
inductive Mode where
  | implied | accumulator | immediate | mem (m : MemMode) | relative | jumpIndirect
  deriving DecidableEq, Repr

def MemMode.operandBytes : MemMode → Nat
  | .zp => 1
  | .zpX => 1
  | .zpY => 1
  | .abs => 2
  | .absX => 2
  | .absY => 2
  | .indX => 1
  | .indY => 1

/-- How many operand bytes follow the opcode byte (R100, R101). -/
def Mode.operandBytes : Mode → Nat
  | .implied => 0
  | .accumulator => 0
  | .immediate => 1
  | .mem m => m.operandBytes
  | .relative => 1
  | .jumpIndirect => 2

/-- Operand assembly (R102): `b1` is byte 1, `b2` is byte 2, and `abs16` is `b2:b1`. -/
def MemMode.operand (m : MemMode) (b1 b2 : Byte) : MemOperand :=
  match m with
  | .zp => .zp b1
  | .zpX => .zpX b1
  | .zpY => .zpY b1
  | .abs => .abs (mkWord b2 b1)
  | .absX => .absX (mkWord b2 b1)
  | .absY => .absY (mkWord b2 b1)
  | .indX => .indX b1
  | .indY => .indY b1

/-- A cell of the opcode map: the mode, the base cycle count (R113), and the instruction made from operand bytes 1 and 2. -/
structure Row where
  mode   : Mode
  cycles : Nat
  build  : Byte → Byte → Instr

def Row.imp (i : Instr) (cycles : Nat) : Row := ⟨.implied, cycles, fun _ _ => i⟩
def Row.acc (f : ShiftOperand → Instr) (cycles : Nat) : Row := ⟨.accumulator, cycles, fun _ _ => f .acc⟩
def Row.imm (f : Byte → Instr) (cycles : Nat) : Row := ⟨.immediate, cycles, fun b1 _ => f b1⟩
def Row.rel (f : Byte → Instr) (cycles : Nat) : Row := ⟨.relative, cycles, fun b1 _ => f b1⟩
def Row.mem (f : MemOperand → Instr) (m : MemMode) (cycles : Nat) : Row :=
  ⟨.mem m, cycles, fun b1 b2 => f (m.operand b1 b2)⟩
def Row.read (f : ReadOperand → Instr) (m : MemMode) (cycles : Nat) : Row := .mem (fun o => f (.mem o)) m cycles
def Row.shift (f : ShiftOperand → Instr) (m : MemMode) (cycles : Nat) : Row := .mem (fun o => f (.mem o)) m cycles
def Row.abs (f : Word → Instr) (m : MemMode) (cycles : Nat) : Row :=
  ⟨.mem m, cycles, fun b1 b2 => f (mkWord b2 b1)⟩
def Row.ind (f : Word → Instr) (cycles : Nat) : Row := ⟨.jumpIndirect, cycles, fun b1 b2 => f (mkWord b2 b1)⟩

/-- Row 0x0x of R103: opcodes 0x00 to 0x0F. -/
def mapRow0 : List Row := [
  .imp .brk 7, .read .ora .indX 6,
  .imp (.jam 0x02) 2, .mem .slo .indX 8,
  .mem (fun m => .nopU 0x04 (.mem m)) .zp 3, .read .ora .zp 3,
  .shift .asl .zp 5, .mem .slo .zp 5,
  .imp .php 3, .imm (fun b => .ora (.imm b)) 2,
  .acc .asl 2, .imm (.anc 0x0B) 2,
  .mem (fun m => .nopU 0x0C (.mem m)) .abs 4, .read .ora .abs 4,
  .shift .asl .abs 6, .mem .slo .abs 6]

/-- Row 0x1x of R103: opcodes 0x10 to 0x1F. -/
def mapRow1 : List Row := [
  .rel .bpl 2, .read .ora .indY 5,
  .imp (.jam 0x12) 2, .mem .slo .indY 8,
  .mem (fun m => .nopU 0x14 (.mem m)) .zpX 4, .read .ora .zpX 4,
  .shift .asl .zpX 6, .mem .slo .zpX 6,
  .imp .clc 2, .read .ora .absY 4,
  .imp (.nopU 0x1A .implied) 2, .mem .slo .absY 7,
  .mem (fun m => .nopU 0x1C (.mem m)) .absX 4, .read .ora .absX 4,
  .shift .asl .absX 7, .mem .slo .absX 7]

/-- Row 0x2x of R103: opcodes 0x20 to 0x2F. -/
def mapRow2 : List Row := [
  .abs .jsr .abs 6, .read .and .indX 6,
  .imp (.jam 0x22) 2, .mem .rla .indX 8,
  .mem .bit .zp 3, .read .and .zp 3,
  .shift .rol .zp 5, .mem .rla .zp 5,
  .imp .plp 4, .imm (fun b => .and (.imm b)) 2,
  .acc .rol 2, .imm (.anc 0x2B) 2,
  .mem .bit .abs 4, .read .and .abs 4,
  .shift .rol .abs 6, .mem .rla .abs 6]

/-- Row 0x3x of R103: opcodes 0x30 to 0x3F. -/
def mapRow3 : List Row := [
  .rel .bmi 2, .read .and .indY 5,
  .imp (.jam 0x32) 2, .mem .rla .indY 8,
  .mem (fun m => .nopU 0x34 (.mem m)) .zpX 4, .read .and .zpX 4,
  .shift .rol .zpX 6, .mem .rla .zpX 6,
  .imp .sec 2, .read .and .absY 4,
  .imp (.nopU 0x3A .implied) 2, .mem .rla .absY 7,
  .mem (fun m => .nopU 0x3C (.mem m)) .absX 4, .read .and .absX 4,
  .shift .rol .absX 7, .mem .rla .absX 7]

/-- Row 0x4x of R103: opcodes 0x40 to 0x4F. -/
def mapRow4 : List Row := [
  .imp .rti 6, .read .eor .indX 6,
  .imp (.jam 0x42) 2, .mem .sre .indX 8,
  .mem (fun m => .nopU 0x44 (.mem m)) .zp 3, .read .eor .zp 3,
  .shift .lsr .zp 5, .mem .sre .zp 5,
  .imp .pha 3, .imm (fun b => .eor (.imm b)) 2,
  .acc .lsr 2, .imm .alr 2,
  .abs (fun w => .jmp (.abs w)) .abs 3, .read .eor .abs 4,
  .shift .lsr .abs 6, .mem .sre .abs 6]

/-- Row 0x5x of R103: opcodes 0x50 to 0x5F. -/
def mapRow5 : List Row := [
  .rel .bvc 2, .read .eor .indY 5,
  .imp (.jam 0x52) 2, .mem .sre .indY 8,
  .mem (fun m => .nopU 0x54 (.mem m)) .zpX 4, .read .eor .zpX 4,
  .shift .lsr .zpX 6, .mem .sre .zpX 6,
  .imp .cli 2, .read .eor .absY 4,
  .imp (.nopU 0x5A .implied) 2, .mem .sre .absY 7,
  .mem (fun m => .nopU 0x5C (.mem m)) .absX 4, .read .eor .absX 4,
  .shift .lsr .absX 7, .mem .sre .absX 7]

/-- Row 0x6x of R103: opcodes 0x60 to 0x6F. -/
def mapRow6 : List Row := [
  .imp .rts 6, .read .adc .indX 6,
  .imp (.jam 0x62) 2, .mem .rra .indX 8,
  .mem (fun m => .nopU 0x64 (.mem m)) .zp 3, .read .adc .zp 3,
  .shift .ror .zp 5, .mem .rra .zp 5,
  .imp .pla 4, .imm (fun b => .adc (.imm b)) 2,
  .acc .ror 2, .imm .arr 2,
  .ind (fun w => .jmp (.ind w)) 5, .read .adc .abs 4,
  .shift .ror .abs 6, .mem .rra .abs 6]

/-- Row 0x7x of R103: opcodes 0x70 to 0x7F. -/
def mapRow7 : List Row := [
  .rel .bvs 2, .read .adc .indY 5,
  .imp (.jam 0x72) 2, .mem .rra .indY 8,
  .mem (fun m => .nopU 0x74 (.mem m)) .zpX 4, .read .adc .zpX 4,
  .shift .ror .zpX 6, .mem .rra .zpX 6,
  .imp .sei 2, .read .adc .absY 4,
  .imp (.nopU 0x7A .implied) 2, .mem .rra .absY 7,
  .mem (fun m => .nopU 0x7C (.mem m)) .absX 4, .read .adc .absX 4,
  .shift .ror .absX 7, .mem .rra .absX 7]

/-- Row 0x8x of R103: opcodes 0x80 to 0x8F. -/
def mapRow8 : List Row := [
  .imm (fun b => .nopU 0x80 (.imm b)) 2, .mem .sta .indX 6,
  .imm (fun b => .nopU 0x82 (.imm b)) 2, .mem .sax .indX 6,
  .mem .sty .zp 3, .mem .sta .zp 3,
  .mem .stx .zp 3, .mem .sax .zp 3,
  .imp .dey 2, .imm (fun b => .nopU 0x89 (.imm b)) 2,
  .imp .txa 2, .imm .ane 2,
  .mem .sty .abs 4, .mem .sta .abs 4,
  .mem .stx .abs 4, .mem .sax .abs 4]

/-- Row 0x9x of R103: opcodes 0x90 to 0x9F. -/
def mapRow9 : List Row := [
  .rel .bcc 2, .mem .sta .indY 6,
  .imp (.jam 0x92) 2, .mem .sha .indY 6,
  .mem .sty .zpX 4, .mem .sta .zpX 4,
  .mem .stx .zpY 4, .mem .sax .zpY 4,
  .imp .tya 2, .mem .sta .absY 5,
  .imp .txs 2, .abs .tas .absY 5,
  .abs .shy .absX 5, .mem .sta .absX 5,
  .abs .shx .absY 5, .mem .sha .absY 5]

/-- Row 0xAx of R103: opcodes 0xA0 to 0xAF. -/
def mapRowA : List Row := [
  .imm (fun b => .ldy (.imm b)) 2, .read .lda .indX 6,
  .imm (fun b => .ldx (.imm b)) 2, .mem .lax .indX 6,
  .read .ldy .zp 3, .read .lda .zp 3,
  .read .ldx .zp 3, .mem .lax .zp 3,
  .imp .tay 2, .imm (fun b => .lda (.imm b)) 2,
  .imp .tax 2, .imm .lxa 2,
  .read .ldy .abs 4, .read .lda .abs 4,
  .read .ldx .abs 4, .mem .lax .abs 4]

/-- Row 0xBx of R103: opcodes 0xB0 to 0xBF. -/
def mapRowB : List Row := [
  .rel .bcs 2, .read .lda .indY 5,
  .imp (.jam 0xB2) 2, .mem .lax .indY 5,
  .read .ldy .zpX 4, .read .lda .zpX 4,
  .read .ldx .zpY 4, .mem .lax .zpY 4,
  .imp .clv 2, .read .lda .absY 4,
  .imp .tsx 2, .abs .las .absY 4,
  .read .ldy .absX 4, .read .lda .absX 4,
  .read .ldx .absY 4, .mem .lax .absY 4]

/-- Row 0xCx of R103: opcodes 0xC0 to 0xCF. -/
def mapRowC : List Row := [
  .imm (fun b => .cpy (.imm b)) 2, .read .cmp .indX 6,
  .imm (fun b => .nopU 0xC2 (.imm b)) 2, .mem .dcp .indX 8,
  .read .cpy .zp 3, .read .cmp .zp 3,
  .mem .dec .zp 5, .mem .dcp .zp 5,
  .imp .iny 2, .imm (fun b => .cmp (.imm b)) 2,
  .imp .dex 2, .imm .sbx 2,
  .read .cpy .abs 4, .read .cmp .abs 4,
  .mem .dec .abs 6, .mem .dcp .abs 6]

/-- Row 0xDx of R103: opcodes 0xD0 to 0xDF. -/
def mapRowD : List Row := [
  .rel .bne 2, .read .cmp .indY 5,
  .imp (.jam 0xD2) 2, .mem .dcp .indY 8,
  .mem (fun m => .nopU 0xD4 (.mem m)) .zpX 4, .read .cmp .zpX 4,
  .mem .dec .zpX 6, .mem .dcp .zpX 6,
  .imp .cld 2, .read .cmp .absY 4,
  .imp (.nopU 0xDA .implied) 2, .mem .dcp .absY 7,
  .mem (fun m => .nopU 0xDC (.mem m)) .absX 4, .read .cmp .absX 4,
  .mem .dec .absX 7, .mem .dcp .absX 7]

/-- Row 0xEx of R103: opcodes 0xE0 to 0xEF. -/
def mapRowE : List Row := [
  .imm (fun b => .cpx (.imm b)) 2, .read .sbc .indX 6,
  .imm (fun b => .nopU 0xE2 (.imm b)) 2, .mem .isc .indX 8,
  .read .cpx .zp 3, .read .sbc .zp 3,
  .mem .inc .zp 5, .mem .isc .zp 5,
  .imp .inx 2, .imm (fun b => .sbc (.imm b)) 2,
  .imp .nop 2, .imm .usbc 2,
  .read .cpx .abs 4, .read .sbc .abs 4,
  .mem .inc .abs 6, .mem .isc .abs 6]

/-- Row 0xFx of R103: opcodes 0xF0 to 0xFF. -/
def mapRowF : List Row := [
  .rel .beq 2, .read .sbc .indY 5,
  .imp (.jam 0xF2) 2, .mem .isc .indY 8,
  .mem (fun m => .nopU 0xF4 (.mem m)) .zpX 4, .read .sbc .zpX 4,
  .mem .inc .zpX 6, .mem .isc .zpX 6,
  .imp .sed 2, .read .sbc .absY 4,
  .imp (.nopU 0xFA .implied) 2, .mem .isc .absY 7,
  .mem (fun m => .nopU 0xFC (.mem m)) .absX 4, .read .sbc .absX 4,
  .mem .inc .absX 7, .mem .isc .absX 7]

/-- The complete map (R103): row = high nibble, column = low nibble. -/
def opcodeMap : List (List Row) := [
  mapRow0, mapRow1, mapRow2, mapRow3, mapRow4, mapRow5, mapRow6, mapRow7,
  mapRow8, mapRow9, mapRowA, mapRowB, mapRowC, mapRowD, mapRowE, mapRowF]

/-- The row an opcode byte selects (R104). No byte is without one (`Laws.opcodeRow_total`). -/
def opcodeRow (op : Byte) : Option Row :=
  match opcodeMap[op.toNat / 16]? with
  | some cells => cells[op.toNat % 16]?
  | none => none

/-- Why bytes are no instruction. Raised by `decode`; `unknownOpcode` is the decode defect of R108, which no byte raises. -/
inductive DecodeError where
  | noBytes
  | unknownOpcode (opcode : Byte)
  | truncated (opcode : Byte)
  deriving DecidableEq, Repr

/-- Reads one instruction from the front of the bytes and gives the bytes left over. -/
def decode : List Byte → Except DecodeError (Instr × List Byte)
  | [] => .error .noBytes
  | op :: rest =>
    match opcodeRow op with
    | none => .error (.unknownOpcode op)
    | some row =>
      match row.mode.operandBytes, rest with
      | 0, rest => .ok (row.build 0 0, rest)
      | 1, b1 :: rest => .ok (row.build b1 0, rest)
      | 2, b1 :: b2 :: rest => .ok (row.build b1 b2, rest)
      | _, _ => .error (.truncated op)

/-- How many operand bytes an opcode byte asks for (R101); 0 for a byte without a row, which there is not. -/
def operandCount (op : Byte) : Nat :=
  match opcodeRow op with
  | some row => row.mode.operandBytes
  | none => 0

/-- The base cycle count of an opcode byte (R113). -/
def baseCycles (op : Byte) : Nat :=
  match opcodeRow op with
  | some row => row.cycles
  | none => 0

/-- The opcode byte a list of encodings gives a mode. -/
def opcodeIn (encodings : List (MemMode × Byte)) (m : MemMode) : Option Byte := encodings.lookup m

/-- The opcode byte of an instruction, from the "Encoding" list of its own rule; none for an ill-formed one. -/
def opcodeOf : Instr → Option Byte
  | .lda (.imm _) => some 0xA9
  | .lda (.mem m) => opcodeIn [(.zp, 0xA5), (.zpX, 0xB5), (.abs, 0xAD), (.absX, 0xBD), (.absY, 0xB9), (.indX, 0xA1), (.indY, 0xB1)] m.mode   -- R146
  | .ldx (.imm _) => some 0xA2
  | .ldx (.mem m) => opcodeIn [(.zp, 0xA6), (.zpY, 0xB6), (.abs, 0xAE), (.absY, 0xBE)] m.mode   -- R147
  | .ldy (.imm _) => some 0xA0
  | .ldy (.mem m) => opcodeIn [(.zp, 0xA4), (.zpX, 0xB4), (.abs, 0xAC), (.absX, 0xBC)] m.mode   -- R148
  | .sta m => opcodeIn [(.zp, 0x85), (.zpX, 0x95), (.abs, 0x8D), (.absX, 0x9D), (.absY, 0x99), (.indX, 0x81), (.indY, 0x91)] m.mode   -- R149
  | .stx m => opcodeIn [(.zp, 0x86), (.zpY, 0x96), (.abs, 0x8E)] m.mode   -- R150
  | .sty m => opcodeIn [(.zp, 0x84), (.zpX, 0x94), (.abs, 0x8C)] m.mode   -- R151
  | .tax => some 0xAA   -- R152
  | .tay => some 0xA8   -- R153
  | .txa => some 0x8A   -- R154
  | .tya => some 0x98   -- R155
  | .tsx => some 0xBA   -- R156
  | .txs => some 0x9A   -- R157
  | .pha => some 0x48   -- R174
  | .php => some 0x08   -- R175
  | .plp => some 0x28   -- R176
  | .pla => some 0x68   -- R177
  | .adc (.imm _) => some 0x69
  | .adc (.mem m) => opcodeIn [(.zp, 0x65), (.zpX, 0x75), (.abs, 0x6D), (.absX, 0x7D), (.absY, 0x79), (.indX, 0x61), (.indY, 0x71)] m.mode   -- R180
  | .sbc (.imm _) => some 0xE9
  | .sbc (.mem m) => opcodeIn [(.zp, 0xE5), (.zpX, 0xF5), (.abs, 0xED), (.absX, 0xFD), (.absY, 0xF9), (.indX, 0xE1), (.indY, 0xF1)] m.mode   -- R181
  | .and (.imm _) => some 0x29
  | .and (.mem m) => opcodeIn [(.zp, 0x25), (.zpX, 0x35), (.abs, 0x2D), (.absX, 0x3D), (.absY, 0x39), (.indX, 0x21), (.indY, 0x31)] m.mode   -- R182
  | .ora (.imm _) => some 0x09
  | .ora (.mem m) => opcodeIn [(.zp, 0x05), (.zpX, 0x15), (.abs, 0x0D), (.absX, 0x1D), (.absY, 0x19), (.indX, 0x01), (.indY, 0x11)] m.mode   -- R183
  | .eor (.imm _) => some 0x49
  | .eor (.mem m) => opcodeIn [(.zp, 0x45), (.zpX, 0x55), (.abs, 0x4D), (.absX, 0x5D), (.absY, 0x59), (.indX, 0x41), (.indY, 0x51)] m.mode   -- R184
  | .bit m => opcodeIn [(.zp, 0x24), (.abs, 0x2C)] m.mode   -- R185
  | .cmp (.imm _) => some 0xC9
  | .cmp (.mem m) => opcodeIn [(.zp, 0xC5), (.zpX, 0xD5), (.abs, 0xCD), (.absX, 0xDD), (.absY, 0xD9), (.indX, 0xC1), (.indY, 0xD1)] m.mode   -- R186
  | .cpx (.imm _) => some 0xE0
  | .cpx (.mem m) => opcodeIn [(.zp, 0xE4), (.abs, 0xEC)] m.mode   -- R187
  | .cpy (.imm _) => some 0xC0
  | .cpy (.mem m) => opcodeIn [(.zp, 0xC4), (.abs, 0xCC)] m.mode   -- R188
  | .inc m => opcodeIn [(.zp, 0xE6), (.zpX, 0xF6), (.abs, 0xEE), (.absX, 0xFE)] m.mode   -- R189
  | .dec m => opcodeIn [(.zp, 0xC6), (.zpX, 0xD6), (.abs, 0xCE), (.absX, 0xDE)] m.mode   -- R190
  | .inx => some 0xE8   -- R191
  | .iny => some 0xC8   -- R192
  | .dex => some 0xCA   -- R193
  | .dey => some 0x88   -- R194
  | .asl .acc => some 0x0A
  | .asl (.mem m) => opcodeIn [(.zp, 0x06), (.zpX, 0x16), (.abs, 0x0E), (.absX, 0x1E)] m.mode   -- R195
  | .lsr .acc => some 0x4A
  | .lsr (.mem m) => opcodeIn [(.zp, 0x46), (.zpX, 0x56), (.abs, 0x4E), (.absX, 0x5E)] m.mode   -- R196
  | .rol .acc => some 0x2A
  | .rol (.mem m) => opcodeIn [(.zp, 0x26), (.zpX, 0x36), (.abs, 0x2E), (.absX, 0x3E)] m.mode   -- R197
  | .ror .acc => some 0x6A
  | .ror (.mem m) => opcodeIn [(.zp, 0x66), (.zpX, 0x76), (.abs, 0x6E), (.absX, 0x7E)] m.mode   -- R198
  | .bpl _ => some 0x10   -- R211
  | .bmi _ => some 0x30   -- R212
  | .bvc _ => some 0x50   -- R213
  | .bvs _ => some 0x70   -- R214
  | .bcc _ => some 0x90   -- R215
  | .bcs _ => some 0xB0   -- R216
  | .bne _ => some 0xD0   -- R217
  | .beq _ => some 0xF0   -- R218
  | .jmp (.abs _) => some 0x4C
  | .jmp (.ind _) => some 0x6C   -- R219
  | .jsr _ => some 0x20   -- R220
  | .rts => some 0x60   -- R221
  | .rti => some 0x40   -- R222
  | .brk => some 0x00   -- R223
  | .clc => some 0x18   -- R224
  | .sec => some 0x38   -- R225
  | .cli => some 0x58   -- R226
  | .sei => some 0x78   -- R227
  | .cld => some 0xD8   -- R228
  | .sed => some 0xF8   -- R229
  | .clv => some 0xB8   -- R230
  | .nop => some 0xEA   -- R231
  | .slo m => opcodeIn [(.zp, 0x07), (.zpX, 0x17), (.abs, 0x0F), (.absX, 0x1F), (.absY, 0x1B), (.indX, 0x03), (.indY, 0x13)] m.mode   -- R241
  | .rla m => opcodeIn [(.zp, 0x27), (.zpX, 0x37), (.abs, 0x2F), (.absX, 0x3F), (.absY, 0x3B), (.indX, 0x23), (.indY, 0x33)] m.mode   -- R242
  | .sre m => opcodeIn [(.zp, 0x47), (.zpX, 0x57), (.abs, 0x4F), (.absX, 0x5F), (.absY, 0x5B), (.indX, 0x43), (.indY, 0x53)] m.mode   -- R243
  | .rra m => opcodeIn [(.zp, 0x67), (.zpX, 0x77), (.abs, 0x6F), (.absX, 0x7F), (.absY, 0x7B), (.indX, 0x63), (.indY, 0x73)] m.mode   -- R244
  | .dcp m => opcodeIn [(.zp, 0xC7), (.zpX, 0xD7), (.abs, 0xCF), (.absX, 0xDF), (.absY, 0xDB), (.indX, 0xC3), (.indY, 0xD3)] m.mode   -- R245
  | .isc m => opcodeIn [(.zp, 0xE7), (.zpX, 0xF7), (.abs, 0xEF), (.absX, 0xFF), (.absY, 0xFB), (.indX, 0xE3), (.indY, 0xF3)] m.mode   -- R246
  | .sax m => opcodeIn [(.zp, 0x87), (.zpY, 0x97), (.abs, 0x8F), (.indX, 0x83)] m.mode   -- R247
  | .lax m => opcodeIn [(.zp, 0xA7), (.zpY, 0xB7), (.abs, 0xAF), (.absY, 0xBF), (.indX, 0xA3), (.indY, 0xB3)] m.mode   -- R248
  | .las _ => some 0xBB   -- R255
  | .anc op _ => if op == 0x0B || op == 0x2B then some op else none   -- R249
  | .alr _ => some 0x4B   -- R250
  | .arr _ => some 0x6B   -- R251
  | .ane _ => some 0x8B   -- R252
  | .lxa _ => some 0xAB   -- R253
  | .sbx _ => some 0xCB   -- R254
  | .usbc _ => some 0xEB   -- R260
  | .sha m => opcodeIn [(.indY, 0x93), (.absY, 0x9F)] m.mode   -- R256
  | .shx _ => some 0x9E   -- R257
  | .shy _ => some 0x9C   -- R258
  | .tas _ => some 0x9B   -- R259
  | .nopU op o => if (nopOpcodes o).contains op then some op else none   -- R261
  | .jam op => if jamOpcodes.contains op then some op else none   -- R270

def MemOperand.bytes : MemOperand → List Byte
  | .zp b => [b]
  | .zpX b => [b]
  | .zpY b => [b]
  | .abs w => [loByte w, hiByte w]
  | .absX w => [loByte w, hiByte w]
  | .absY w => [loByte w, hiByte w]
  | .indX b => [b]
  | .indY b => [b]

def ReadOperand.bytes : ReadOperand → List Byte
  | .imm b => [b]
  | .mem m => m.bytes

def ShiftOperand.bytes : ShiftOperand → List Byte
  | .acc => []
  | .mem m => m.bytes

def JumpOperand.bytes : JumpOperand → List Byte
  | .abs w => [loByte w, hiByte w]
  | .ind w => [loByte w, hiByte w]

def NopOperand.bytes : NopOperand → List Byte
  | .implied => []
  | .imm b => [b]
  | .mem m => m.bytes

/-- The operand bytes of an instruction, in address order (R100, R102). -/
def operandBytesOf : Instr → List Byte
  | .lda o => o.bytes
  | .ldx o => o.bytes
  | .ldy o => o.bytes
  | .sta m => m.bytes
  | .stx m => m.bytes
  | .sty m => m.bytes
  | .tax => []
  | .tay => []
  | .txa => []
  | .tya => []
  | .tsx => []
  | .txs => []
  | .pha => []
  | .php => []
  | .plp => []
  | .pla => []
  | .adc o => o.bytes
  | .sbc o => o.bytes
  | .and o => o.bytes
  | .ora o => o.bytes
  | .eor o => o.bytes
  | .bit m => m.bytes
  | .cmp o => o.bytes
  | .cpx o => o.bytes
  | .cpy o => o.bytes
  | .inc m => m.bytes
  | .dec m => m.bytes
  | .inx => []
  | .iny => []
  | .dex => []
  | .dey => []
  | .asl o => o.bytes
  | .lsr o => o.bytes
  | .rol o => o.bytes
  | .ror o => o.bytes
  | .bpl b => [b]
  | .bmi b => [b]
  | .bvc b => [b]
  | .bvs b => [b]
  | .bcc b => [b]
  | .bcs b => [b]
  | .bne b => [b]
  | .beq b => [b]
  | .jmp o => o.bytes
  | .jsr w => [loByte w, hiByte w]
  | .rts => []
  | .rti => []
  | .brk => []
  | .clc => []
  | .sec => []
  | .cli => []
  | .sei => []
  | .cld => []
  | .sed => []
  | .clv => []
  | .nop => []
  | .slo m => m.bytes
  | .rla m => m.bytes
  | .sre m => m.bytes
  | .rra m => m.bytes
  | .dcp m => m.bytes
  | .isc m => m.bytes
  | .sax m => m.bytes
  | .lax m => m.bytes
  | .las w => [loByte w, hiByte w]
  | .anc _ b => [b]
  | .alr b => [b]
  | .arr b => [b]
  | .ane b => [b]
  | .lxa b => [b]
  | .sbx b => [b]
  | .usbc b => [b]
  | .sha m => m.bytes
  | .shx w => [loByte w, hiByte w]
  | .shy w => [loByte w, hiByte w]
  | .tas w => [loByte w, hiByte w]
  | .nopU _ o => o.bytes
  | .jam _ => []

/-- The bytes of a well-formed instruction in address order; none for an ill-formed one, which has no encoding. -/
def encode (i : Instr) : List Byte :=
  match opcodeOf i with
  | some op => op :: operandBytesOf i
  | none => []

/-- The three bytes of a word numbered as spec/opcode_table.json numbers its rows: byte k is bits 8k+7 to 8k, and every bit
from `nbits` up is 0. -/
def tableBytes (nbits w : Nat) : List Byte :=
  [BitVec.ofNat 8 (w % 2 ^ nbits), BitVec.ofNat 8 (w % 2 ^ nbits / 256), BitVec.ofNat 8 (w % 2 ^ nbits / 65536)]

/-- The instruction the decoder reads from a word of `nbits` bits numbered as spec/opcode_table.json numbers them. -/
def decodeTableWord (nbits w : Nat) : Option Instr :=
  match decode (tableBytes nbits w) with
  | .ok (i, _) => some i
  | .error _ => none

end Sys2Proof
end

