-- ==== Sys2Proof/Machine/State.lean ====
section
/-! DEFINITION. The state of the machine, as 10_state.md lists it, the reasons a step can stop, and the state after reset.
Plain data throughout. -/

namespace Sys2Proof.Machine

/-- Which byte the next Addr write supplies (R40). -/
inductive AddrLatch where
  | high
  | low
  deriving DecidableEq, Repr

/-- Which coordinate the next Scroll write supplies (R41). -/
inductive ScrollLatch where
  | first
  | second
  deriving DecidableEq, Repr

/-- The PPU's registers, counters and memories (R36 to R48). The three stored Status bits are Booleans, since no access reads
or writes Status as a whole word (R38). -/
structure Ppu where
  ctrl           : Byte          -- R36
  mask           : Byte          -- R37
  vblank         : Bool          -- R38, Status bit 7
  spriteHitZero  : Bool          -- R38, Status bit 6
  spriteOverflow : Bool          -- R38, Status bit 5
  oamAddr        : Byte          -- R39
  v              : Word          -- R40
  addrLatch      : AddrLatch     -- R40
  scrollX        : Byte          -- R41
  scrollY        : Byte          -- R41
  scrollLatch    : ScrollLatch   -- R41
  buffer         : Byte          -- R42
  cycle          : Nat           -- R43
  scanline       : Nat           -- R44
  nmiPending     : Bool          -- R45
  palette        : Memory        -- R46, 32 bytes
  oam            : Memory        -- R47, 256 bytes
  vram           : Memory        -- R48, 2048 bytes
  deriving DecidableEq, Repr

/-- The machine. `extra`, `tickCycles`, `irqLine`, `reads` and `cfg` are explained where the spec has them as something else
than state: the tick's accumulator of extra cycles and the count it returns (30_encoding.md R112), the IRQ line the spec
holds at 0 (60_exceptions.md R286), the choice argument of the external read oracle (R7), and the run's parameters (R54). -/
structure State where
  a          : Byte          -- R21
  x          : Byte          -- R22
  y          : Byte          -- R23
  sp         : Byte          -- R24
  pc         : Word          -- R25
  p          : Byte          -- R26
  ppu        : Ppu
  ram        : Memory        -- R49, 2048 bytes
  wram       : Memory        -- R50, 8192 bytes
  flat       : Memory        -- 20_memory.md R78, 65536 bytes
  dmaStall   : Nat           -- R52
  extra      : Nat           -- 30_encoding.md R112
  tickCycles : Nat           -- 30_encoding.md R112: what the last tick returned
  irqLine    : Bool          -- 60_exceptions.md R286
  events     : List Event    -- R51, oldest first
  reads      : Nat           -- the model's own: how many external reads have been made
  cfg        : RunConfig     -- R54
  deriving DecidableEq, Repr

/-- What a decode defect is (30_encoding.md R108). -/
inductive DecodeDefect where
  /-- An instruction with an addressing mode its operation does not have. -/
  | badForm (i : Instr)
  /-- Bytes the decoder reads no instruction from. -/
  | badBytes (e : DecodeError)
  deriving DecidableEq, Repr

/-- Why the machine stops. -/
inductive Fault where
  /-- `fault DecodeDefect` (30_encoding.md R108, 60_exceptions.md R292), with PC where it was found. Raised by a meaning
  given an ill-formed term of `Instr`, and by a step whose bytes decode to none. No step reaches it, since decoding is total
  (R104); it is safe, as the spec names this very stop. -/
  | decodeDefect (d : DecodeDefect) (pc : Word)
  deriving DecidableEq, Repr

/-- The kinds of cartridge image that are refused (62_devices.md R384). -/
inductive RomFormat where
  | badHeader
  | trainer
  | nes20
  | unsupportedMapper (id : Nat)
  | sizeValidation
  | fourScreen
  | truncated
  deriving DecidableEq, Repr

/-- Why something has no meaning. -/
inductive Refusal where
  /-- An instruction without a meaning in this model. Raised by no arm: every instruction has its meaning. -/
  | notModelled (mnemonic : String)
  /-- `refuse RomFormat(kind)` (60_exceptions.md R293): a bad cartridge image, refused before a run starts, by
  `State.bootImage`; safe, as the spec names this refusal. -/
  | romFormat (kind : RomFormat)
  deriving DecidableEq, Repr

/-- The PPU at power-on (R55). -/
def Ppu.powerOn : Ppu where
  ctrl := 0
  mask := 0
  vblank := false
  spriteHitZero := false
  spriteOverflow := false
  oamAddr := 0
  v := 0
  addrLatch := .high
  scrollX := 0
  scrollY := 0
  scrollLatch := .first
  buffer := 0
  cycle := 0
  scanline := 0
  nmiPending := false
  palette := []
  oam := []
  vram := []

/-- The machine at power-on with given parameters (70_reset_and_hazards.md R400 step 3, 10_state.md R55): PC is 0x0000 until
`loadProgramCounter`. -/
def State.powerOn (cfg : RunConfig) : State where
  a := 0
  x := 0
  y := 0
  sp := 0xFD
  pc := 0
  p := 0x24
  ppu := Ppu.powerOn
  ram := []
  wram := []
  flat := []
  dmaStall := 0
  extra := 0
  tickCycles := 0
  irqLine := false
  events := []
  reads := 0
  cfg := cfg

/-- The machine right after reset, with the default parameters and a blank cartridge. `loadProgramCounter` (R400 step 4)
leaves this state as it is, since the blank cartridge's reset vector is 0x0000 (`Laws.reset_is_boot`); for a run's own
parameters the state after reset is `State.boot cfg` (Machine/Reset.lean). -/
def State.reset : State := State.powerOn (RunConfig.ofCart Cart.blank)

end Sys2Proof.Machine
end

