-- ==== Sys2Proof/Machine/Cartridge.lean ====
section
/-! DEFINITION. The NROM mapper (62_devices.md R381 to R383) and the validation of a cartridge image (R384 to R387). -/

namespace Sys2Proof.Machine

/-- The length of PRG (R380). -/
def prgBytes : PrgBanks → Nat
  | .single => 16384
  | .dual => 32768

/-- The index of PRG that a CPU address 0x8000 to 0xFFFF reaches (R381). -/
def prgIndex (banks : PrgBanks) (a : Word) : Nat := (a.toNat - 0x8000) % prgBytes banks

/-- `readPRG(a)` (R381). -/
def readPrg (cart : Cart) (a : Word) : Byte := cart.prg.romRead (prgIndex cart.banks a)

/-- `readCHR(a)` for a in 0x0000 to 0x1FFF (R383). -/
def readChr (cart : Cart) (a : Word) : Byte := cart.chr.romRead a.toNat

/-- The legal values of the fields of `cart` (R380), and the canonical form of its images. -/
def cartWf (cart : Cart) : Bool :=
  cart.prg.romWf (prgBytes cart.banks) && cart.chr.romWf 8192 && cart.mapperId == 0

/-- The mirroring a header declares (R387); FourScreen is the third value. -/
inductive HeaderMirroring where
  | fourScreen
  | twoTables (m : Mirroring)
  deriving DecidableEq, Repr

/-- `b[i]` of an image; every caller has checked that the header is there. -/
def headerByte (image : List Byte) (i : Nat) : Byte := image.getD i 0

/-- `MapperId(b)` (R386). -/
def headerMapperId (image : List Byte) : Nat := ((headerByte image 7 &&& 0xF0) ||| (headerByte image 6 >>> 4)).toNat

/-- `Mirroring(b)` (R387). -/
def headerMirroring (image : List Byte) : HeaderMirroring :=
  if (headerByte image 6).getLsbD 3 then .fourScreen
  else if (headerByte image 6).getLsbD 0 then .twoTables .vertical
  else .twoTables .horizontal

/-- The image starts with a 16-byte header whose bytes 0 to 2 are "NES" (R384, R385). -/
def headerOk (image : List Byte) : Bool := decide (16 ≤ image.length) && image.take 3 == [0x4E, 0x45, 0x53]

/-- The image's length by its header's sizes (R384). -/
def imageSize (image : List Byte) : Nat :=
  16 + 16384 * (headerByte image 4).toNat + 8192 * (headerByte image 5).toNat

/-- `LoadImage(b)` (R384): the checks in the order of the rule, the first failure refused. -/
def loadImage (image : List Byte) : Except RomFormat Cart :=
  if headerOk image = false then .error .badHeader
  else if (headerByte image 6).getLsbD 2 then .error .trainer
  else if (headerByte image 7).extractLsb' 2 2 = 0b10 then .error .nes20
  else if headerMapperId image ≠ 0 then .error (.unsupportedMapper (headerMapperId image))
  else if ¬((headerByte image 4 = 1 ∨ headerByte image 4 = 2) ∧ headerByte image 5 = 1) then .error .sizeValidation
  else match headerMirroring image with
    | .fourScreen => .error .fourScreen
    | .twoTables m =>
      if image.length < imageSize image then .error .truncated
      else .ok {
        banks := if headerByte image 4 = 1 then .single else .dual
        prg := Memory.romOfBytes 0 ((image.drop 16).take (16384 * (headerByte image 4).toNat))
        chr := Memory.romOfBytes 0 ((image.drop (16 + 16384 * (headerByte image 4).toNat)).take 8192)
        mirroring := m
        mapperId := 0 }

end Sys2Proof.Machine
end

