-- ==== Sys2Proof/Machine/Registers.lean ====
section
/-! DEFINITION. The one way each component of State is written. `Laws/State.lean` says of each what it changes. -/

namespace Sys2Proof.Machine

def State.setA (v : Byte) (s : State) : State := { s with a := v }
def State.setX (v : Byte) (s : State) : State := { s with x := v }
def State.setY (v : Byte) (s : State) : State := { s with y := v }
def State.setSp (v : Byte) (s : State) : State := { s with sp := v }
def State.setPc (v : Word) (s : State) : State := { s with pc := v }
def State.setP (v : Byte) (s : State) : State := { s with p := v }
def State.setPpu (v : Ppu) (s : State) : State := { s with ppu := v }
def State.setRam (v : Memory) (s : State) : State := { s with ram := v }
def State.setWram (v : Memory) (s : State) : State := { s with wram := v }
def State.setFlat (v : Memory) (s : State) : State := { s with flat := v }
def State.setDmaStall (v : Nat) (s : State) : State := { s with dmaStall := v }
def State.setExtra (v : Nat) (s : State) : State := { s with extra := v }
def State.setTickCycles (v : Nat) (s : State) : State := { s with tickCycles := v }
def State.setIrqLine (v : Bool) (s : State) : State := { s with irqLine := v }
def State.setReads (v : Nat) (s : State) : State := { s with reads := v }
def State.setCfg (v : RunConfig) (s : State) : State := { s with cfg := v }

/-- `emit e`: appends to the event history (R51). -/
def State.emit (e : Event) (s : State) : State := { s with events := s.events ++ [e] }

end Sys2Proof.Machine
end

