-- ==== Sys2Proof/Machine/Ppu.lean ====
section
/-! DEFINITION. The PPU as the CPU sees it: its 14-bit address space (61_ppu.md R330 to R334) and its eight registers with
their side effects (R311 to R323), and the external read oracle. -/

namespace Sys2Proof.Machine

/-- The value the external read oracle gives the next read of an address (00_scope.md R7). -/
def externalByte (a : Word) (s : State) : Byte := Config.extRead a s.events s.reads

/-- An external read: the value, the `PortRead` event, and the oracle's choice counter advanced (62_devices.md R374). -/
def externalRead (a : Word) (s : State) : Byte × State :=
  (externalByte a s, (s.setReads (s.reads + 1)).emit (.portRead a (externalByte a s)))

/-! The address space. -/

/-- `NtIndex(a)` for a in 0x2000 to 0x3EFF (R332, R333). -/
def ntIndex (m : Mirroring) (a : Word) : Nat :=
  let table := (a.toNat - 0x2000) % 0x1000 / 0x400
  let physical := match m with
    | .horizontal => table / 2
    | .vertical => table % 2
  physical * 0x400 + a.toNat % 0x400

/-- `PalIndex(a)` for a in 0x3F00 to 0x3FFF (R334). -/
def palIndex (a : Word) : Nat :=
  let i := (a.toNat - 0x3F00) % 32
  if i = 0x10 ∨ i = 0x14 ∨ i = 0x18 ∨ i = 0x1C then i - 0x10 else i

/-- An entry of the palette array (R46). -/
def paletteByte (s : State) (i : Nat) : Byte := s.ppu.palette.read .palette i

/-- A byte of OAM (R47). -/
def oamByte (s : State) (i : Nat) : Byte := s.ppu.oam.read .oam i

/-- A byte of nametable VRAM (R48). -/
def vramByte (s : State) (i : Nat) : Byte := s.ppu.vram.read .vram i

/-- `PpuRead(a)` (R330). -/
def ppuRead (a : Word) (s : State) : Byte :=
  if a.toNat ≤ 0x1FFF then readChr s.cfg.cart a
  else if a.toNat ≤ 0x3EFF then vramByte s (ntIndex s.cfg.cart.mirroring a)
  else paletteByte s (palIndex a)

/-- `PpuWrite(a, v)` (R330); a write to pattern-table space is the logged no-op of R331. -/
def ppuWrite (a : Word) (v : Byte) (s : State) : State :=
  if a.toNat ≤ 0x1FFF then s.emit (.diag .romWrite a)
  else if a.toNat ≤ 0x3EFF then
    s.setPpu { s.ppu with vram := s.ppu.vram.set (ntIndex s.cfg.cart.mirroring a) v }
  else s.setPpu { s.ppu with palette := s.ppu.palette.set (palIndex a) v }

/-! The registers. -/

inductive PpuReg where
  | control | mask | status | oamAddr | oamData | scroll | addr | data
  deriving DecidableEq, Repr

/-- The register a CPU address 0x2000 to 0x3FFF selects, `r = a & 7` (R311). -/
def ppuReg (a : Word) : PpuReg :=
  match a.toNat % 8 with
  | 0 => .control
  | 1 => .mask
  | 2 => .status
  | 3 => .oamAddr
  | 4 => .oamData
  | 5 => .scroll
  | 6 => .addr
  | _ => .data

/-- `Increment()` (R317): 32 if Control bit 2 is set, else 1. -/
def ppuIncrement (ctrl : Byte) : Word := if ctrl.getLsbD 2 then 32 else 1

/-- `PPU.v` after a Data access (R317, R318). -/
def nextV (ppu : Ppu) : Word := (ppu.v + ppuIncrement ppu.ctrl) &&& 0x3FFF

/-- `ControlWrite(v)` (R312). -/
def controlWrite (v : Byte) (s : State) : State :=
  s.setPpu { s.ppu with
    ctrl := v
    nmiPending := s.ppu.nmiPending || (!s.ppu.ctrl.getLsbD 7 && v.getLsbD 7 && s.ppu.vblank) }

/-- The byte a Status read returns, given its low five bits (R313). -/
def statusByte (ppu : Ppu) (low : Byte) : Byte :=
  (bitByte ppu.vblank <<< 7) ||| (bitByte ppu.spriteHitZero <<< 6) ||| (bitByte ppu.spriteOverflow <<< 5) ||| low

/-- `StatusRead(a)` (R313). -/
def statusRead (a : Word) (s : State) : Byte × State :=
  let low := externalByte a s &&& 0x1F
  (statusByte s.ppu low,
    ((s.setReads (s.reads + 1)).emit (.portRead a low)).setPpu
      { s.ppu with vblank := false, addrLatch := .high, scrollLatch := .first })

/-- `ScrollWrite(v)` (R315). -/
def scrollWrite (v : Byte) (s : State) : State :=
  match s.ppu.scrollLatch with
  | .first => s.setPpu { s.ppu with scrollX := v, scrollLatch := .second }
  | .second => s.setPpu { s.ppu with scrollY := v, scrollLatch := .first }

/-- `AddrWrite(v)` (R316). -/
def addrWrite (v : Byte) (s : State) : State :=
  match s.ppu.addrLatch with
  | .high => s.setPpu { s.ppu with v := ((zext16 v <<< 8) ||| (s.ppu.v &&& 0x00FF)) &&& 0x3FFF, addrLatch := .low }
  | .low => s.setPpu { s.ppu with v := ((s.ppu.v &&& 0xFF00) ||| zext16 v) &&& 0x3FFF, addrLatch := .high }

/-- `DataRead()` (R317). -/
def dataRead (s : State) : Byte × State :=
  if 0x3F00 ≤ s.ppu.v.toNat then
    (ppuRead s.ppu.v s, s.setPpu { s.ppu with v := nextV s.ppu })
  else
    (s.ppu.buffer, s.setPpu { s.ppu with buffer := ppuRead s.ppu.v s, v := nextV s.ppu })

/-- Advances `PPU.v` by the increment (R318). -/
def advanceV (s : State) : State := s.setPpu { s.ppu with v := nextV s.ppu }

/-- `DataWrite(v)` (R318). -/
def dataWrite (v : Byte) (s : State) : State := advanceV (ppuWrite s.ppu.v v s)

/-- Stores a byte of OAM (R319, 62_devices.md R372). -/
def setOamByte (i : Nat) (v : Byte) (s : State) : State :=
  s.setPpu { s.ppu with oam := s.ppu.oam.set i v }

/-- `OamDataWrite(v)` (R319). -/
def oamDataWrite (v : Byte) (s : State) : State :=
  s.setPpu { s.ppu with oam := s.ppu.oam.set s.ppu.oamAddr.toNat v, oamAddr := s.ppu.oamAddr + 1 }

/-- A CPU read of a PPU register (R311, R313, R317, R320, R322). DESIGN CHOICE, unsafe (log entry 43): a read through a
mirror passes the CPU's own address to the oracle and to the event, 0x200A and not 0x2002; 20_memory.md R66 ("as 0x2000 +
(a & 7)") and R313, R322 (`extRead(a)`) leave open which. -/
def ppuRegRead (a : Word) (s : State) : Byte × State :=
  match ppuReg a with
  | .control => externalRead a s
  | .mask => externalRead a s
  | .status => statusRead a s
  | .oamAddr => externalRead a s
  | .oamData => (oamByte s s.ppu.oamAddr.toNat, s)
  | .scroll => externalRead a s
  | .addr => externalRead a s
  | .data => dataRead s

/-- A CPU write of a PPU register (R311, R312, R314 to R316, R318, R319, R321, R323). -/
def ppuRegWrite (a : Word) (v : Byte) (s : State) : State :=
  match ppuReg a with
  | .control => controlWrite v s
  | .mask => s.setPpu { s.ppu with mask := v }
  | .status => s
  | .oamAddr => s.setPpu { s.ppu with oamAddr := v }
  | .oamData => oamDataWrite v s
  | .scroll => scrollWrite v s
  | .addr => addrWrite v s
  | .data => dataWrite v s

end Sys2Proof.Machine
end

