-- ==== Sys2Proof/Machine/Bus.lean ====
section
/-! DEFINITION. The MMU (20_memory.md R63 to R80): the region list, its dispatch, and a read and a write of one byte through
it; the OAM DMA (62_devices.md R371, R372), which a write starts. -/

namespace Sys2Proof.Machine

/-- A closed interval of addresses (R63). -/
structure AddressRange where
  first : Nat
  last  : Nat
  deriving DecidableEq, Repr

def AddressRange.contains (r : AddressRange) (a : Nat) : Bool := decide (r.first ≤ a) && decide (a ≤ r.last)

/-- `extent()`, in a type that does not overflow (R63). -/
def AddressRange.extent (r : AddressRange) : Nat := r.last - r.first + 1

/-- What owns a region, that is, its pair of handlers (R66). -/
inductive Owner where
  | ram | ppu | apu | oamDma | joypad | wram | prg | flat
  deriving DecidableEq, Repr

/-- A region: a range bound to its handlers (R63). -/
structure Region where
  range : AddressRange
  owner : Owner
  deriving DecidableEq, Repr

/-- `addMemoryRegion`: appends to the ordered list (R64). -/
def addMemoryRegion (regions : List Region) (r : Region) : List Region := regions ++ [r]

/-- Region removal (R78), at configuration time only (R79): the list without that region, however often it was registered.
DESIGN CHOICE, unsafe (log entry 44): the spec does not say how a region to remove is named. -/
def removeMemoryRegion (regions : List Region) (r : Region) : List Region := regions.filter fun q => decide (q ≠ r)

/-- `clearMemoryRegions` (R78), at configuration time only (R79): no address has an owner any more. -/
def clearMemoryRegions (_regions : List Region) : List Region := []

/-- The ten regions of `NesMap`, in registration order (R66). -/
def nesMapRegions : List Region :=
  [⟨⟨0x0000, 0x07FF⟩, .ram⟩, ⟨⟨0x0800, 0x1FFF⟩, .ram⟩, ⟨⟨0x2000, 0x2007⟩, .ppu⟩, ⟨⟨0x2008, 0x3FFF⟩, .ppu⟩,
   ⟨⟨0x4000, 0x4013⟩, .apu⟩, ⟨⟨0x4014, 0x4014⟩, .oamDma⟩, ⟨⟨0x4015, 0x4015⟩, .apu⟩, ⟨⟨0x4016, 0x4017⟩, .joypad⟩,
   ⟨⟨0x6000, 0x7FFF⟩, .wram⟩, ⟨⟨0x8000, 0xFFFF⟩, .prg⟩].foldl addMemoryRegion []

/-- The one region of `FlatRam`, the alternate setup to which the bus is re-configured (R78). -/
def flatRamRegions : List Region := addMemoryRegion (clearMemoryRegions nesMapRegions) ⟨⟨0x0000, 0xFFFF⟩, .flat⟩

def regionsOf : BusConfig → List Region
  | .nesMap => nesMapRegions
  | .flatRam => flatRamRegions

/-- The first registered region that contains the address (R64). -/
def findRegion (regions : List Region) (a : Word) : Option Region := regions.find? fun r => r.range.contains a.toNat

/-- The owner of an address, none for an unmapped one (R64, R74). -/
def ownerOf (bus : BusConfig) (a : Word) : Option Owner := (findRegion (regionsOf bus) a).map Region.owner

/-- The index of internal RAM an address 0x0000 to 0x1FFF reaches, `a & 0x07FF` (R67). -/
def ramIndex (a : Word) : Nat := (a &&& 0x07FF).toNat

/-- The index of work RAM an address 0x6000 to 0x7FFF reaches (R72). -/
def wramIndex (a : Word) : Nat := a.toNat - 0x6000

/-- `MemRead(addr, 1)` (R64, R65): one byte through the region list, with the reached region's side effects. -/
def memRead (a : Word) (s : State) : Byte × State :=
  match ownerOf s.cfg.bus a with
  | some .ram => (s.ram.read .ram (ramIndex a), s)
  | some .ppu => ppuRegRead a s
  | some .apu => externalRead a s
  | some .oamDma => externalRead a s
  | some .joypad => externalRead a s
  | some .wram => (s.wram.read .wram (wramIndex a), s)
  | some .prg => (readPrg s.cfg.cart a, s)
  | some .flat => (s.flat.read .flat a.toNat, s)
  | none => (0, s.emit (.diag (.unmapped .read) a))

/-- One byte of the OAM DMA: byte `i` of the page goes to OAM at `(oamAddr + i) mod 256` (62_devices.md R372). -/
def oamDmaByte (page : Byte) (s : State) (i : Nat) : State :=
  let r := memRead (BitVec.ofNat 16 (page.toNat * 256 + i)) s
  setOamByte ((r.2.ppu.oamAddr.toNat + i) % 256) r.1 r.2

/-- `OamDma(v)` (62_devices.md R372): 256 bytes in order, then the stall. -/
def oamDma (page : Byte) (s : State) : State :=
  let t := (List.range 256).foldl (oamDmaByte page) s
  t.setDmaStall (t.dmaStall + t.cfg.oamDmaStallCycles)

/-- `MemWrite(addr, 1, v)` (R64, R65). -/
def memWrite (a : Word) (v : Byte) (s : State) : State :=
  match ownerOf s.cfg.bus a with
  | some .ram => s.setRam (s.ram.set (ramIndex a) v)
  | some .ppu => ppuRegWrite a v s
  | some .apu => s.emit (.portWrite a v)
  | some .oamDma => oamDma v s
  | some .joypad => s.emit (.portWrite a v)
  | some .wram => s.setWram (s.wram.set (wramIndex a) v)
  | some .prg => s.emit (.diag .romWrite a)
  | some .flat => s.setFlat (s.flat.set a.toNat v)
  | none => s.emit (.diag (.unmapped .write) a)

/-- `ReadWord(a)` (R62): the low byte first. -/
def readWord (a : Word) (s : State) : Word × State :=
  let lo := memRead a s
  let hi := memRead (a + 1) lo.2
  (mkWord hi.1 lo.1, hi.2)

/-- `WriteWord(a, w)` (R62): the low byte first. -/
def writeWord (a w : Word) (s : State) : State := memWrite (a + 1) (hiByte w) (memWrite a (loByte w) s)

/-! What stands behind an address, for statements: no access does this. -/

/-- The byte of a writable memory that an address reaches, if it reaches one. -/
def cellOf (bus : BusConfig) (a : Word) : Option (Store × Nat) :=
  match ownerOf bus a with
  | some .ram => some (.ram, ramIndex a)
  | some .wram => some (.wram, wramIndex a)
  | some .flat => some (.flat, a.toNat)
  | _ => none

/-- The byte of memory at an address: RAM, work RAM, flat RAM or PRG, whose reads have no side effect (R76, R81). None at a
device's address and at an unmapped one. -/
def peek (a : Word) (s : State) : Option Byte :=
  match ownerOf s.cfg.bus a with
  | some .ram => some (s.ram.read .ram (ramIndex a))
  | some .wram => some (s.wram.read .wram (wramIndex a))
  | some .prg => some (readPrg s.cfg.cart a)
  | some .flat => some (s.flat.read .flat a.toNat)
  | _ => none

end Sys2Proof.Machine
end

