-- ==== Sys2Proof/Machine/Flags.lean ====
section
/-! DEFINITION. The status byte P (10_state.md R26 to R35) and every flag computation (00_scope.md R10, 42_alu.md R199,
R200). P is one byte; a flag is a bit of it. -/

namespace Sys2Proof.Machine

/-- The flags of R26. -/
inductive Flag where
  | c | z | i | d | b | u | v | n
  deriving DecidableEq, Repr

/-- The bit position of a flag in P (R26). -/
def Flag.index : Flag → Nat
  | .c => 0
  | .z => 1
  | .i => 2
  | .d => 3
  | .b => 4
  | .u => 5
  | .v => 6
  | .n => 7

/-- The byte with only that flag's bit set. -/
def Flag.mask (f : Flag) : Byte := (1 : Byte) <<< f.index

/-- `isBitSet` (R35). -/
def isBitSet (p : Byte) (f : Flag) : Bool := p.getLsbD f.index

/-- `setBit` (R35). -/
def setBit (p : Byte) (f : Flag) : Byte := p ||| f.mask

/-- `clearBit` (R35). -/
def clearBit (p : Byte) (f : Flag) : Byte := p &&& ~~~f.mask

/-- `setBitTo` (R35). -/
def setBitTo (p : Byte) (f : Flag) (value : Bool) : Byte := if value then setBit p f else clearBit p f

/-- `setNZ(v)` on P (R10): Z is `v == 0`, N is `v[7]`. -/
def setNZ (value p : Byte) : Byte := setBitTo (setBitTo p .z (value == 0)) .n (value.getLsbD 7)

/-- The 9-bit sum of `AddCore`, a natural number (R199). -/
def addSum (a m : Byte) (carry : Bool) : Nat := a.toNat + m.toNat + carry.toNat

/-- The result byte of `AddCore(a, m, c)` (R199). -/
def addResult (a m : Byte) (carry : Bool) : Byte := BitVec.ofNat 8 (addSum a m carry)

/-- The overflow rule of `AddCore` (R199): `((m ^ r) & (a ^ r) & 0x80) != 0`. -/
def addOverflow (a m r : Byte) : Bool := ((m ^^^ r) &&& (a ^^^ r) &&& 0x80) != 0

/-- P after `AddCore(a, m, c)` (R199). -/
def addFlags (a m : Byte) (carry : Bool) (p : Byte) : Byte :=
  setNZ (addResult a m carry)
    (setBitTo (setBitTo p .c (decide (0xFF < addSum a m carry))) .v (addOverflow a m (addResult a m carry)))

/-- P after `Compare(reg, m)` (R200). V is not written. -/
def compareFlags (reg m p : Byte) : Byte :=
  setBitTo (setBitTo (setBitTo p .c (decide (m.toNat ≤ reg.toNat))) .z (reg == m)) .n ((reg - m).getLsbD 7)

/-- P after a shift or rotate: C is the bit shifted out, N and Z follow the result (R195 to R198). -/
def shiftFlags (carryOut : Bool) (result p : Byte) : Byte := setNZ result (setBitTo p .c carryOut)

/-- P as PLP and RTI restore it from a pulled byte (41_stack.md R176, 43_control.md R222): B cleared, U set. -/
def pulledStatus (value : Byte) : Byte := (value &&& ~~~(0x10 : Byte)) ||| 0x20

/-- P as PHP and BRK push it (R175, R223): B and U set. -/
def softwareStatus (p : Byte) : Byte := p ||| 0x30

/-- P as NMI and IRQ entry push it (60_exceptions.md R284, R286): B cleared, U set. -/
def hardwareStatus (p : Byte) : Byte := (p &&& ~~~(0x10 : Byte)) ||| 0x20

end Sys2Proof.Machine
end

