-- ==== Sys2Proof/Machine/Render.lean ====
section
/-! DEFINITION. The frame (61_ppu.md R350 to R356), one pixel at a time: `row` and `col` count tiles, `py` and `px` pixels,
`y` and `x` pixels inside a tile. -/

namespace Sys2Proof.Machine

/-- `PpuRead` at a computed address, which every caller keeps below 0x4000. -/
def ppuReadAt (s : State) (a : Nat) : Byte := ppuRead (BitVec.ofNat 16 a) s

/-- `TilePixel(bank, id, x, y)`: the colour id 0 to 3 (R351). -/
def tilePixel (s : State) (bank : Nat) (id : Byte) (x y : Nat) : Nat :=
  let base := bank + 16 * id.toNat
  ((ppuReadAt s (base + y)).getLsbD (7 - x)).toNat + 2 * ((ppuReadAt s (base + y + 8)).getLsbD (7 - x)).toNat

/-- `AttrPalette(nt, row, col)` (R352). -/
def attrPalette (s : State) (nt row col : Nat) : Nat :=
  let attr := ppuReadAt s (nt + 0x3C0 + row / 4 * 8 + col / 4)
  let q := row / 2 % 2 * 2 + col / 2 % 2
  (attr >>> (2 * q)).toNat % 4

/-- The system-colour index of a palette entry: its low six bits (R350). -/
def colour (s : State) (i : Nat) : BitVec 6 := (paletteByte s i).setWidth 6

/-- The base nametable, the background bank and the sprite bank that Control selects (R350, R353, 10_state.md R36). -/
def baseNametable (ctrl : Byte) : Nat := 0x2000 + 0x400 * (ctrl.toNat % 4)
def backgroundBank (ctrl : Byte) : Nat := 0x1000 * (ctrl.getLsbD 4).toNat
def spriteBank (ctrl : Byte) : Nat := 0x1000 * (ctrl.getLsbD 3).toNat

/-- The background pass at one pixel (R350). -/
def backgroundPixel (s : State) (py px : Nat) : BitVec 6 :=
  let nt := baseNametable s.ppu.ctrl
  let row := py / 8
  let col := px / 8
  let c := tilePixel s (backgroundBank s.ppu.ctrl) (ppuReadAt s (nt + row * 32 + col)) (px % 8) (py % 8)
  if c = 0 then colour s 0 else colour s (4 * attrPalette s nt row col + c)

/-- What sprite `k` paints at one pixel, if anything (R353): nothing outside its 8 x 8 box or where its colour id is 0. -/
def spritePixel (s : State) (k py px : Nat) : Option (BitVec 6) :=
  let top := (oamByte s (4 * k)).toNat
  let id := oamByte s (4 * k + 1)
  let attr := oamByte s (4 * k + 2)
  let left := (oamByte s (4 * k + 3)).toNat
  if top ≤ py ∧ py < top + 8 ∧ left ≤ px ∧ px < left + 8 then
    let x := px - left
    let y := py - top
    let tx := if attr.getLsbD 6 then 7 - x else x
    let ty := if attr.getLsbD 7 then 7 - y else y
    let c := tilePixel s (spriteBank s.ppu.ctrl) id tx ty
    if c = 0 then none else some (colour s (0x10 + 4 * (attr.toNat % 4) + c))
  else none

/-- Sprite `k` painted over a pixel. -/
def paintSprite (s : State) (py px : Nat) (under : BitVec 6) (k : Nat) : BitVec 6 :=
  match spritePixel s k py px with
  | some colour => colour
  | none => under

/-- The sprite slots in the order they are painted, 63 down to 0 (R353). -/
def paintOrder : List Nat := (List.range 64).reverse

/-- One pixel of the frame: the background, then the sprites in paint order (R356). -/
def pixel (s : State) (py px : Nat) : BitVec 6 :=
  paintOrder.foldl (paintSprite s py px) (backgroundPixel s py px)

/-- `RenderFrame()` (R350, R354): 240 rows of 256 pixels. -/
def renderFrame (s : State) : Frame := ⟨(List.range 240).map fun py => (List.range 256).map fun px => pixel s py px⟩

/-- A frame's RGB values by the open system palette (R355). No rule of the core uses it. -/
def frameRgb (f : Frame) : List (List (Byte × Byte × Byte)) := f.rows.map fun row => row.map Config.systemPalette

end Sys2Proof.Machine
end

