-- ==== Sys2Proof/Machine/PpuTick.lean ====
section
/-! DEFINITION. The scanline state machine (61_ppu.md R340 to R346) and the NMI poll (R344). -/

namespace Sys2Proof.Machine

/-- `Sprite0Check(s)`, for the scanline just completed (R345). -/
def sprite0Check (line : Nat) (s : State) : State :=
  if s.ppu.mask.getLsbD 4 = true ∧ s.cfg.sprite0HitPolicy = .lineMatch ∧ line < 240 ∧ line = (oamByte s 0).toNat then
    s.setPpu { s.ppu with spriteHitZero := true }
  else s

/-- `EnterVBlank()` (R342). -/
def enterVBlank (s : State) : State :=
  s.setPpu { s.ppu with
    vblank := true
    spriteHitZero := false
    nmiPending := s.ppu.nmiPending || s.ppu.ctrl.getLsbD 7 }

/-- `EndFrame()` without the frame: the registers it clears (R343). -/
def wrapScanline (s : State) : State :=
  s.setPpu { s.ppu with scanline := 0, vblank := false, spriteHitZero := false, nmiPending := false }

/-- `EndFrame()` (R343). -/
def endFrame (s : State) : State := (wrapScanline s).emit (.frame (renderFrame (wrapScanline s)))

/-- The scanline counter advanced by one. -/
def bumpScanline (s : State) : State := s.setPpu { s.ppu with scanline := s.ppu.scanline + 1 }

/-- The event on reaching a scanline (R341, R346). -/
def reachScanline (s : State) : State :=
  if s.ppu.scanline = 241 then enterVBlank s
  else if s.ppu.scanline = 262 then endFrame s
  else s

/-- `AdvanceScanline()` (R341). -/
def advanceScanline (s : State) : State := reachScanline (bumpScanline (sprite0Check s.ppu.scanline s))

/-- `AdvanceScanline()` a number of times. -/
def advanceScanlines : Nat → State → State
  | 0, s => s
  | n + 1, s => advanceScanlines n (advanceScanline s)

/-- `PPU.tick(n)` (R340): the loop runs once per 341 cycles crossed, and leaves the remainder in the cycle counter, which
nothing inside the loop reads. -/
def ppuTick (n : Nat) (s : State) : State :=
  advanceScanlines ((s.ppu.cycle + 3 * n) / 341)
    (s.setPpu { s.ppu with cycle := (s.ppu.cycle + 3 * n) % 341 })

/-- What `nmiStatus()` does to the PPU: the pending flag is consumed (R344). Its result is the flag before. -/
def consumeNmi (s : State) : State := s.setPpu { s.ppu with nmiPending := false }

end Sys2Proof.Machine
end

