-- ==== Sys2Proof/Machine/Ops.lean ====
section
/-! DEFINITION. The named operations over registers, flags and memory that the meanings share: the stack (41_stack.md R170 to
R173), P, operand fetch (40_addressing_load_store.md R130), taking an interrupt and returning from one (60_exceptions.md R284
to R288), the outcome of a form the opcode map lacks, and the placing of code. -/

namespace Sys2Proof.Machine

/-! The status register. -/

def getFlag (f : Flag) (s : State) : Bool := isBitSet s.p f

def putFlag (f : Flag) (value : Bool) (s : State) : State := s.setP (setBitTo s.p f value)

/-- `setNZ(v)` on the live P (00_scope.md R10). -/
def setNZOf (value : Byte) (s : State) : State := s.setP (setNZ value s.p)

/-- `getCombinedValue()` (10_state.md R35). -/
def getCombinedValue (s : State) : Byte := s.p

/-- `setCombinedValue(v)`: every flag from `v`, without forcing (R35). No instruction does this. -/
def setCombinedValue (value : Byte) (s : State) : State := s.setP value

/-! The stack. -/

/-- The bus address the stack pointer designates, `0x0100 + SP` (R24). -/
def stackAddr (sp : Byte) : Word := 0x0100 + zext16 sp

/-- `Push(v)` (R170). -/
def push (v : Byte) (s : State) : State :=
  let t := memWrite (stackAddr s.sp) v s
  t.setSp (t.sp - 1)

/-- `Pop()` (R171). -/
def pop (s : State) : Byte × State :=
  memRead (stackAddr (s.sp + 1)) (s.setSp (s.sp + 1))

/-- `PushWord(w)`: the high byte first (R172). -/
def pushWord (w : Word) (s : State) : State := push (loByte w) (push (hiByte w) s)

/-- `PopWord()` (R173). -/
def popWord (s : State) : Word × State :=
  let lo := pop s
  let hi := pop lo.2
  (mkWord hi.1 lo.1, hi.2)

/-! Operand fetch. -/

/-- `Fetch()` (R130). -/
def fetch (s : State) : Byte × State :=
  let r := memRead s.pc s
  (r.1, r.2.setPc (s.pc + 1))

/-- `n` bytes fetched in address order. -/
def fetchBytes : Nat → State → List Byte × State
  | 0, s => ([], s)
  | n + 1, s =>
    let b := fetch s
    let rest := fetchBytes n b.2
    (b.1 :: rest.1, rest.2)

/-! Interrupts. -/

/-- The vectors (20_memory.md R75, 60_exceptions.md R287). -/
def nmiVector : Word := 0xFFFA
def resetVector : Word := 0xFFFC
def irqVector : Word := 0xFFFE

/-- Taking an interrupt, the one operation behind NMI entry, IRQ entry and BRK (60_exceptions.md R284, R286, 43_control.md
R223): the return address is pushed, then the status byte, I is set, and PC is loaded from the vector. -/
def enterInterrupt (returnTo : Word) (status : Byte) (vector : Word) (s : State) : State :=
  let r := readWord vector (putFlag .i true (push status (pushWord returnTo s)))
  r.2.setPc r.1

/-- `NmiEntry()` (R284). -/
def nmiEntry (s : State) : State := enterInterrupt s.pc (hardwareStatus s.p) nmiVector s

/-- `IrqEntry()` (R286). -/
def irqEntry (s : State) : State := enterInterrupt s.pc (hardwareStatus s.p) irqVector s

/-- Returning from an interrupt (R288, 43_control.md R222): the status byte is pulled with B cleared and U set, then PC
verbatim. -/
def returnFromInterrupt (s : State) : State :=
  let status := pop s
  let target := popWord (status.2.setP (pulledStatus status.1))
  target.2.setPc target.1

/-- The interrupt poll that begins a tick (30_encoding.md R112, 60_exceptions.md R282, R283): a pending NMI is consumed and
entered; else an asserted IRQ line is, if I is clear. The entry's cost goes to the PPU. -/
def pollInterrupts (s : State) : State :=
  if s.ppu.nmiPending then ppuTick s.cfg.nmiEntryCycles (nmiEntry (consumeNmi s))
  else if s.irqLine && !getFlag .i s then ppuTick s.cfg.nmiEntryCycles (irqEntry s)
  else s

/-! Outcomes. -/

/-- The outcome of an instruction with several forms: the next state if the opcode map has this form, else the decode
defect of 30_encoding.md R108. -/
def ifFormed (i : Instr) (s next : State) : Host.Outcome State Fault Refusal :=
  if i.wellFormed then .next next else .fault (.decodeDefect (.badForm i) s.pc)

/-- The end of a tick (30_encoding.md R112): the cycles are the base cost, the extra cycles and the DMA stall; the stall is
cleared, the PPU advances by the cycles, and the count is what the tick returns. -/
def endTick (base : Nat) (s : State) : State :=
  let cycles := base + s.extra + s.dmaStall
  ppuTick cycles (((s.setExtra 0).setDmaStall 0).setTickCycles cycles)

/-! Placing code, as a loader outside the machine does. -/

/-- Code can be placed at an address: it is memory or PRG. -/
def placeable (bus : BusConfig) (a : Word) : Bool :=
  match ownerOf bus a with
  | some .ram => true
  | some .wram => true
  | some .prg => true
  | some .flat => true
  | _ => false

/-- Puts a byte at an address of memory or PRG. -/
def placeByte (a : Word) (v : Byte) (s : State) : State :=
  match ownerOf s.cfg.bus a with
  | some .ram => s.setRam (s.ram.set (ramIndex a) v)
  | some .wram => s.setWram (s.wram.set (wramIndex a) v)
  | some .flat => s.setFlat (s.flat.set a.toNat v)
  | some .prg => s.setCfg { s.cfg with cart := { s.cfg.cart with
      prg := s.cfg.cart.prg.romSet (prgIndex s.cfg.cart.banks a) v } }
  | _ => s

def placeBytes (a : Word) : List Byte → State → State
  | [], s => s
  | b :: rest, s => placeBytes (a + 1) rest (placeByte a b s)

/-- Where the next instruction's bytes can be placed: PC, if three bytes from it can be placed; else 0x6000, which is work RAM
or flat RAM. -/
def codeAddr (s : State) : Word :=
  if placeable s.cfg.bus s.pc && placeable s.cfg.bus (s.pc + 1) && placeable s.cfg.bus (s.pc + 2) then s.pc else 0x6000

/-- The state with bytes placed where the next tick fetches, and no interrupt waiting to be taken before them. -/
def placeCode (bytes : List Byte) (s : State) : State :=
  placeBytes (codeAddr s) bytes (((consumeNmi s).setIrqLine false).setPc (codeAddr s))

end Sys2Proof.Machine
end

