-- ==== Sys2Proof/Machine/Operands.lean ====
section
/-! DEFINITION. The addressing modes (40_addressing_load_store.md R131 to R145). A meaning runs after its operand bytes have
been fetched (R130), so PC is the address after the instruction and the bytes are the operand's. -/

namespace Sys2Proof.Machine

/-- An effective address, whether indexing crossed a page, and the state after the pointer reads. -/
structure Resolved where
  ea      : Word
  crossed : Bool
  state   : State

/-- The 16-bit pointer at two consecutive zero-page bytes, wrapped in page 0 (R140, R141): the low byte first. -/
def zeroPagePointer (z : Byte) (s : State) : Word × State :=
  let lo := memRead (zext16 z) s
  let hi := memRead (zext16 (z + 1)) lo.2
  (mkWord hi.1 lo.1, hi.2)

/-- An indexed address with its page test (R138, R139, R141). -/
def indexed (base : Word) (index : Byte) (s : State) : Resolved :=
  ⟨base + zext16 index, pageCrossed base (base + zext16 index), s⟩

/-- The effective address of a memory operand (R134 to R141). -/
def resolve (m : MemOperand) (s : State) : Resolved :=
  match m with
  | .zp z => ⟨zext16 z, false, s⟩
  | .zpX z => ⟨zext16 (z + s.x), false, s⟩
  | .zpY z => ⟨zext16 (z + s.y), false, s⟩
  | .abs w => ⟨w, false, s⟩
  | .absX w => indexed w s.x s
  | .absY w => indexed w s.y s
  | .indX z =>
    let p := zeroPagePointer (z + s.x) s
    ⟨p.1, false, p.2⟩
  | .indY z =>
    let p := zeroPagePointer z s
    indexed p.1 s.y p.2

/-- The page-cross cycle of an opcode marked `+` (R144). -/
def payCrossing (r : Resolved) : State := if r.crossed then r.state.setExtra (r.state.extra + 1) else r.state

/-- `ReadM` of a memory operand of a read-only instruction, whose indexed forms are marked `+` (R144, R145). -/
def readMem (m : MemOperand) (s : State) : Byte × State :=
  memRead (resolve m s).ea (payCrossing (resolve m s))

/-- `ReadM` of a read-only instruction (R145): an immediate operand is M itself (R133). -/
def readM (o : ReadOperand) (s : State) : Byte × State :=
  match o with
  | .imm b => (b, s)
  | .mem m => readMem m s

/-- `StoreEA(mode, v)` (R145): no read of the address, and no page-cross cycle (R144). -/
def storeEA (m : MemOperand) (v : Byte) (s : State) : State := memWrite (resolve m s).ea v (resolve m s).state

/-- The operand of a read-modify-write instruction: one read, no page-cross cycle (R144, 20_memory.md R87). -/
def modifyRead (m : MemOperand) (s : State) : Byte × State := memRead (resolve m s).ea (resolve m s).state

/-- A read-modify-write of memory: one read, then one write to the same address (R145, 20_memory.md R87). The result is a
function of the byte read. -/
def modifyMem (m : MemOperand) (f : Byte → Byte) (s : State) : State :=
  memWrite (resolve m s).ea (f (modifyRead m s).1) (modifyRead m s).2

/-- The pointer of JMP indirect: its high byte comes from the same page (R143). -/
def jumpPointer (ptr : Word) (s : State) : Word × State :=
  let lo := memRead ptr s
  let hi := memRead (mkWord (hiByte ptr) (loByte ptr + 1)) lo.2
  (mkWord hi.1 lo.1, hi.2)

/-- The target of JMP (R137, R143, 43_control.md R219). -/
def jumpTarget (o : JumpOperand) (s : State) : Word × State :=
  match o with
  | .abs w => (w, s)
  | .ind ptr => jumpPointer ptr s

/-- The target of a branch (R142): PC is already the address of the next instruction. -/
def branchTarget (rel8 : Byte) (s : State) : Word := s.pc + sext16 rel8

/-- `Branch(cond)` (43_control.md R210). -/
def branch (rel8 : Byte) (taken : Bool) (s : State) : State :=
  if taken then
    (s.setExtra (s.extra + 1 + (pageCrossed s.pc (branchTarget rel8 s)).toNat)).setPc (branchTarget rel8 s)
  else s

/-- The byte an unstable store writes: `value & (hi(base) + 1)` (44_undocumented.md R262). -/
def unstableByte (base : Word) (value : Byte) : Byte := value &&& (hiByte base + 1)

/-- The address an unstable store writes to: on a page cross its high byte is the stored byte (R262). -/
def unstableAddr (base : Word) (index value : Byte) : Word :=
  if pageCrossed base (base + zext16 index) then mkWord (unstableByte base value) (loByte (base + zext16 index))
  else base + zext16 index

/-- `UnstableStore(base, index, value)` (R262). -/
def unstableStore (base : Word) (index value : Byte) (s : State) : State :=
  memWrite (unstableAddr base index value) (unstableByte base value) s

end Sys2Proof.Machine
end

