-- ==== Sys2Proof/Machine/Alu.lean ====
section
/-! DEFINITION. Arithmetic, logic, compare, increment and shift: 42_alu.md R180 to R200. -/

namespace Sys2Proof.Machine

/-! Arithmetic and logic. -/

/-- `A <- AddCore(A, m, P.C)` (R199). -/
def addToA (m : Byte) (s : State) : State :=
  (s.setA (addResult s.a m (getFlag .c s))).setP (addFlags s.a m (getFlag .c s) s.p)

/-- A takes a value, and N and Z follow it. -/
def resultToA (v : Byte) (s : State) : State := setNZOf v (s.setA v)

/-- ADC; D has no effect (R180). -/
def execAdc (o : ReadOperand) (s : State) : Host.Outcome State Fault Refusal :=
  ifFormed (.adc o) s (addToA (readM o s).1 (readM o s).2)

/-- SBC: the sum with the complemented operand (R181). -/
def execSbc (o : ReadOperand) (s : State) : Host.Outcome State Fault Refusal :=
  ifFormed (.sbc o) s (addToA (~~~(readM o s).1) (readM o s).2)

/-- AND (R182). -/
def execAnd (o : ReadOperand) (s : State) : Host.Outcome State Fault Refusal :=
  ifFormed (.and o) s (resultToA (s.a &&& (readM o s).1) (readM o s).2)

/-- ORA (R183). -/
def execOra (o : ReadOperand) (s : State) : Host.Outcome State Fault Refusal :=
  ifFormed (.ora o) s (resultToA (s.a ||| (readM o s).1) (readM o s).2)

/-- EOR (R184). -/
def execEor (o : ReadOperand) (s : State) : Host.Outcome State Fault Refusal :=
  ifFormed (.eor o) s (resultToA (s.a ^^^ (readM o s).1) (readM o s).2)

/-- The flags of BIT: Z from `A & M`, N and V from bits 7 and 6 of M (R185, 90_conflicts.md C6). -/
def bitFlags (a m p : Byte) : Byte :=
  setBitTo (setBitTo (setBitTo p .z (a &&& m == 0)) .n (m.getLsbD 7)) .v (m.getLsbD 6)

/-- BIT (R185). -/
def execBit (m : MemOperand) (s : State) : Host.Outcome State Fault Refusal :=
  ifFormed (.bit m) s ((readMem m s).2.setP (bitFlags s.a (readMem m s).1 s.p))

/-! Compare. -/

/-- CMP (R186). -/
def execCmp (o : ReadOperand) (s : State) : Host.Outcome State Fault Refusal :=
  ifFormed (.cmp o) s ((readM o s).2.setP (compareFlags s.a (readM o s).1 s.p))

/-- CPX (R187). -/
def execCpx (o : ReadOperand) (s : State) : Host.Outcome State Fault Refusal :=
  ifFormed (.cpx o) s ((readM o s).2.setP (compareFlags s.x (readM o s).1 s.p))

/-- CPY (R188). -/
def execCpy (o : ReadOperand) (s : State) : Host.Outcome State Fault Refusal :=
  ifFormed (.cpy o) s ((readM o s).2.setP (compareFlags s.y (readM o s).1 s.p))

/-! Increment and decrement. -/

/-- INC (R189). -/
def execInc (m : MemOperand) (s : State) : Host.Outcome State Fault Refusal :=
  ifFormed (.inc m) s (setNZOf ((modifyRead m s).1 + 1) (modifyMem m (· + 1) s))

/-- DEC (R190). -/
def execDec (m : MemOperand) (s : State) : Host.Outcome State Fault Refusal :=
  ifFormed (.dec m) s (setNZOf ((modifyRead m s).1 - 1) (modifyMem m (· - 1) s))

/-- INX (R191). -/
def execInx (s : State) : Host.Outcome State Fault Refusal := .next (setNZOf (s.x + 1) (s.setX (s.x + 1)))

/-- INY (R192). -/
def execIny (s : State) : Host.Outcome State Fault Refusal := .next (setNZOf (s.y + 1) (s.setY (s.y + 1)))

/-- DEX (R193). -/
def execDex (s : State) : Host.Outcome State Fault Refusal := .next (setNZOf (s.x - 1) (s.setX (s.x - 1)))

/-- DEY (R194). -/
def execDey (s : State) : Host.Outcome State Fault Refusal := .next (setNZOf (s.y - 1) (s.setY (s.y - 1)))

/-! Shifts and rotates. -/

/-- The result of each, of the operand byte and the carry in (R195 to R198). -/
def aslByte (m : Byte) : Byte := m <<< 1
def lsrByte (m : Byte) : Byte := m >>> 1
def rolByte (carry : Bool) (m : Byte) : Byte := (m <<< 1) ||| bitByte carry
def rorByte (carry : Bool) (m : Byte) : Byte := (m >>> 1) ||| (bitByte carry <<< 7)

/-- A shift or rotate of the accumulator or of memory: the operand is read once and the result written back once (R132,
20_memory.md R87); C takes bit `out` of the operand. -/
def shiftOperand (o : ShiftOperand) (f : Byte → Byte) (out : Nat) (s : State) : State :=
  match o with
  | .acc => (s.setA (f s.a)).setP (shiftFlags (s.a.getLsbD out) (f s.a) s.p)
  | .mem m => (modifyMem m f s).setP (shiftFlags ((modifyRead m s).1.getLsbD out) (f (modifyRead m s).1) s.p)

/-- ASL (R195). -/
def execAsl (o : ShiftOperand) (s : State) : Host.Outcome State Fault Refusal :=
  ifFormed (.asl o) s (shiftOperand o aslByte 7 s)

/-- LSR (R196). -/
def execLsr (o : ShiftOperand) (s : State) : Host.Outcome State Fault Refusal :=
  ifFormed (.lsr o) s (shiftOperand o lsrByte 0 s)

/-- ROL (R197). -/
def execRol (o : ShiftOperand) (s : State) : Host.Outcome State Fault Refusal :=
  ifFormed (.rol o) s (shiftOperand o (rolByte (getFlag .c s)) 7 s)

/-- ROR (R198). -/
def execRor (o : ShiftOperand) (s : State) : Host.Outcome State Fault Refusal :=
  ifFormed (.ror o) s (shiftOperand o (rorByte (getFlag .c s)) 0 s)

end Sys2Proof.Machine
end

