-- ==== Sys2Proof/Machine/Control.lean ====
section
/-! DEFINITION. Control transfer, flag instructions and NOP: 43_control.md R210 to R231. -/

namespace Sys2Proof.Machine

/-! Branches (R210). -/

/-- BPL: taken if N is clear (R211). -/
def execBpl (rel8 : Byte) (s : State) : Host.Outcome State Fault Refusal := .next (branch rel8 (!getFlag .n s) s)

/-- BMI: taken if N is set (R212). -/
def execBmi (rel8 : Byte) (s : State) : Host.Outcome State Fault Refusal := .next (branch rel8 (getFlag .n s) s)

/-- BVC: taken if V is clear (R213). -/
def execBvc (rel8 : Byte) (s : State) : Host.Outcome State Fault Refusal := .next (branch rel8 (!getFlag .v s) s)

/-- BVS: taken if V is set (R214). -/
def execBvs (rel8 : Byte) (s : State) : Host.Outcome State Fault Refusal := .next (branch rel8 (getFlag .v s) s)

/-- BCC: taken if C is clear (R215). -/
def execBcc (rel8 : Byte) (s : State) : Host.Outcome State Fault Refusal := .next (branch rel8 (!getFlag .c s) s)

/-- BCS: taken if C is set (R216). -/
def execBcs (rel8 : Byte) (s : State) : Host.Outcome State Fault Refusal := .next (branch rel8 (getFlag .c s) s)

/-- BNE: taken if Z is clear (R217). -/
def execBne (rel8 : Byte) (s : State) : Host.Outcome State Fault Refusal := .next (branch rel8 (!getFlag .z s) s)

/-- BEQ: taken if Z is set (R218). -/
def execBeq (rel8 : Byte) (s : State) : Host.Outcome State Fault Refusal := .next (branch rel8 (getFlag .z s) s)

/-! Jumps, calls and returns. -/

/-- JMP (R219). -/
def execJmp (o : JumpOperand) (s : State) : Host.Outcome State Fault Refusal := .next ((jumpTarget o s).2.setPc (jumpTarget o s).1)

/-- JSR: pushes the address of its own last byte (R220). -/
def execJsr (target : Word) (s : State) : Host.Outcome State Fault Refusal := .next ((pushWord (s.pc - 1) s).setPc target)

/-- RTS (R221). -/
def execRts (s : State) : Host.Outcome State Fault Refusal := .next ((popWord s).2.setPc ((popWord s).1 + 1))

/-- RTI (R222). -/
def execRti (s : State) : Host.Outcome State Fault Refusal := .next (returnFromInterrupt s)

/-- BRK: the software interrupt, whose return address skips the byte after the opcode (R223). -/
def execBrk (s : State) : Host.Outcome State Fault Refusal := .next (enterInterrupt (s.pc + 1) (softwareStatus s.p) irqVector s)

/-! Flag instructions and NOP. -/

/-- CLC (R224). -/
def execClc (s : State) : Host.Outcome State Fault Refusal := .next (putFlag .c false s)

/-- SEC (R225). -/
def execSec (s : State) : Host.Outcome State Fault Refusal := .next (putFlag .c true s)

/-- CLI (R226). -/
def execCli (s : State) : Host.Outcome State Fault Refusal := .next (putFlag .i false s)

/-- SEI (R227). -/
def execSei (s : State) : Host.Outcome State Fault Refusal := .next (putFlag .i true s)

/-- CLD (R228). -/
def execCld (s : State) : Host.Outcome State Fault Refusal := .next (putFlag .d false s)

/-- SED (R229). -/
def execSed (s : State) : Host.Outcome State Fault Refusal := .next (putFlag .d true s)

/-- CLV (R230). -/
def execClv (s : State) : Host.Outcome State Fault Refusal := .next (putFlag .v false s)

/-- NOP, the official one (R231). -/
def execNop (s : State) : Host.Outcome State Fault Refusal := .next s

end Sys2Proof.Machine
end

