-- ==== Sys2Proof/Machine/Load.lean ====
section
/-! DEFINITION. Loads, stores and register transfers: 40_addressing_load_store.md R146 to R157. -/

namespace Sys2Proof.Machine

/-! Loads. -/

/-- LDA (R146). -/
def execLda (o : ReadOperand) (s : State) : Host.Outcome State Fault Refusal :=
  ifFormed (.lda o) s (setNZOf (readM o s).1 ((readM o s).2.setA (readM o s).1))

/-- LDX (R147). -/
def execLdx (o : ReadOperand) (s : State) : Host.Outcome State Fault Refusal :=
  ifFormed (.ldx o) s (setNZOf (readM o s).1 ((readM o s).2.setX (readM o s).1))

/-- LDY (R148). -/
def execLdy (o : ReadOperand) (s : State) : Host.Outcome State Fault Refusal :=
  ifFormed (.ldy o) s (setNZOf (readM o s).1 ((readM o s).2.setY (readM o s).1))

/-! Stores: no flag is written (90_conflicts.md C6). -/

/-- STA (R149). -/
def execSta (m : MemOperand) (s : State) : Host.Outcome State Fault Refusal := ifFormed (.sta m) s (storeEA m s.a s)

/-- STX (R150). -/
def execStx (m : MemOperand) (s : State) : Host.Outcome State Fault Refusal := ifFormed (.stx m) s (storeEA m s.x s)

/-- STY (R151). -/
def execSty (m : MemOperand) (s : State) : Host.Outcome State Fault Refusal := ifFormed (.sty m) s (storeEA m s.y s)

/-! Transfers. -/

/-- TAX (R152). -/
def execTax (s : State) : Host.Outcome State Fault Refusal := .next (setNZOf s.a (s.setX s.a))

/-- TAY (R153). -/
def execTay (s : State) : Host.Outcome State Fault Refusal := .next (setNZOf s.a (s.setY s.a))

/-- TXA (R154). -/
def execTxa (s : State) : Host.Outcome State Fault Refusal := .next (setNZOf s.x (s.setA s.x))

/-- TYA (R155). -/
def execTya (s : State) : Host.Outcome State Fault Refusal := .next (setNZOf s.y (s.setA s.y))

/-- TSX (R156). -/
def execTsx (s : State) : Host.Outcome State Fault Refusal := .next (setNZOf s.sp (s.setX s.sp))

/-- TXS, the one transfer that sets no flag (R157). -/
def execTxs (s : State) : Host.Outcome State Fault Refusal := .next (s.setSp s.x)

end Sys2Proof.Machine
end

