-- ==== Sys2Proof/Machine/Stack.lean ====
section
/-! DEFINITION. The stack instructions: 41_stack.md R174 to R177. -/

namespace Sys2Proof.Machine

/-- PHA (R174). -/
def execPha (s : State) : Host.Outcome State Fault Refusal := .next (push s.a s)

/-- PHP: the pushed byte has B and U set (R175). -/
def execPhp (s : State) : Host.Outcome State Fault Refusal := .next (push (softwareStatus s.p) s)

/-- PLP: every flag from the pulled byte, then B cleared and U set (R176). -/
def execPlp (s : State) : Host.Outcome State Fault Refusal := .next ((pop s).2.setP (pulledStatus (pop s).1))

/-- PLA (R177). -/
def execPla (s : State) : Host.Outcome State Fault Refusal := .next (setNZOf (pop s).1 ((pop s).2.setA (pop s).1))

end Sys2Proof.Machine
end

