-- ==== Sys2Proof/Machine/Undocumented.lean ====
section
/-! DEFINITION. Undocumented opcodes and JAM: 44_undocumented.md R240 to R270. -/

namespace Sys2Proof.Machine

/-! Read-modify-write combinations: one read and one write of M, then the second operation on A (R240). -/

/-- SLO: shift left, then OR into A (R241). -/
def execSlo (m : MemOperand) (s : State) : Host.Outcome State Fault Refusal :=
  ifFormed (.slo m) s
    (resultToA (s.a ||| aslByte (modifyRead m s).1)
      (putFlag .c ((modifyRead m s).1.getLsbD 7) (modifyMem m aslByte s)))

/-- RLA: rotate left, then AND into A (R242). -/
def execRla (m : MemOperand) (s : State) : Host.Outcome State Fault Refusal :=
  ifFormed (.rla m) s
    (resultToA (s.a &&& rolByte (getFlag .c s) (modifyRead m s).1)
      (putFlag .c ((modifyRead m s).1.getLsbD 7) (modifyMem m (rolByte (getFlag .c s)) s)))

/-- SRE: shift right, then EOR into A (R243). -/
def execSre (m : MemOperand) (s : State) : Host.Outcome State Fault Refusal :=
  ifFormed (.sre m) s
    (resultToA (s.a ^^^ lsrByte (modifyRead m s).1)
      (putFlag .c ((modifyRead m s).1.getLsbD 0) (modifyMem m lsrByte s)))

/-- RRA: rotate right, then add with the bit rotated out as the carry (R244). -/
def execRra (m : MemOperand) (s : State) : Host.Outcome State Fault Refusal :=
  ifFormed (.rra m) s
    (addToA (rorByte (getFlag .c s) (modifyRead m s).1)
      (putFlag .c ((modifyRead m s).1.getLsbD 0) (modifyMem m (rorByte (getFlag .c s)) s)))

/-- DCP: decrement, then compare with A (R245). -/
def execDcp (m : MemOperand) (s : State) : Host.Outcome State Fault Refusal :=
  ifFormed (.dcp m) s
    ((modifyMem m (· - 1) s).setP (compareFlags s.a ((modifyRead m s).1 - 1) s.p))

/-- ISC: increment, then subtract with borrow (R246). -/
def execIsc (m : MemOperand) (s : State) : Host.Outcome State Fault Refusal :=
  ifFormed (.isc m) s (addToA (~~~((modifyRead m s).1 + 1)) (modifyMem m (· + 1) s))

/-! Combined loads and stores. -/

/-- SAX (R247). -/
def execSax (m : MemOperand) (s : State) : Host.Outcome State Fault Refusal := ifFormed (.sax m) s (storeEA m (s.a &&& s.x) s)

/-- LAX (R248). -/
def execLax (m : MemOperand) (s : State) : Host.Outcome State Fault Refusal :=
  ifFormed (.lax m) s (setNZOf (readMem m s).1 (((readMem m s).2.setA (readMem m s).1).setX (readMem m s).1))

/-- The value LAS gives A, X and SP: `M & SP` (R255). -/
def lasByte (base : Word) (s : State) : Byte := (readMem (.absY base) s).1 &&& s.sp

/-- LAS (R255). -/
def execLas (base : Word) (s : State) : Host.Outcome State Fault Refusal :=
  .next (setNZOf (lasByte base s)
    ((((readMem (.absY base) s).2.setA (lasByte base s)).setX (lasByte base s)).setSp (lasByte base s)))

/-! Immediate combinations. -/

/-- ANC: AND, then C from bit 7 (R249). Its two opcode bytes do the same. -/
def execAnc (opcode imm8 : Byte) (s : State) : Host.Outcome State Fault Refusal :=
  ifFormed (.anc opcode imm8) s (putFlag .c ((s.a &&& imm8).getLsbD 7) (resultToA (s.a &&& imm8) s))

/-- ALR: AND, then a logical shift right (R250). -/
def execAlr (imm8 : Byte) (s : State) : Host.Outcome State Fault Refusal :=
  .next (resultToA (lsrByte (s.a &&& imm8)) (putFlag .c ((s.a &&& imm8).getLsbD 0) s))

/-- The result of ARR: AND, then a rotate right (R251). -/
def arrByte (imm8 : Byte) (s : State) : Byte := rorByte (getFlag .c s) (s.a &&& imm8)

/-- ARR: C is bit 6 of the result, V is bit 6 XOR bit 5 (R251). -/
def execArr (imm8 : Byte) (s : State) : Host.Outcome State Fault Refusal :=
  .next (putFlag .v ((arrByte imm8 s).getLsbD 6 ^^ (arrByte imm8 s).getLsbD 5)
    (putFlag .c ((arrByte imm8 s).getLsbD 6) (resultToA (arrByte imm8 s) s)))

/-- ANE, with the parameter `aneMagic` (R252). -/
def execAne (imm8 : Byte) (s : State) : Host.Outcome State Fault Refusal :=
  .next (resultToA ((s.a ||| s.cfg.aneMagic) &&& s.x &&& imm8) s)

/-- LXA, with the parameter `lxaMagic` (R253). -/
def execLxa (imm8 : Byte) (s : State) : Host.Outcome State Fault Refusal :=
  .next (resultToA ((s.a ||| s.cfg.lxaMagic) &&& imm8) (s.setX ((s.a ||| s.cfg.lxaMagic) &&& imm8)))

/-- SBX: X takes `(A & X) - M`, C as a compare, V unchanged (R254). -/
def execSbx (imm8 : Byte) (s : State) : Host.Outcome State Fault Refusal :=
  .next ((s.setX ((s.a &&& s.x) - imm8)).setP
    (setNZ ((s.a &&& s.x) - imm8) (setBitTo s.p .c (decide (imm8.toNat ≤ (s.a &&& s.x).toNat)))))

/-- USBC: SBC immediate under a second opcode (R260). -/
def execUsbc (imm8 : Byte) (s : State) : Host.Outcome State Fault Refusal := .next (addToA (~~~imm8) s)

/-! Unstable high-byte stores (R262). -/

/-- The base of SHA, and the state after its pointer reads: the operand, or the zero-page pointer (R256). -/
def shaBase (m : MemOperand) (s : State) : Word × State :=
  match m with
  | .indY z => zeroPagePointer z s
  | .absY w => (w, s)
  | m => ((resolve m s).ea, (resolve m s).state)

/-- SHA (R256). -/
def execSha (m : MemOperand) (s : State) : Host.Outcome State Fault Refusal :=
  ifFormed (.sha m) s (unstableStore (shaBase m s).1 s.y (s.a &&& s.x) (shaBase m s).2)

/-- SHX (R257). -/
def execShx (base : Word) (s : State) : Host.Outcome State Fault Refusal := .next (unstableStore base s.y s.x s)

/-- SHY (R258). -/
def execShy (base : Word) (s : State) : Host.Outcome State Fault Refusal := .next (unstableStore base s.x s.y s)

/-- TAS (R259). -/
def execTas (base : Word) (s : State) : Host.Outcome State Fault Refusal :=
  .next (unstableStore base s.y (s.a &&& s.x) (s.setSp (s.a &&& s.x)))

/-! Undocumented NOPs and JAM. -/

/-- What an undocumented NOP does: its memory forms perform their operand read and pay its page-cross cycle (R261). -/
def nopEffect (o : NopOperand) (s : State) : State :=
  match o with
  | .implied => s
  | .imm _ => s
  | .mem m => (readMem m s).2

/-- The undocumented NOPs (R261). -/
def execNopU (opcode : Byte) (o : NopOperand) (s : State) : Host.Outcome State Fault Refusal := ifFormed (.nopU opcode o) s (nopEffect o s)

/-- JAM: PC is the opcode's address again (R270). -/
def execJam (opcode : Byte) (s : State) : Host.Outcome State Fault Refusal := ifFormed (.jam opcode) s (s.setPc (s.pc - 1))

end Sys2Proof.Machine
end

