-- ==== Sys2Proof/Machine/Tick.lean ====
section
/-! DEFINITION. The parts of a tick (30_encoding.md R112): the fetch, the state it starts from, and its execution. -/

namespace Sys2Proof.Machine

/-- Fetches an instruction (R112, 40_addressing_load_store.md R130): the opcode byte, then as many operand bytes as it asks
for, all through the bus. Gives the opcode, what the decoder reads, and the state with PC after the instruction. -/
def fetchInstr (s : State) : Byte × Except DecodeError (Instr × List Byte) × State :=
  let op := fetch s
  let operands := fetchBytes (operandCount op.1) op.2
  (op.1, decode (op.1 :: operands.1), operands.2)

/-- The state in which a tick fetches: interrupts polled, no extra cycles yet (R112). -/
def tickStart (s : State) : State := (pollInterrupts s).setExtra 0

/-- Executes what was fetched and ends the tick. -/
def runFetched (f : Byte × Except DecodeError (Instr × List Byte) × State) : Host.Outcome State Fault Refusal :=
  match f.2.1 with
  | .error e => .fault (.decodeDefect (.badBytes e) f.2.2.pc)
  | .ok (i, _) =>
    match exec i f.2.2 with
    | .next t => .next (endTick (baseCycles f.1) t)
    | .fault r => .fault r
    | .refused r => .refused r

end Sys2Proof.Machine
end

