-- ==== Sys2Proof/Machine/Step.lean ====
section
/-! DEFINITION. The step: one `CPU.tick()` (30_encoding.md R112). -/

namespace Sys2Proof.Machine

/-- `CPU.tick()` (R112). -/
def step (s : State) : Host.Outcome State Fault Refusal := runFetched (fetchInstr (tickStart s))

/-- The state with the instruction of a table word where the next step fetches; `placeCode` says where that is. -/
def State.withFetchWord (s : State) (nbits w : Nat) : State := placeCode (tableBytes nbits w) s

end Sys2Proof.Machine
end

