-- ==== Sys2Proof/Machine/Reset.lean ====
section
/-! DEFINITION. Power-on, and how a program comes to run (70_reset_and_hazards.md R400, 62_devices.md R384). -/

namespace Sys2Proof.Machine

/-- `loadProgramCounter()`: `PC <- ReadWord(0xFFFC)`, with no cycles and no PPU advance (R400 step 4). -/
def loadProgramCounter (s : State) : State := (readWord resetVector s).2.setPc (readWord resetVector s).1

/-- The machine after reset, for a run's parameters (R400 steps 1 to 4). -/
def State.boot (cfg : RunConfig) : State := loadProgramCounter (State.powerOn cfg)

/-- A cartridge image loaded and booted with the default parameters, or the image refused (R293, R384). -/
def State.bootImage (image : List Byte) : Host.Outcome State Fault Refusal :=
  match loadImage image with
  | .error kind => .refused (.romFormat kind)
  | .ok cart => .next (State.boot (RunConfig.ofCart cart))

end Sys2Proof.Machine
end

