-- ==== Sys2Proof/Machine/Run.lean ====
section
/-! DEFINITION. Runs of ticks, as the host makes them (30_encoding.md R114, R115). -/

namespace Sys2Proof.Machine

def Event.isFrame : Event → Bool
  | .frame _ => true
  | .diag _ _ => false
  | .portWrite _ _ => false
  | .portRead _ _ => false

/-- The events a tick has added to a history. -/
def newEvents (before after : State) : List Event := after.events.drop before.events.length

/-- The tick from `before` to `after` emitted a frame. -/
def emittedFrame (before after : State) : Bool := (newEvents before after).any Event.isFrame

/-- One host step: ticks until one emits a frame (R114), at most `fuel` of them. None if that many were not enough. -/
def hostStep : Nat → State → Option (Host.Outcome State Fault Refusal)
  | 0, _ => none
  | fuel + 1, s =>
    match step s with
    | .next t => if emittedFrame s t then some (.next t) else hostStep fuel t
    | .fault r => some (.fault r)
    | .refused r => some (.refused r)

def Instr.isJam : Instr → Bool
  | .jam _ => true
  | _ => false

/-- The next tick's instruction is a JAM. -/
def jamsNext (s : State) : Bool :=
  match (fetchInstr (tickStart s)).2.1 with
  | .ok (i, _) => Instr.isJam i
  | .error _ => false

/-- A run to its end: the completion of the first tick whose instruction is a JAM (R115), at most `fuel` ticks. None if that
many were not enough. -/
def runToEnd : Nat → State → Option (Host.Outcome State Fault Refusal)
  | 0, _ => none
  | fuel + 1, s =>
    match step s with
    | .next t => if jamsNext s then some (.next t) else runToEnd fuel t
    | .fault r => some (.fault r)
    | .refused r => some (.refused r)

end Sys2Proof.Machine
end

