-- ==== Sys2Proof/Safety.lean ====
section
/-! DEFINITION. The terms claims are stated in: what is kept, what a read may change, the invariant of every step, and the
spec's own classes and tables that a statement compares the machine with. -/

namespace Sys2Proof.Machine

/-! Kept parts. A frame is written as an equation `t = (s with the fields that may differ, each set to t's)`. -/

/-- N and Z of `q` follow a value (00_scope.md R10), and the six other flags are those of `p`. -/
def NZFrom (v p q : Byte) : Prop :=
  isBitSet q .n = v.getLsbD 7 ∧ isBitSet q .z = decide (v = 0) ∧
    ∀ f, f ≠ .n → f ≠ .z → isBitSet q f = isBitSet p f

/-- N and Z of `q` follow a value, C is `c`, and the five other flags are those of `p`. -/
def NZCFrom (v : Byte) (c : Bool) (p q : Byte) : Prop :=
  isBitSet q .n = v.getLsbD 7 ∧ isBitSet q .z = decide (v = 0) ∧ isBitSet q .c = c ∧
    ∀ f, f ≠ .n → f ≠ .z → f ≠ .c → isBitSet q f = isBitSet p f

/-- Every flag outside a list is that of `p`. -/
def FlagsKept (but : List Flag) (p q : Byte) : Prop := ∀ f, f ∉ but → isBitSet q f = isBitSet p f

/-- Every byte of memory on the CPU bus reads as before. -/
def MemoryKept (s t : State) : Prop := ∀ a, peek a t = peek a s

/-- Every byte of memory on the CPU bus reads as before, but the byte (with its mirrors) that the address `w` reaches. If `w`
reaches none, every byte does. -/
def MemoryKeptBut (w : Word) (s t : State) : Prop :=
  ∀ a, cellOf s.cfg.bus a = none ∨ cellOf s.cfg.bus a ≠ cellOf s.cfg.bus w → peek a t = peek a s

/-- Every byte of memory on the CPU bus reads as before, but the bytes that some addresses reach. -/
def MemoryKeptButAll (ws : List Word) (s t : State) : Prop :=
  ∀ a, cellOf s.cfg.bus a = none ∨ (∀ w ∈ ws, cellOf s.cfg.bus a ≠ cellOf s.cfg.bus w) → peek a t = peek a s

/-- The PPU's three memories are as before. -/
def PpuMemoryKept (s t : State) : Prop :=
  t.ppu.vram = s.ppu.vram ∧ t.ppu.oam = s.ppu.oam ∧ t.ppu.palette = s.ppu.palette

/-- What a bus read may change (20_memory.md R76): the VBlank bit, the two latches, `PPU.v`, the read buffer, the event
history and the oracle's choice counter. Everything else is as before. -/
def ReadEffect (s t : State) : Prop :=
  t = { s with
    ppu := { s.ppu with
      vblank := t.ppu.vblank, addrLatch := t.ppu.addrLatch, scrollLatch := t.ppu.scrollLatch, v := t.ppu.v,
      buffer := t.ppu.buffer }
    events := t.events, reads := t.reads }

/-- What a bus write may change: the memories, the PPU's registers and memories (but not Mask's readers' flags or the
counters), the DMA stall, and, through the reads of an OAM DMA, the history and the oracle's counter. The CPU's registers,
the cycle accounts, the IRQ line, the configuration and the PPU's time stay. -/
def WriteEffect (s t : State) : Prop :=
  t = { s with
    ppu := { t.ppu with
      cycle := s.ppu.cycle, scanline := s.ppu.scanline, spriteHitZero := s.ppu.spriteHitZero,
      spriteOverflow := s.ppu.spriteOverflow }
    ram := t.ram, wram := t.wram, flat := t.flat, dmaStall := t.dmaStall, events := t.events, reads := t.reads }

/-- What the passing of PPU time may change (61_ppu.md R340 to R346): the counters, VBlank, SpriteHitZero, the pending NMI,
and the event history. -/
def TimeEffect (s t : State) : Prop :=
  t = { s with
    ppu := { s.ppu with
      cycle := t.ppu.cycle, scanline := t.ppu.scanline, vblank := t.ppu.vblank, spriteHitZero := t.ppu.spriteHitZero,
      nmiPending := t.ppu.nmiPending }
    events := t.events }

/-- Reading an operand (40_addressing_load_store.md R145) changes the page-cross account and what a bus read may: no register,
no flag, no byte of memory. -/
def OperandReadKept (o : ReadOperand) (s : State) : Prop :=
  ReadEffect (s.setExtra (readM o s).2.extra) (readM o s).2 ∧ MemoryKept s (readM o s).2 ∧ PpuMemoryKept s (readM o s).2

/-- `u` is `s` after a store of `v` to the address `w`: the bus write, within what a write may change; if `w` reaches a byte of
memory it holds `v`; every other byte of memory is as before. -/
def StoredAt (w : Word) (v : Byte) (s u : State) : Prop :=
  u = memWrite w v s ∧ WriteEffect s u ∧ MemoryKeptBut w s u ∧
    (cellOf s.cfg.bus w ≠ none → peek w u = some v ∧ u.ppu = s.ppu ∧ u.events = s.events ∧ u.dmaStall = s.dmaStall)

/-- `u` is `s` after a read-modify-write of the operand's address by `f` (20_memory.md R87): one read, one write of `f` of the
byte read; if the address is a byte of memory it holds that result; every other byte of memory is as before. -/
def ModifiedAt (w : Word) (f : Byte → Byte) (s u : State) : Prop :=
  u = memWrite w (f (memRead w s).1) (memRead w s).2 ∧ WriteEffect s u ∧ MemoryKeptBut w s u ∧
    (cellOf s.cfg.bus w ≠ none → peek w s = some (memRead w s).1 ∧ peek w u = some (f (memRead w s).1) ∧
      u.ppu = s.ppu ∧ u.events = s.events)

/-- `u` is `s` after `UnstableStore(base, index, value)` (44_undocumented.md R262). -/
def UnstableStored (base : Word) (index value : Byte) (s u : State) : Prop :=
  let v := value &&& (hiByte base + 1)
  let ea := base + zext16 index
  StoredAt (if hiByte base = hiByte ea then ea else mkWord v (loByte ea)) v s u

/-! The invariant. -/

/-- Every memory is in its canonical form. -/
def memoriesWf (s : State) : Bool :=
  s.ram.wf 0x800 && s.wram.wf 0x2000 && s.flat.wf 0x10000 && s.ppu.vram.wf 0x800 && s.ppu.oam.wf 0x100 &&
    s.ppu.palette.wf 0x20

/-- The invariant of the machine between ticks. `v`: 10_state.md R40. `cycle`: R43. `scanline`: R44. `vblank`: VBlank is 1
only from scanline 241 to 261 (61_ppu.md R346). `hit`: SpriteHitZero only up to scanline 240 (R342, R345). `pending`: an
NMI waits only in VBlank (R312, R342, R343). `overflow`: nothing sets it (R38). `status`: U is 1 and B is 0 (R31, R32).
`stall`, `extra`: nothing is owed (R52; 30_encoding.md R112). `irq`: no device drives it (60_exceptions.md R286). -/
structure Inv (s : State) : Prop where
  v        : s.ppu.v.toNat ≤ 0x3FFF
  cycle    : s.ppu.cycle < 341
  scanline : s.ppu.scanline < 262
  vblank   : s.ppu.vblank = true → 241 ≤ s.ppu.scanline
  hit      : s.ppu.spriteHitZero = true → s.ppu.scanline ≤ 240
  pending  : s.ppu.nmiPending = true → 241 ≤ s.ppu.scanline
  overflow : s.ppu.spriteOverflow = false
  status   : isBitSet s.p .u = true ∧ isBitSet s.p .b = false
  stall    : s.dmaStall = 0
  extra    : s.extra = 0
  irq      : s.irqLine = false
  memories : memoriesWf s = true

/-! Time. -/

/-- The PPU cycles since the frame began. -/
def ppuTime (s : State) : Nat := s.ppu.scanline * 341 + s.ppu.cycle

/-- The PPU cycles of a frame, 262 x 341 (61_ppu.md R346). -/
def frameTime : Nat := 262 * 341

/-- The CPU cycles of PPU time that the interrupt poll of a tick adds (60_exceptions.md R284, R286). -/
def entryCycles (s : State) : Nat :=
  if s.ppu.nmiPending || (s.irqLine && !isBitSet s.p .i) then s.cfg.nmiEntryCycles else 0

/-- How many frames a history holds. -/
def frameCount (events : List Event) : Nat := (events.filter Event.isFrame).length

/-! The classes and the cost table of the opcode map. -/

/-- 30_encoding.md R104. -/
inductive OpcodeClass where
  | official | undocumented | jam
  deriving DecidableEq, Repr

/-- The class of an instruction: the undocumented ones are those of 44_undocumented.md. -/
def classOf : Instr → OpcodeClass
  | .jam _ => .jam
  | .slo _ => .undocumented
  | .rla _ => .undocumented
  | .sre _ => .undocumented
  | .rra _ => .undocumented
  | .dcp _ => .undocumented
  | .isc _ => .undocumented
  | .sax _ => .undocumented
  | .lax _ => .undocumented
  | .las _ => .undocumented
  | .anc _ _ => .undocumented
  | .alr _ => .undocumented
  | .arr _ => .undocumented
  | .ane _ => .undocumented
  | .lxa _ => .undocumented
  | .sbx _ => .undocumented
  | .usbc _ => .undocumented
  | .sha _ => .undocumented
  | .shx _ => .undocumented
  | .shy _ => .undocumented
  | .tas _ => .undocumented
  | .nopU _ _ => .undocumented
  | _ => .official

def isUndocumentedNop : Instr → Bool
  | .nopU _ _ => true
  | _ => false

/-- The instruction an opcode byte selects, its operand bytes 0. -/
def instrAt (op : Byte) : Option Instr := (opcodeRow op).map fun r => r.build 0 0

/-- How many of the 256 opcode bytes select an instruction with a property. -/
def countOpcodes (f : Instr → Bool) : Nat :=
  ((List.range 256).filter fun n => (instrAt (BitVec.ofNat 8 n)).any f).length

/-- The four cost columns of 70_reset_and_hazards.md R410: read, store, and read-modify-write, official and undocumented. -/
def readCost : MemMode → Nat
  | .zp => 3
  | .zpX => 4
  | .zpY => 4
  | .abs => 4
  | .absX => 4
  | .absY => 4
  | .indX => 6
  | .indY => 5

def storeCost : MemMode → Nat
  | .zp => 3
  | .zpX => 4
  | .zpY => 4
  | .abs => 4
  | .absX => 5
  | .absY => 5
  | .indX => 6
  | .indY => 6

def modifyCost : MemMode → Nat
  | .zp => 5
  | .zpX => 6
  | .zpY => 6
  | .abs => 6
  | .absX => 7
  | .absY => 7
  | .indX => 8
  | .indY => 8

def readOperandCost : ReadOperand → Nat
  | .imm _ => 2
  | .mem m => readCost m.mode

def shiftOperandCost : ShiftOperand → Nat
  | .acc => 2
  | .mem m => modifyCost m.mode

def nopOperandCost : NopOperand → Nat
  | .implied => 2
  | .imm _ => 2
  | .mem m => readCost m.mode

/-- The base cost of an instruction by the table and the special cases of R410. -/
def tableCost : Instr → Nat
  | .lda o => readOperandCost o
  | .ldx o => readOperandCost o
  | .ldy o => readOperandCost o
  | .adc o => readOperandCost o
  | .sbc o => readOperandCost o
  | .and o => readOperandCost o
  | .ora o => readOperandCost o
  | .eor o => readOperandCost o
  | .cmp o => readOperandCost o
  | .cpx o => readOperandCost o
  | .cpy o => readOperandCost o
  | .bit m => readCost m.mode
  | .lax m => readCost m.mode
  | .nopU _ o => nopOperandCost o
  | .las _ => 4
  | .sta m => storeCost m.mode
  | .stx m => storeCost m.mode
  | .sty m => storeCost m.mode
  | .sax m => storeCost m.mode
  | .sha (.indY _) => 6
  | .sha _ => 5
  | .shx _ => 5
  | .shy _ => 5
  | .tas _ => 5
  | .inc m => modifyCost m.mode
  | .dec m => modifyCost m.mode
  | .asl o => shiftOperandCost o
  | .lsr o => shiftOperandCost o
  | .rol o => shiftOperandCost o
  | .ror o => shiftOperandCost o
  | .slo m => modifyCost m.mode
  | .rla m => modifyCost m.mode
  | .sre m => modifyCost m.mode
  | .rra m => modifyCost m.mode
  | .dcp m => modifyCost m.mode
  | .isc m => modifyCost m.mode
  | .jmp (.abs _) => 3
  | .jmp (.ind _) => 5
  | .jsr _ => 6
  | .rts => 6
  | .rti => 6
  | .brk => 7
  | .pha => 3
  | .php => 3
  | .pla => 4
  | .plp => 4
  | _ => 2

/-- An operation's encodings are exactly a rule's list of (mode, opcode byte) pairs: in a listed mode its bytes are the
opcode byte and the operand's, and in no other mode has it any. -/
def EncodesAs (f : MemOperand → Instr) (encodings : List (MemMode × Byte)) : Prop :=
  ∀ m, encode (f m) = match encodings.lookup m.mode with
    | some op => op :: m.bytes
    | none => []

end Sys2Proof.Machine
end

