-- ==== Sys2Proof/Certificates/Slice0/Obligations.lean ====
section
/-! DEFINITION. The statements for the provers, each `Obligations.<Name>`, in the order of OBLIGATIONS.json. A statement about
every state is about every run configuration too, since State carries it. -/

section

open Sys2Proof Sys2Proof.Machine

/-- O1. The flag operations agree with each other at every bit of P, and the combined value round-trips. States R35.
-/
def Obligations.FlagOperationsConsistent : Prop :=
  ([Flag.c, .z, .i, .d, .b, .u, .v, .n].map Flag.index = [0, 1, 2, 3, 4, 5, 6, 7]) ∧
  (∀ (p : Byte) (f : Flag) (b : Bool),
    isBitSet (setBit p f) f = true ∧ isBitSet (clearBit p f) f = false ∧ isBitSet (setBitTo p f b) f = b ∧
    ∀ g, g ≠ f → isBitSet (setBit p f) g = isBitSet p g ∧ isBitSet (clearBit p f) g = isBitSet p g ∧
      isBitSet (setBitTo p f b) g = isBitSet p g) ∧
  (∀ (s : State) (v : Byte) (f : Flag),
    (getCombinedValue s).getLsbD f.index = isBitSet s.p f ∧ getCombinedValue (setCombinedValue v s) = v ∧
    setCombinedValue (getCombinedValue s) s = s)

/-- O2. What reset leaves, for every run configuration (the register values are the spec's decisions D2 and D4).
Derived from 10_state.md section 4 (the reset table); 70_reset_and_hazards.md section 1; 92_eei_decisions.md D2, D3,
D4, D15, D32. -/
def Obligations.ResetValues : Prop :=
  (∀ cfg : RunConfig, ∃ lo hi,
    peek 0xFFFC (State.powerOn cfg) = some lo ∧ peek 0xFFFD (State.powerOn cfg) = some hi ∧
    State.boot cfg = {
      a := 0, x := 0, y := 0, sp := 0xFD, pc := mkWord hi lo, p := 0x24
      ppu := {
        ctrl := 0, mask := 0, vblank := false, spriteHitZero := false, spriteOverflow := false, oamAddr := 0, v := 0
        addrLatch := .high, scrollX := 0, scrollY := 0, scrollLatch := .first, buffer := 0, cycle := 0, scanline := 0
        nmiPending := false, palette := [], oam := [], vram := [] }
      ram := [], wram := [], flat := [], dmaStall := 0, extra := 0, tickCycles := 0, irqLine := false
      events := [], reads := 0, cfg := cfg }) ∧
  (∀ (store : Store) (i : Nat), Memory.read store [] i = Config.powerOnByte store i) ∧
  State.reset = State.boot (RunConfig.ofCart Cart.blank) ∧
  (∀ cart : Cart, RunConfig.ofCart cart = {
    bus := .nesMap, cart := cart, nmiEntryCycles := 7, aneMagic := 0xEE, lxaMagic := 0xEE, oamDmaStallCycles := 513
    sprite0HitPolicy := .lineMatch })

/-- O3. The machine's invariant holds right after reset, for every run configuration. Derived from 10_state.md section
4; 61_ppu.md section 4. -/
def Obligations.InvariantAtReset : Prop :=
  (∀ cfg : RunConfig, Inv (State.boot cfg)) ∧ Inv State.reset

/-- O4. Every step keeps the invariant, from every state that has it, under every run configuration. Derived from
10_state.md section 3 (R40, R43, R44); 10_state.md section 2 (R31, R32); 61_ppu.md section 4; 10_state.md section 4
(R52). -/
def Obligations.StepKeepsInvariant : Prop :=
  ∀ s t : State, Inv s → step s = .next t → Inv t

/-- O5. Decoding the encoding of every well-formed instruction gives it back, whatever follows it in memory. Derived
from 30_encoding.md sections 1 and 2 (R100 to R103). -/
def Obligations.DecodeOfEncode : Prop :=
  ∀ (i : Instr) (rest : List Byte), i.wellFormed = true → decode (encode i ++ rest) = .ok (i, rest)

/-- O6. What is decoded is well-formed, and its encoding is exactly the bytes that were read. Derived from
30_encoding.md sections 1 and 2 (R100 to R104). -/
def Obligations.EncodeOfDecode : Prop :=
  ∀ (bytes : List Byte) (i : Instr) (rest : List Byte), decode bytes = .ok (i, rest) →
    i.wellFormed = true ∧ encode i ++ rest = bytes

/-- O7. Every opcode byte selects an instruction; 151 are official, 93 undocumented (27 of them NOPs), 12 JAM. States
R104. -/
def Obligations.DecodingIsTotal : Prop :=
  (∀ (op b1 b2 : Byte) (rest : List Byte), ∃ i, i.wellFormed = true ∧
    decode (op :: b1 :: b2 :: rest) = .ok (i, [b1, b2].drop (operandCount op) ++ rest)) ∧
  countOpcodes (fun i => classOf i == .official) = 151 ∧
  countOpcodes (fun i => classOf i == .undocumented) = 93 ∧
  countOpcodes isUndocumentedNop = 27 ∧
  countOpcodes (fun i => classOf i == .jam) = 12

/-- O8. Words written out from the spec's encodings decode to the instructions they stand for. Derived from
30_encoding.md section 2 (R103). -/
def Obligations.SampleWordsDecode : Prop :=
  decodeTableWord 16 0x80A9 = some (.lda (.imm 0x80)) ∧
  decodeTableWord 24 0x02008D = some (.sta (.abs 0x0200)) ∧
  decodeTableWord 8 0xAA = some .tax ∧
  decodeTableWord 8 0x48 = some .pha ∧
  decodeTableWord 16 0x0F29 = some (.and (.imm 0x0F)) ∧
  decodeTableWord 16 0x20C9 = some (.cmp (.imm 0x20)) ∧
  decodeTableWord 16 0x10E6 = some (.inc (.zp 0x10)) ∧
  decodeTableWord 8 0x0A = some (.asl .acc) ∧
  decodeTableWord 16 0x0E10 = some (.bpl 0x0E) ∧
  decodeTableWord 24 0x02FF6C = some (.jmp (.ind 0x02FF)) ∧
  decodeTableWord 24 0x900020 = some (.jsr 0x9000) ∧
  decodeTableWord 8 0x00 = some .brk ∧
  decodeTableWord 8 0x18 = some .clc ∧
  decodeTableWord 16 0x1007 = some (.slo (.zp 0x10)) ∧
  decodeTableWord 24 0x12009F = some (.sha (.absY 0x1200)) ∧
  decodeTableWord 24 0x12F01C = some (.nopU 0x1C (.mem (.absX 0x12F0))) ∧
  decodeTableWord 8 0x02 = some (.jam 0x02)

/-- O9. An instruction's length is fixed by its opcode byte alone. States R101. -/
def Obligations.LengthIsFixedByOpcode : Prop :=
  (∀ (i : Instr) (op : Byte), opcodeOf i = some op →
    encode i = op :: operandBytesOf i ∧ (encode i).length = 1 + operandCount op ∧ operandCount op ≤ 2) ∧
  (∀ (op : Byte) (bytes : List Byte), bytes.length < operandCount op ↔ ∃ e, decode (op :: bytes) = .error e) ∧
  (∀ (op : Byte) (bytes : List Byte) (i : Instr) (rest : List Byte), decode (op :: bytes) = .ok (i, rest) →
    rest = bytes.drop (operandCount op)) ∧
  (∀ op : Byte, operandCount op = 0 ∨ op ∉ ([0x02, 0x12, 0x22, 0x32, 0x42, 0x52, 0x62, 0x72, 0x92, 0xB2, 0xD2, 0xF2] : List Byte))

/-- O10. The base cost of every opcode byte of the map is what the per-mode cost table gives its instruction. Derived
from 30_encoding.md sections 2 and 5 (R103, R113); 70_reset_and_hazards.md section 3 (R410). -/
def Obligations.BaseCyclesFollowTheModeTable : Prop :=
  ∀ (i : Instr) (op : Byte), opcodeOf i = some op → baseCycles op = tableCost i

/-- O11. A step runs the instruction whose bytes lie at the program counter. Derived from 30_encoding.md section 5
(R112); 40_addressing_load_store.md section 1 (R130). -/
def Obligations.StepRunsDecodedInstruction : Prop :=
  (∀ (s : State) (i : Instr) (op : Byte), opcodeOf i = some op →
    (∀ (k : Nat) (b : Byte), (encode i)[k]? = some b →
      peek ((tickStart s).pc + BitVec.ofNat 16 k) (tickStart s) = some b) →
    step s = match exec i ((tickStart s).setPc ((tickStart s).pc + BitVec.ofNat 16 (encode i).length)) with
      | .next t =>
        let cycles := baseCycles op + t.extra + t.dmaStall
        .next (ppuTick cycles { t with extra := 0, dmaStall := 0, tickCycles := cycles })
      | .fault r => .fault r
      | .refused r => .refused r) ∧
  (∀ s : State, s.ppu.nmiPending = false → s.irqLine = false → tickStart s = s.setExtra 0)

/-- O12. From every state a tick answers a next state, and every form of the opcode map executes; other forms are the
decode defect. Derived from 30_encoding.md sections 3 and 5 (R108, R112); 60_exceptions.md sections 1 and 5 (R280,
R292). -/
def Obligations.EveryTickCompletes : Prop :=
  (∀ s : State, ∃ t, step s = .next t) ∧
  (∀ (i : Instr) (s : State),
    (i.wellFormed = true → ∃ t, exec i s = .next t) ∧
    (i.wellFormed = false → exec i s = .fault (.decodeDefect (.badForm i) s.pc)))

/-- O13. Each tick moves the PPU on by three PPU cycles per CPU cycle charged, and emits a frame for each frame
crossed. Derived from 61_ppu.md section 4 (R340, R346); 30_encoding.md section 5 (R112); 70_reset_and_hazards.md
section 3 (R412); 92_eei_decisions.md D5, D14. -/
def Obligations.PpuTimeIsConserved : Prop :=
  ∀ s t : State, s.ppu.scanline < 262 → step s = .next t →
    ppuTime t = (ppuTime s + 3 * (entryCycles s + t.tickCycles)) % frameTime ∧ t.ppu.cycle < 341 ∧
    frameCount t.events = frameCount s.events + (ppuTime s + 3 * (entryCycles s + t.tickCycles)) / frameTime

/-- O14. A step never changes the cartridge, the bus or a parameter, only appends to the history, and leaves no cycle
owed. Derived from 10_state.md section 4 (R51, R52, R54); 20_memory.md section 2 (R79); 62_devices.md section 4
(R382). -/
def Obligations.StepKeepsConfigurationAndHistory : Prop :=
  ∀ s t : State, step s = .next t →
    t.cfg = s.cfg ∧ t.irqLine = s.irqLine ∧ s.events <+: t.events ∧ t.dmaStall = 0 ∧ t.extra = 0

/-- O15. PPU.tick(n) is the loop of its rule, one scanline advance per 341 cycles crossed; sprite 0 is checked by the
policy. Derived from 61_ppu.md section 4 (R340, R345); 92_eei_decisions.md D14, D24. -/
def Obligations.ScanlineLoop : Prop :=
  (∀ (n : Nat) (s : State),
    let c := s.ppu.cycle + 3 * n
    (c < 341 → ppuTick n s = s.setPpu { s.ppu with cycle := c }) ∧
    (341 ≤ c → ppuTick n s = ppuTick 0 (advanceScanline (s.setPpu { s.ppu with cycle := c - 341 })))) ∧
  (∀ (n : Nat) (s : State), sprite0Check n s =
    if s.cfg.sprite0HitPolicy = .lineMatch ∧ n < 240 ∧ n = (oamByte s 0).toNat ∧ s.ppu.mask.getLsbD 4 = true then
      s.setPpu { s.ppu with spriteHitZero := true }
    else s) ∧
  (∀ s t : State, s.cfg.sprite0HitPolicy = .never → s.ppu.spriteHitZero = false → step s = .next t →
    t.ppu.spriteHitZero = false)

/-- O16. Reaching scanline 241 sets VBlank and may raise the NMI; reaching 262 wraps the counter and emits the frame.
States R341, R342, R343. -/
def Obligations.ScanlineEvents : Prop :=
  ∀ s : State,
    let u := sprite0Check s.ppu.scanline s
    (s.ppu.scanline = 240 → advanceScanline s = u.setPpu { u.ppu with
      scanline := 241, vblank := true, spriteHitZero := false
      nmiPending := if u.ppu.ctrl.getLsbD 7 then true else u.ppu.nmiPending }) ∧
    (s.ppu.scanline = 261 → ∃ w, w = u.setPpu { u.ppu with
      scanline := 0, vblank := false, spriteHitZero := false, nmiPending := false } ∧
      advanceScanline s = w.emit (.frame (renderFrame w))) ∧
    (s.ppu.scanline ≠ 240 → s.ppu.scanline ≠ 261 →
      advanceScanline s = u.setPpu { u.ppu with scanline := s.ppu.scanline + 1 })

/-- O17. Every pixel of a frame is the lowest-numbered opaque sprite's there, or else the background's: R356, which
the spec infers from R350 and R353. That an opaque sprite covers the background whatever its priority bit holds is the
spec's decision D23, and that no Mask bit hides anything is its decision D22. Derived from 61_ppu.md section 5 (R350,
R353, R356); 92_eei_decisions.md D22, D23. -/
def Obligations.FramePixelPriority : Prop :=
  ∀ s : State, (renderFrame s).rows.length = 240 ∧
    ∀ py, py < 240 → ∃ row, (renderFrame s).rows[py]? = some row ∧ row.length = 256 ∧
      ∀ px, px < 256 → ∃ c, row[px]? = some c ∧
        ((∃ k, k < 64 ∧ spritePixel s k py px = some c ∧ ∀ j, j < k → spritePixel s j py px = none) ∨
          ((∀ k, k < 64 → spritePixel s k py px = none) ∧ c = backgroundPixel s py px))

/-- O18. A tile pixel is one bit of each plane, and an attribute quadrant is two bits of its byte. States R351, R352.
-/
def Obligations.TileAndAttributeBits : Prop :=
  (∀ (s : State) (bank : Nat) (id : Byte) (x y : Nat), bank = 0 ∨ bank = 0x1000 → x < 8 → y < 8 →
    let plane := fun k => s.cfg.cart.chr.romRead (bank + 16 * id.toNat + y + 8 * k)
    tilePixel s bank id x y = (plane 0).toNat / 2 ^ (7 - x) % 2 + 2 * ((plane 1).toNat / 2 ^ (7 - x) % 2)) ∧
  (∀ (s : State) (nt row col : Nat), nt ∈ [0x2000, 0x2400, 0x2800, 0x2C00] → row < 30 → col < 32 →
    let attr := ppuRead (BitVec.ofNat 16 (nt + 0x3C0 + row / 4 * 8 + col / 4)) s
    let q := if row / 2 % 2 = 0 then (if col / 2 % 2 = 0 then 0 else 1) else (if col / 2 % 2 = 0 then 2 else 3)
    attrPalette s nt row col = (attr.getLsbD (2 * q)).toNat + 2 * (attr.getLsbD (2 * q + 1)).toNat)

/-- O19. Two states with the same PPU memories, cartridge and Control fields render the same frame (decisions D22,
D23). Derived from 61_ppu.md section 5 (R350, R353); 92_eei_decisions.md D22, D23. -/
def Obligations.FrameDependsOnPpuMemoryOnly : Prop :=
  ∀ s t : State, PpuMemoryKept s t → t.cfg.cart = s.cfg.cart →
    (∀ k, k = 0 ∨ k = 1 ∨ k = 3 ∨ k = 4 → t.ppu.ctrl.getLsbD k = s.ppu.ctrl.getLsbD k) →
    renderFrame t = renderFrame s

/-- O20. NMI entry pushes PC and P with B clear and U set, sets I and goes to the address at 0xFFFA. Derived from
60_exceptions.md section 3 (R284); 60_exceptions.md section 3 (R287); 92_eei_decisions.md D42. -/
def Obligations.NmiEntryEffect : Prop :=
  ∀ s : State, ∃ q lo hi,
    peek 0xFFFA s = some lo ∧ peek 0xFFFB s = some hi ∧
    nmiEntry s = { s with
      sp := s.sp - 3, p := q, pc := mkWord hi lo, ram := (nmiEntry s).ram, flat := (nmiEntry s).flat } ∧
    isBitSet q .i = true ∧ FlagsKept [.i] s.p q ∧
    peek (0x0100 + zext16 s.sp) (nmiEntry s) = some (hiByte s.pc) ∧
    peek (0x0100 + zext16 (s.sp - 1)) (nmiEntry s) = some (loByte s.pc) ∧
    peek (0x0100 + zext16 (s.sp - 2)) (nmiEntry s) = some ((s.p &&& ~~~0x10) ||| 0x20) ∧
    MemoryKeptButAll [0x0100 + zext16 s.sp, 0x0100 + zext16 (s.sp - 1), 0x0100 + zext16 (s.sp - 2)] s (nmiEntry s)

/-- O21. A tick starts by taking a pending NMI, whatever I holds, else an asserted IRQ if I is clear, else nothing.
Derived from 60_exceptions.md section 2 (R282, R283); 60_exceptions.md section 3 (R286); 61_ppu.md section 4 (R344);
92_eei_decisions.md D5, D6. -/
def Obligations.InterruptPollOrder : Prop :=
  ∀ s : State,
    (s.ppu.nmiPending = true → tickStart s =
      (ppuTick s.cfg.nmiEntryCycles (nmiEntry (s.setPpu { s.ppu with nmiPending := false }))).setExtra 0) ∧
    (s.ppu.nmiPending = false → s.irqLine = true → isBitSet s.p .i = false → tickStart s =
      (ppuTick s.cfg.nmiEntryCycles (irqEntry s)).setExtra 0) ∧
    (s.ppu.nmiPending = false → s.irqLine = false ∨ isBitSet s.p .i = true → tickStart s = s.setExtra 0) ∧
    (∃ lo hi, peek 0xFFFE s = some lo ∧ peek 0xFFFF s = some hi ∧
      irqEntry s = (nmiEntry s).setPc (mkWord hi lo))

/-- O22. RTI right after an entry restores the interrupted PC, SP and P; after BRK the byte after the opcode is
skipped. Derived from 60_exceptions.md section 4 (R288); 43_control.md sections 2 and 3 (R222, R223). -/
def Obligations.ReturnUndoesEntry : Prop :=
  (∀ s : State, ∃ u, exec .rti (nmiEntry s) = .next u ∧
    u = { s with p := (s.p &&& ~~~0x10) ||| 0x20, ram := u.ram, flat := u.flat } ∧
    MemoryKeptButAll [0x0100 + zext16 s.sp, 0x0100 + zext16 (s.sp - 1), 0x0100 + zext16 (s.sp - 2)] s u) ∧
  (∀ s : State, ∃ t u, exec .brk s = .next t ∧ exec .rti t = .next u ∧
    u = { s with pc := s.pc + 1, p := (s.p &&& ~~~0x10) ||| 0x20, ram := u.ram, flat := u.flat } ∧
    MemoryKeptButAll [0x0100 + zext16 s.sp, 0x0100 + zext16 (s.sp - 1), 0x0100 + zext16 (s.sp - 2)] s u)

/-- O23. BRK pushes PC + 1 and P with B and U set, sets I, goes to the address at 0xFFFE; RTI pops P and then PC
verbatim. That PC is pushed high byte first, so that its low byte lies lower, is the spec's decision D42. Derived from
43_control.md sections 2 and 3 (R222, R223); 41_stack.md section 1 (R170 to R173); 92_eei_decisions.md D42. -/
def Obligations.BrkAndRtiEffect : Prop :=
  (encode .brk = [0x00] ∧ operandCount 0x00 = 0 ∧ baseCycles 0x00 = 7 ∧
  ∀ s : State, ∃ t q lo hi,
    exec .brk s = .next t ∧
    peek 0xFFFE s = some lo ∧ peek 0xFFFF s = some hi ∧
    t = { s with sp := s.sp - 3, p := q, pc := mkWord hi lo, ram := t.ram, flat := t.flat } ∧
    isBitSet q .i = true ∧ FlagsKept [.i] s.p q ∧
    peek (0x0100 + zext16 s.sp) t = some (hiByte (s.pc + 1)) ∧
    peek (0x0100 + zext16 (s.sp - 1)) t = some (loByte (s.pc + 1)) ∧
    peek (0x0100 + zext16 (s.sp - 2)) t = some (s.p ||| 0x30) ∧
    MemoryKeptButAll [0x0100 + zext16 s.sp, 0x0100 + zext16 (s.sp - 1), 0x0100 + zext16 (s.sp - 2)] s t) ∧
  (encode .rti = [0x40] ∧ operandCount 0x40 = 0 ∧ baseCycles 0x40 = 6 ∧
  ∀ s : State, ∃ v lo hi,
    peek (0x0100 + zext16 (s.sp + 1)) s = some v ∧ peek (0x0100 + zext16 (s.sp + 2)) s = some lo ∧
    peek (0x0100 + zext16 (s.sp + 3)) s = some hi ∧
    exec .rti s = .next { s with sp := s.sp + 3, p := (v &&& ~~~0x10) ||| 0x20, pc := mkWord hi lo })

/-- O24. JMP goes to its operand, or to the pointer there, whose high byte is read from the same page. States R219,
R143. -/
def Obligations.JumpEffect : Prop :=
  (∀ w : Word, encode (.jmp (.abs w)) = [0x4C, loByte w, hiByte w] ∧ encode (.jmp (.ind w)) = [0x6C, loByte w, hiByte w]) ∧
  baseCycles 0x4C = 3 ∧ baseCycles 0x6C = 5 ∧
  (∀ (s : State) (w : Word), exec (.jmp (.abs w)) s = .next { s with pc := w }) ∧
  (∀ (s : State) (ptr : Word),
    let lo := memRead ptr s
    let hi := memRead (BitVec.ofNat 16 (ptr.toNat / 256 * 256 + (ptr.toNat % 256 + 1) % 256)) lo.2
    exec (.jmp (.ind ptr)) s = .next { hi.2 with pc := mkWord hi.1 lo.1 } ∧
    ReadEffect s hi.2 ∧ MemoryKept s hi.2 ∧ PpuMemoryKept s hi.2)

/-- O25. JSR pushes the address of its last byte and jumps; RTS pops a word and goes to the address after it. Derived
from 43_control.md section 2 (R220, R221); 92_eei_decisions.md D10, D42. -/
def Obligations.CallAndReturn : Prop :=
  (∀ w : Word, encode (.jsr w) = [0x20, loByte w, hiByte w]) ∧ encode .rts = [0x60] ∧
  baseCycles 0x20 = 6 ∧ baseCycles 0x60 = 6 ∧
  (∀ (s : State) (w : Word), ∃ t, exec (.jsr w) s = .next t ∧
    t = { s with sp := s.sp - 2, pc := w, ram := t.ram, flat := t.flat } ∧
    peek (0x0100 + zext16 s.sp) t = some (hiByte (s.pc - 1)) ∧
    peek (0x0100 + zext16 (s.sp - 1)) t = some (loByte (s.pc - 1)) ∧
    MemoryKeptButAll [0x0100 + zext16 s.sp, 0x0100 + zext16 (s.sp - 1)] s t) ∧
  (∀ s : State, ∃ lo hi,
    peek (0x0100 + zext16 (s.sp + 1)) s = some lo ∧ peek (0x0100 + zext16 (s.sp + 2)) s = some hi ∧
    exec .rts s = .next { s with sp := s.sp + 2, pc := mkWord hi lo + 1 }) ∧
  (∀ (s t : State) (w q : Word), exec (.jsr w) s = .next t →
    exec .rts (t.setPc q) = .next { t with sp := s.sp, pc := s.pc })

/-- O26. Each branch tests its flag; taken it adds the signed offset to PC and one extra cycle, two across a page.
States R210, R211, R212, R213, R214, R215, R216, R217, R218. -/
def Obligations.BranchEffect : Prop :=
  ∀ (make : Byte → Instr) (op : Byte) (f : Flag) (value : Bool),
    (make, op, f, value) ∈ ([(.bpl, 0x10, .n, false), (.bmi, 0x30, .n, true), (.bvc, 0x50, .v, false), (.bvs, 0x70, .v, true),
      (.bcc, 0x90, .c, false), (.bcs, 0xB0, .c, true), (.bne, 0xD0, .z, false), (.beq, 0xF0, .z, true)]
        : List ((Byte → Instr) × Byte × Flag × Bool)) →
    baseCycles op = 2 ∧ ∀ (rel8 : Byte) (s : State),
      let target := s.pc + BitVec.ofInt 16 rel8.toInt
      encode (make rel8) = [op, rel8] ∧
      (isBitSet s.p f = value → exec (make rel8) s = .next { s with
        pc := target, extra := s.extra + (if hiByte s.pc = hiByte target then 1 else 2) }) ∧
      (isBitSet s.p f ≠ value → exec (make rel8) s = .next s)

/-- O27. Each flag instruction writes its one flag and nothing else. States R224, R225, R230. -/
def Obligations.FlagInstructionEffect : Prop :=
  ∀ (i : Instr) (op : Byte) (f : Flag) (value : Bool),
    (i, op, f, value) ∈ ([(.clc, 0x18, .c, false), (.sec, 0x38, .c, true), (.cli, 0x58, .i, false), (.sei, 0x78, .i, true),
      (.cld, 0xD8, .d, false), (.sed, 0xF8, .d, true), (.clv, 0xB8, .v, false)] : List (Instr × Byte × Flag × Bool)) →
    encode i = [op] ∧ baseCycles op = 2 ∧
    ∀ s : State, ∃ q, exec i s = .next { s with p := q } ∧ isBitSet q f = value ∧ FlagsKept [f] s.p q

/-- O28. NOP changes nothing; an undocumented NOP with a memory operand only performs its operand read. Derived from
43_control.md section 5 (R231); 44_undocumented.md section 6 (R261); 92_eei_decisions.md D9. -/
def Obligations.NopEffect : Prop :=
  encode .nop = [0xEA] ∧ baseCycles 0xEA = 2 ∧ (∀ s : State, exec .nop s = .next s) ∧
  (∀ (op : Byte) (s : State), op ∈ ([0x1A, 0x3A, 0x5A, 0x7A, 0xDA, 0xFA] : List Byte) →
    encode (.nopU op .implied) = [op] ∧ exec (.nopU op .implied) s = .next s) ∧
  (∀ (op b : Byte) (s : State), op ∈ ([0x80, 0x82, 0x89, 0xC2, 0xE2] : List Byte) →
    encode (.nopU op (.imm b)) = [op, b] ∧ exec (.nopU op (.imm b)) s = .next s) ∧
  (∀ (op : Byte) (m : MemOperand) (s : State),
    (op, m.mode) ∈ ([(0x04, .zp), (0x44, .zp), (0x64, .zp), (0x14, .zpX), (0x34, .zpX), (0x54, .zpX), (0x74, .zpX),
      (0xD4, .zpX), (0xF4, .zpX), (0x0C, .abs), (0x1C, .absX), (0x3C, .absX), (0x5C, .absX), (0x7C, .absX), (0xDC, .absX),
      (0xFC, .absX)] : List (Byte × MemMode)) →
    encode (.nopU op (.mem m)) = op :: m.bytes ∧ exec (.nopU op (.mem m)) s = .next (readM (.mem m) s).2 ∧
    OperandReadKept (.mem m) s)

/-- O29. JAM moves PC back to itself, so every later tick refetches it at 2 cycles. States R270. -/
def Obligations.JamEffect : Prop :=
  ∀ op : Byte, op ∈ ([0x02, 0x12, 0x22, 0x32, 0x42, 0x52, 0x62, 0x72, 0x92, 0xB2, 0xD2, 0xF2] : List Byte) →
    encode (.jam op) = [op] ∧ baseCycles op = 2 ∧
    (∀ s : State, exec (.jam op) s = .next { s with pc := s.pc - 1 }) ∧
    (∀ s : State, s.ppu.nmiPending = false → s.irqLine = false → s.dmaStall = 0 → peek s.pc s = some op →
      ∃ t, step s = .next t ∧ t = ppuTick 2 { s with extra := 0, tickCycles := 2 } ∧ t.pc = s.pc ∧
        peek t.pc t = some op ∧ TimeEffect { s with extra := 0, tickCycles := 2 } t)

/-- O30. A push writes at 0x0100 + SP and then decrements SP; a pop increments SP and then reads; both wrap in the
page. That a word is pushed high byte first, so that its low byte lies lower, is the spec's decision D42. Derived from
41_stack.md section 1 (R170 to R173); 92_eei_decisions.md D42. -/
def Obligations.StackPrimitives : Prop :=
  (∀ (v : Byte) (s : State), push v s = { s with sp := s.sp - 1, ram := (push v s).ram, flat := (push v s).flat } ∧
    peek (0x0100 + zext16 s.sp) (push v s) = some v ∧ MemoryKeptBut (0x0100 + zext16 s.sp) s (push v s)) ∧
  (∀ s : State, ∃ b, peek (0x0100 + zext16 (s.sp + 1)) s = some b ∧ pop s = (b, { s with sp := s.sp + 1 })) ∧
  (∀ (w : Word) (s : State),
    peek (0x0100 + zext16 s.sp) (pushWord w s) = some (hiByte w) ∧
    peek (0x0100 + zext16 (s.sp - 1)) (pushWord w s) = some (loByte w) ∧
    MemoryKeptButAll [0x0100 + zext16 s.sp, 0x0100 + zext16 (s.sp - 1)] s (pushWord w s) ∧
    popWord (pushWord w s) = (w, { pushWord w s with sp := s.sp }))

/-- O31. PHA and PHP push A and P with B and U set; PLA and PLP pop them, PLP with B cleared and U set. States R174,
R175, R176, R177. -/
def Obligations.StackInstructionEffect : Prop :=
  encode .pha = [0x48] ∧ encode .php = [0x08] ∧ encode .plp = [0x28] ∧ encode .pla = [0x68] ∧
  baseCycles 0x48 = 3 ∧ baseCycles 0x08 = 3 ∧ baseCycles 0x28 = 4 ∧ baseCycles 0x68 = 4 ∧
  (∀ s : State, ∃ t, exec .pha s = .next t ∧ t = { s with sp := s.sp - 1, ram := t.ram, flat := t.flat } ∧
    peek (0x0100 + zext16 s.sp) t = some s.a ∧ MemoryKeptBut (0x0100 + zext16 s.sp) s t) ∧
  (∀ s : State, ∃ t, exec .php s = .next t ∧ t = { s with sp := s.sp - 1, ram := t.ram, flat := t.flat } ∧
    peek (0x0100 + zext16 s.sp) t = some (s.p ||| 0x30) ∧ MemoryKeptBut (0x0100 + zext16 s.sp) s t) ∧
  (∀ s : State, ∃ b, peek (0x0100 + zext16 (s.sp + 1)) s = some b ∧
    exec .plp s = .next { s with sp := s.sp + 1, p := (b &&& ~~~0x10) ||| 0x20 }) ∧
  (∀ s : State, ∃ b q, peek (0x0100 + zext16 (s.sp + 1)) s = some b ∧
    exec .pla s = .next { s with sp := s.sp + 1, a := b, p := q } ∧ NZFrom b s.p q) ∧
  (∀ s : State, ∃ t, exec .php s = .next t ∧
    exec .plp t = .next { t with sp := s.sp, p := (s.p &&& ~~~0x10) ||| 0x20 })

/-- O32. Each transfer copies its register; N and Z follow the value, except for TXS, which sets no flag. States R152,
R153, R154, R155, R156, R157. -/
def Obligations.TransferEffect : Prop :=
  encode .tax = [0xAA] ∧ encode .tay = [0xA8] ∧ encode .txa = [0x8A] ∧ encode .tya = [0x98] ∧ encode .tsx = [0xBA] ∧
  encode .txs = [0x9A] ∧ (∀ op ∈ ([0xAA, 0xA8, 0x8A, 0x98, 0xBA, 0x9A] : List Byte), baseCycles op = 2) ∧
  ∀ s : State,
    (∃ q, exec .tax s = .next { s with x := s.a, p := q } ∧ NZFrom s.a s.p q) ∧
    (∃ q, exec .tay s = .next { s with y := s.a, p := q } ∧ NZFrom s.a s.p q) ∧
    (∃ q, exec .txa s = .next { s with a := s.x, p := q } ∧ NZFrom s.x s.p q) ∧
    (∃ q, exec .tya s = .next { s with a := s.y, p := q } ∧ NZFrom s.y s.p q) ∧
    (∃ q, exec .tsx s = .next { s with x := s.sp, p := q } ∧ NZFrom s.sp s.p q) ∧
    exec .txs s = .next { s with sp := s.x }

/-- O33. LDA, LDX, LDY, LAX and LAS: the operand goes to the destination, N and Z follow, the rest is kept. States
R146, R147, R148, R248, R255. -/
def Obligations.LoadEffect : Prop :=
  EncodesAs (fun m => .lda (.mem m)) [(.zp, 0xA5), (.zpX, 0xB5), (.abs, 0xAD), (.absX, 0xBD), (.absY, 0xB9), (.indX, 0xA1),
    (.indY, 0xB1)] ∧
  EncodesAs (fun m => .ldx (.mem m)) [(.zp, 0xA6), (.zpY, 0xB6), (.abs, 0xAE), (.absY, 0xBE)] ∧
  EncodesAs (fun m => .ldy (.mem m)) [(.zp, 0xA4), (.zpX, 0xB4), (.abs, 0xAC), (.absX, 0xBC)] ∧
  EncodesAs .lax [(.zp, 0xA7), (.zpY, 0xB7), (.abs, 0xAF), (.absY, 0xBF), (.indX, 0xA3), (.indY, 0xB3)] ∧
  (∀ b : Byte, encode (.lda (.imm b)) = [0xA9, b] ∧ encode (.ldx (.imm b)) = [0xA2, b] ∧
    encode (.ldy (.imm b)) = [0xA0, b]) ∧
  (∀ w : Word, encode (.las w) = [0xBB, loByte w, hiByte w]) ∧ baseCycles 0xBB = 4 ∧
  (∀ (o : ReadOperand) (s : State), OperandReadKept o s ∧
    ((Instr.lda o).wellFormed = true → ∃ q,
      exec (.lda o) s = .next { (readM o s).2 with a := (readM o s).1, p := q } ∧ NZFrom (readM o s).1 s.p q) ∧
    ((Instr.ldx o).wellFormed = true → ∃ q,
      exec (.ldx o) s = .next { (readM o s).2 with x := (readM o s).1, p := q } ∧ NZFrom (readM o s).1 s.p q) ∧
    ((Instr.ldy o).wellFormed = true → ∃ q,
      exec (.ldy o) s = .next { (readM o s).2 with y := (readM o s).1, p := q } ∧ NZFrom (readM o s).1 s.p q)) ∧
  (∀ (m : MemOperand) (s : State), (Instr.lax m).wellFormed = true → ∃ q,
    exec (.lax m) s = .next { (readM (.mem m) s).2 with a := (readM (.mem m) s).1, x := (readM (.mem m) s).1, p := q } ∧
    NZFrom (readM (.mem m) s).1 s.p q) ∧
  (∀ (w : Word) (s : State), ∃ q,
    let v := (readM (.mem (.absY w)) s).1 &&& s.sp
    exec (.las w) s = .next { (readM (.mem (.absY w)) s).2 with a := v, x := v, sp := v, p := q } ∧ NZFrom v s.p q)

/-- O34. STA, STX, STY and SAX write their register to the effective address without reading it, and set no flag.
States R149, R150, R151, R247. -/
def Obligations.StoreEffect : Prop :=
  EncodesAs .sta [(.zp, 0x85), (.zpX, 0x95), (.abs, 0x8D), (.absX, 0x9D), (.absY, 0x99), (.indX, 0x81), (.indY, 0x91)] ∧
  EncodesAs .stx [(.zp, 0x86), (.zpY, 0x96), (.abs, 0x8E)] ∧
  EncodesAs .sty [(.zp, 0x84), (.zpX, 0x94), (.abs, 0x8C)] ∧
  EncodesAs .sax [(.zp, 0x87), (.zpY, 0x97), (.abs, 0x8F), (.indX, 0x83)] ∧
  baseCycles 0x9D = 5 ∧ baseCycles 0x99 = 5 ∧ baseCycles 0x91 = 6 ∧
  ∀ (m : MemOperand) (s : State),
    ((Instr.sta m).wellFormed = true → ∃ t, exec (.sta m) s = .next t ∧ StoredAt (resolve m s).ea s.a s t) ∧
    ((Instr.stx m).wellFormed = true → ∃ t, exec (.stx m) s = .next t ∧ StoredAt (resolve m s).ea s.x s t) ∧
    ((Instr.sty m).wellFormed = true → ∃ t, exec (.sty m) s = .next t ∧ StoredAt (resolve m s).ea s.y s t) ∧
    ((Instr.sax m).wellFormed = true → ∃ t, exec (.sax m) s = .next t ∧ StoredAt (resolve m s).ea (s.a &&& s.x) s t)

/-- O35. SHA, SHX, SHY and TAS store their value AND the base's high byte plus one, at an address a page cross moves.
Derived from 44_undocumented.md section 5 (R256 to R259, R262); 92_eei_decisions.md D8. -/
def Obligations.UnstableStoreEffect : Prop :=
  (∀ w : Word, encode (.sha (.absY w)) = [0x9F, loByte w, hiByte w] ∧ encode (.shx w) = [0x9E, loByte w, hiByte w] ∧
    encode (.shy w) = [0x9C, loByte w, hiByte w] ∧ encode (.tas w) = [0x9B, loByte w, hiByte w]) ∧
  (∀ z : Byte, encode (.sha (.indY z)) = [0x93, z]) ∧ baseCycles 0x93 = 6 ∧
  (∀ op ∈ ([0x9F, 0x9E, 0x9C, 0x9B] : List Byte), baseCycles op = 5) ∧
  (∀ (w : Word) (s : State),
    (∃ t, exec (.sha (.absY w)) s = .next t ∧ UnstableStored w s.y (s.a &&& s.x) s t) ∧
    (∃ t, exec (.shx w) s = .next t ∧ UnstableStored w s.y s.x s t) ∧
    (∃ t, exec (.shy w) s = .next t ∧ UnstableStored w s.x s.y s t) ∧
    (∃ t, exec (.tas w) s = .next t ∧ UnstableStored w s.y (s.a &&& s.x) { s with sp := s.a &&& s.x } t)) ∧
  (∀ (z : Byte) (s : State), ∃ t lo hi, peek (zext16 z) s = some lo ∧ peek (zext16 (z + 1)) s = some hi ∧
    exec (.sha (.indY z)) s = .next t ∧ UnstableStored (mkWord hi lo) s.y (s.a &&& s.x) s t)

/-- O36. AddCore is the 9-bit sum: C its carry, V exactly the signed overflow, N and Z of the result, no other flag.
States R199. -/
def Obligations.AddCoreIsBinaryAddition : Prop :=
  ∀ (a m p : Byte) (c : Bool),
    let s := a.toNat + m.toNat + c.toNat
    let r := addResult a m c
    let q := addFlags a m c p
    r.toNat = s % 256 ∧
    isBitSet q .c = decide (s > 0xFF) ∧
    isBitSet q .v = decide ((m ^^^ r) &&& (a ^^^ r) &&& 0x80 ≠ 0) ∧
    (isBitSet q .v = true ↔ a.getLsbD 7 = m.getLsbD 7 ∧ r.getLsbD 7 ≠ a.getLsbD 7) ∧
    (isBitSet q .v = true ↔ a.toInt + m.toInt + c.toNat < -128 ∨ 127 < a.toInt + m.toInt + c.toNat) ∧
    isBitSet q .n = r.getLsbD 7 ∧ isBitSet q .z = decide (r = 0) ∧
    FlagsKept [.c, .v, .n, .z] p q

/-- O37. ADC, SBC and USBC: binary addition and subtraction with carry into A, whatever D holds (decision D1). Derived
from 42_alu.md section 1 (R180, R181); 44_undocumented.md section 4 (R260); 92_eei_decisions.md D1. -/
def Obligations.AddSubtractEffect : Prop :=
  EncodesAs (fun m => .adc (.mem m)) [(.zp, 0x65), (.zpX, 0x75), (.abs, 0x6D), (.absX, 0x7D), (.absY, 0x79), (.indX, 0x61),
    (.indY, 0x71)] ∧
  EncodesAs (fun m => .sbc (.mem m)) [(.zp, 0xE5), (.zpX, 0xF5), (.abs, 0xED), (.absX, 0xFD), (.absY, 0xF9), (.indX, 0xE1),
    (.indY, 0xF1)] ∧
  (∀ b : Byte, encode (.adc (.imm b)) = [0x69, b] ∧ encode (.sbc (.imm b)) = [0xE9, b] ∧ encode (.usbc b) = [0xEB, b]) ∧
  (∀ (o : ReadOperand) (s : State), (Instr.adc o).wellFormed = true → OperandReadKept o s ∧ ∃ r q,
    let m := (readM o s).1
    let c := (isBitSet s.p .c).toNat
    exec (.adc o) s = .next { (readM o s).2 with a := r, p := q } ∧
    r.toNat = (s.a.toNat + m.toNat + c) % 256 ∧
    NZFrom r (setBitTo (setBitTo s.p .c (decide (255 < s.a.toNat + m.toNat + c))) .v
      (decide (s.a.toInt + m.toInt + c < -128 ∨ 127 < s.a.toInt + m.toInt + c))) q) ∧
  (∀ (i : Instr) (o : ReadOperand) (s : State), i = .sbc o ∨ (∃ b, i = .usbc b ∧ o = .imm b) → i.wellFormed = true →
    OperandReadKept o s ∧ ∃ r q,
    let m := (readM o s).1
    let c := (isBitSet s.p .c).toNat
    let d : Int := s.a.toNat - m.toNat - (1 - c)
    exec i s = .next { (readM o s).2 with a := r, p := q } ∧
    (r.toNat : Int) = d % 256 ∧
    NZFrom r (setBitTo (setBitTo s.p .c (decide (0 ≤ d))) .v
      (decide (s.a.toInt - m.toInt - (1 - c) < -128 ∨ 127 < s.a.toInt - m.toInt - (1 - c)))) q)

/-- O38. AND, ORA and EOR combine A with the operand; BIT tests it: Z from A AND M, N and V from bits 7 and 6 of M.
States R182, R183, R184, R185. -/
def Obligations.LogicEffect : Prop :=
  EncodesAs (fun m => .and (.mem m)) [(.zp, 0x25), (.zpX, 0x35), (.abs, 0x2D), (.absX, 0x3D), (.absY, 0x39), (.indX, 0x21),
    (.indY, 0x31)] ∧
  EncodesAs (fun m => .ora (.mem m)) [(.zp, 0x05), (.zpX, 0x15), (.abs, 0x0D), (.absX, 0x1D), (.absY, 0x19), (.indX, 0x01),
    (.indY, 0x11)] ∧
  EncodesAs (fun m => .eor (.mem m)) [(.zp, 0x45), (.zpX, 0x55), (.abs, 0x4D), (.absX, 0x5D), (.absY, 0x59), (.indX, 0x41),
    (.indY, 0x51)] ∧
  EncodesAs .bit [(.zp, 0x24), (.abs, 0x2C)] ∧
  (∀ b : Byte, encode (.and (.imm b)) = [0x29, b] ∧ encode (.ora (.imm b)) = [0x09, b] ∧
    encode (.eor (.imm b)) = [0x49, b]) ∧
  (∀ (o : ReadOperand) (s : State), OperandReadKept o s ∧
    ((Instr.and o).wellFormed = true → ∃ q,
      exec (.and o) s = .next { (readM o s).2 with a := s.a &&& (readM o s).1, p := q } ∧
      NZFrom (s.a &&& (readM o s).1) s.p q) ∧
    ((Instr.ora o).wellFormed = true → ∃ q,
      exec (.ora o) s = .next { (readM o s).2 with a := s.a ||| (readM o s).1, p := q } ∧
      NZFrom (s.a ||| (readM o s).1) s.p q) ∧
    ((Instr.eor o).wellFormed = true → ∃ q,
      exec (.eor o) s = .next { (readM o s).2 with a := s.a ^^^ (readM o s).1, p := q } ∧
      NZFrom (s.a ^^^ (readM o s).1) s.p q)) ∧
  (∀ (m : MemOperand) (s : State), (Instr.bit m).wellFormed = true → ∃ q,
    exec (.bit m) s = .next { (readM (.mem m) s).2 with p := q } ∧
    isBitSet q .z = decide (s.a &&& (readM (.mem m) s).1 = 0) ∧ isBitSet q .n = (readM (.mem m) s).1.getLsbD 7 ∧
    isBitSet q .v = (readM (.mem m) s).1.getLsbD 6 ∧ FlagsKept [.z, .n, .v] s.p q)

/-- O39. CMP, CPX and CPY set C, Z and N from the unsigned comparison of A, X or Y with the operand, and nothing else.
States R186, R187, R188, R200. -/
def Obligations.CompareEffect : Prop :=
  EncodesAs (fun m => .cmp (.mem m)) [(.zp, 0xC5), (.zpX, 0xD5), (.abs, 0xCD), (.absX, 0xDD), (.absY, 0xD9), (.indX, 0xC1),
    (.indY, 0xD1)] ∧
  EncodesAs (fun m => .cpx (.mem m)) [(.zp, 0xE4), (.abs, 0xEC)] ∧
  EncodesAs (fun m => .cpy (.mem m)) [(.zp, 0xC4), (.abs, 0xCC)] ∧
  (∀ b : Byte, encode (.cmp (.imm b)) = [0xC9, b] ∧ encode (.cpx (.imm b)) = [0xE0, b] ∧
    encode (.cpy (.imm b)) = [0xC0, b]) ∧
  ∀ (make : ReadOperand → Instr) (reg : State → Byte),
    (make = .cmp ∧ reg = State.a) ∨ (make = .cpx ∧ reg = State.x) ∨ (make = .cpy ∧ reg = State.y) →
    ∀ (o : ReadOperand) (s : State), (make o).wellFormed = true → OperandReadKept o s ∧ ∃ q,
      let m := (readM o s).1
      exec (make o) s = .next { (readM o s).2 with p := q } ∧
      isBitSet q .c = decide (m.toNat ≤ (reg s).toNat) ∧ isBitSet q .z = decide (reg s = m) ∧
      isBitSet q .n = decide (128 ≤ ((reg s).toNat + 256 - m.toNat) % 256) ∧ FlagsKept [.c, .z, .n] s.p q

/-- O40. INC and DEC read their operand once and write it back plus or minus one; INX, INY, DEX, DEY do so to X and Y.
States R189, R190, R191, R192, R193, R194. -/
def Obligations.IncDecEffect : Prop :=
  EncodesAs .inc [(.zp, 0xE6), (.zpX, 0xF6), (.abs, 0xEE), (.absX, 0xFE)] ∧
  EncodesAs .dec [(.zp, 0xC6), (.zpX, 0xD6), (.abs, 0xCE), (.absX, 0xDE)] ∧ baseCycles 0xFE = 7 ∧ baseCycles 0xDE = 7 ∧
  encode .inx = [0xE8] ∧ encode .iny = [0xC8] ∧ encode .dex = [0xCA] ∧ encode .dey = [0x88] ∧
  (∀ op ∈ ([0xE8, 0xC8, 0xCA, 0x88] : List Byte), baseCycles op = 2) ∧
  (∀ (m : MemOperand) (s : State),
    let ea := (resolve m s).ea
    let b := (memRead ea s).1
    ((Instr.inc m).wellFormed = true → ∃ u q, exec (.inc m) s = .next { u with p := q } ∧
      ModifiedAt ea (fun b => BitVec.ofNat 8 (b.toNat + 1)) s u ∧ NZFrom (BitVec.ofNat 8 (b.toNat + 1)) s.p q) ∧
    ((Instr.dec m).wellFormed = true → ∃ u q, exec (.dec m) s = .next { u with p := q } ∧
      ModifiedAt ea (fun b => BitVec.ofNat 8 (b.toNat + 255)) s u ∧ NZFrom (BitVec.ofNat 8 (b.toNat + 255)) s.p q)) ∧
  ∀ s : State,
    (∃ r q, exec .inx s = .next { s with x := r, p := q } ∧ r.toNat = (s.x.toNat + 1) % 256 ∧ NZFrom r s.p q) ∧
    (∃ r q, exec .iny s = .next { s with y := r, p := q } ∧ r.toNat = (s.y.toNat + 1) % 256 ∧ NZFrom r s.p q) ∧
    (∃ r q, exec .dex s = .next { s with x := r, p := q } ∧ r.toNat = (s.x.toNat + 255) % 256 ∧ NZFrom r s.p q) ∧
    (∃ r q, exec .dey s = .next { s with y := r, p := q } ∧ r.toNat = (s.y.toNat + 255) % 256 ∧ NZFrom r s.p q)

/-- O41. ASL, LSR, ROL and ROR shift one bit, through C for the rotates, in A or in memory; C is the bit shifted out.
States R195, R196, R197, R198. -/
def Obligations.ShiftEffect : Prop :=
  EncodesAs (fun m => .asl (.mem m)) [(.zp, 0x06), (.zpX, 0x16), (.abs, 0x0E), (.absX, 0x1E)] ∧
  EncodesAs (fun m => .lsr (.mem m)) [(.zp, 0x46), (.zpX, 0x56), (.abs, 0x4E), (.absX, 0x5E)] ∧
  EncodesAs (fun m => .rol (.mem m)) [(.zp, 0x26), (.zpX, 0x36), (.abs, 0x2E), (.absX, 0x3E)] ∧
  EncodesAs (fun m => .ror (.mem m)) [(.zp, 0x66), (.zpX, 0x76), (.abs, 0x6E), (.absX, 0x7E)] ∧
  encode (.asl .acc) = [0x0A] ∧ encode (.lsr .acc) = [0x4A] ∧ encode (.rol .acc) = [0x2A] ∧ encode (.ror .acc) = [0x6A] ∧
  (∀ op ∈ ([0x1E, 0x5E, 0x3E, 0x7E] : List Byte), baseCycles op = 7) ∧
  ∀ (make : ShiftOperand → Instr) (result : Nat → Nat → Nat) (out : Nat),
    (make, result, out) = (Instr.asl, fun m _ => 2 * m, 7) ∨ (make, result, out) = (Instr.lsr, fun m _ => m / 2, 0) ∨
    (make, result, out) = (Instr.rol, fun m c => 2 * m + c, 7) ∨
    (make, result, out) = (Instr.ror, fun m c => m / 2 + 128 * c, 0) →
    ∀ s : State,
      let f := fun b : Byte => BitVec.ofNat 8 (result b.toNat (isBitSet s.p .c).toNat)
      (∃ q, exec (make .acc) s = .next { s with a := f s.a, p := q } ∧ NZCFrom (f s.a) (s.a.getLsbD out) s.p q) ∧
      ∀ m : MemOperand, (make (.mem m)).wellFormed = true → ∃ u q,
        let b := (memRead (resolve m s).ea s).1
        exec (make (.mem m)) s = .next { u with p := q } ∧ ModifiedAt (resolve m s).ea f s u ∧
        NZCFrom (f b) (b.getLsbD out) s.p q

/-- O42. SLO, RLA and SRE shift their memory operand, then OR, AND or EOR the result into A. States R241, R242, R243.
-/
def Obligations.ShiftCombinationEffect : Prop :=
  EncodesAs .slo [(.zp, 0x07), (.zpX, 0x17), (.abs, 0x0F), (.absX, 0x1F), (.absY, 0x1B), (.indX, 0x03), (.indY, 0x13)] ∧
  EncodesAs .rla [(.zp, 0x27), (.zpX, 0x37), (.abs, 0x2F), (.absX, 0x3F), (.absY, 0x3B), (.indX, 0x23), (.indY, 0x33)] ∧
  EncodesAs .sre [(.zp, 0x47), (.zpX, 0x57), (.abs, 0x4F), (.absX, 0x5F), (.absY, 0x5B), (.indX, 0x43), (.indY, 0x53)] ∧
  ∀ (make : MemOperand → Instr) (result : Nat → Nat → Nat) (out : Nat) (combine : Byte → Byte → Byte),
    (make, result, out, combine) = (Instr.slo, fun m _ => 2 * m, 7, fun a r => a ||| r) ∨
    (make, result, out, combine) = (Instr.rla, fun m c => 2 * m + c, 7, fun a r => a &&& r) ∨
    (make, result, out, combine) = (Instr.sre, fun m _ => m / 2, 0, fun a r => a ^^^ r) →
    ∀ (m : MemOperand) (s : State), (make m).wellFormed = true → ∃ u q,
      let f := fun b : Byte => BitVec.ofNat 8 (result b.toNat (isBitSet s.p .c).toNat)
      let b := (memRead (resolve m s).ea s).1
      exec (make m) s = .next { u with a := combine s.a (f b), p := q } ∧ ModifiedAt (resolve m s).ea f s u ∧
      NZCFrom (combine s.a (f b)) (b.getLsbD out) s.p q

/-- O43. DCP decrements memory and compares, ISC increments and subtracts, RRA rotates right and adds. That D has no
part in ISC and RRA is the spec's decision D1. Derived from 44_undocumented.md section 2 (R244 to R246);
92_eei_decisions.md D1. -/
def Obligations.ArithmeticCombinationEffect : Prop :=
  EncodesAs .dcp [(.zp, 0xC7), (.zpX, 0xD7), (.abs, 0xCF), (.absX, 0xDF), (.absY, 0xDB), (.indX, 0xC3), (.indY, 0xD3)] ∧
  EncodesAs .isc [(.zp, 0xE7), (.zpX, 0xF7), (.abs, 0xEF), (.absX, 0xFF), (.absY, 0xFB), (.indX, 0xE3), (.indY, 0xF3)] ∧
  EncodesAs .rra [(.zp, 0x67), (.zpX, 0x77), (.abs, 0x6F), (.absX, 0x7F), (.absY, 0x7B), (.indX, 0x63), (.indY, 0x73)] ∧
  ∀ (m : MemOperand) (s : State),
    let ea := (resolve m s).ea
    let b := (memRead ea s).1
    let c := isBitSet s.p .c
    ((Instr.dcp m).wellFormed = true → ∃ u q,
      let r := BitVec.ofNat 8 (b.toNat + 255)
      exec (.dcp m) s = .next { u with p := q } ∧ ModifiedAt ea (fun b => BitVec.ofNat 8 (b.toNat + 255)) s u ∧
      isBitSet q .c = decide (r.toNat ≤ s.a.toNat) ∧ isBitSet q .z = decide (s.a = r) ∧
      isBitSet q .n = (s.a - r).getLsbD 7 ∧ FlagsKept [.c, .z, .n] s.p q) ∧
    ((Instr.isc m).wellFormed = true → ∃ u,
      let r := BitVec.ofNat 8 (b.toNat + 1)
      exec (.isc m) s = .next { u with a := addResult s.a (~~~r) c, p := addFlags s.a (~~~r) c s.p } ∧
      ModifiedAt ea (fun b => BitVec.ofNat 8 (b.toNat + 1)) s u) ∧
    ((Instr.rra m).wellFormed = true → ∃ u,
      let r := BitVec.ofNat 8 (b.toNat / 2 + 128 * c.toNat)
      exec (.rra m) s = .next { u with
        a := addResult s.a r (b.getLsbD 0), p := addFlags s.a r (b.getLsbD 0) s.p } ∧
      ModifiedAt ea (fun b => BitVec.ofNat 8 (b.toNat / 2 + 128 * c.toNat)) s u)

/-- O44. ANC, ALR and SBX combine A with their immediate: AND with carry from bit 7, AND and shift, AND with X and
subtract. States R249, R250, R254. -/
def Obligations.ImmediateCombinationEffect : Prop :=
  (∀ b : Byte, encode (.anc 0x0B b) = [0x0B, b] ∧ encode (.anc 0x2B b) = [0x2B, b] ∧ encode (.alr b) = [0x4B, b] ∧
    encode (.sbx b) = [0xCB, b]) ∧
  ∀ (b : Byte) (s : State),
    (∀ op, op = 0x0B ∨ op = 0x2B → ∃ q, exec (.anc op b) s = .next { s with a := s.a &&& b, p := q } ∧
      NZCFrom (s.a &&& b) (isBitSet q .n) s.p q) ∧
    (∃ r q, exec (.alr b) s = .next { s with a := r, p := q } ∧ r.toNat = (s.a &&& b).toNat / 2 ∧
      isBitSet q .n = false ∧ NZCFrom r ((s.a &&& b).getLsbD 0) s.p q) ∧
    (∃ r q, exec (.sbx b) s = .next { s with x := r, p := q } ∧
      r.toNat = ((s.a &&& s.x).toNat + 256 - b.toNat) % 256 ∧
      NZCFrom r (decide (b.toNat ≤ (s.a &&& s.x).toNat)) s.p q)

/-- O45. ARR, ANE and LXA, with the magic constants as parameters of the run (decision D7) and no decimal mode (D1).
Derived from 44_undocumented.md section 4 (R251, R252, R253); 92_eei_decisions.md D1, D7. -/
def Obligations.DecidedImmediateEffect : Prop :=
  (∀ b : Byte, encode (.arr b) = [0x6B, b] ∧ encode (.ane b) = [0x8B, b] ∧ encode (.lxa b) = [0xAB, b]) ∧
  ∀ (b : Byte) (s : State),
    (∃ r q, exec (.arr b) s = .next { s with a := r, p := q } ∧
      r.toNat = (s.a &&& b).toNat / 2 + 128 * (isBitSet s.p .c).toNat ∧
      isBitSet q .n = r.getLsbD 7 ∧ isBitSet q .z = decide (r = 0) ∧ isBitSet q .c = r.getLsbD 6 ∧
      isBitSet q .v = (r.getLsbD 6 ^^ r.getLsbD 5) ∧ FlagsKept [.n, .z, .c, .v] s.p q) ∧
    (∃ q, exec (.ane b) s = .next { s with a := (s.a ||| s.cfg.aneMagic) &&& s.x &&& b, p := q } ∧
      NZFrom ((s.a ||| s.cfg.aneMagic) &&& s.x &&& b) s.p q) ∧
    (∃ q, exec (.lxa b) s = .next { s with
        a := (s.a ||| s.cfg.lxaMagic) &&& b, x := (s.a ||| s.cfg.lxaMagic) &&& b, p := q } ∧
      NZFrom ((s.a ||| s.cfg.lxaMagic) &&& b) s.p q)

/-- O46. The effective address of each memory operand: wraps in the zero page, sums modulo 2^16, pointers low byte
first. That the sums of AbsoluteX, AbsoluteY and IndirectY wrap modulo 2^16 is the spec's decision D12. Derived from
40_addressing_load_store.md section 1 (R134 to R141); 92_eei_decisions.md D12. -/
def Obligations.EffectiveAddresses : Prop :=
  ∀ (s : State) (z : Byte) (w : Word),
    (resolve (.zp z) s).ea.toNat = z.toNat ∧
    (resolve (.zpX z) s).ea.toNat = (z.toNat + s.x.toNat) % 256 ∧
    (resolve (.zpY z) s).ea.toNat = (z.toNat + s.y.toNat) % 256 ∧
    (resolve (.abs w) s).ea = w ∧
    (resolve (.absX w) s).ea.toNat = (w.toNat + s.x.toNat) % 0x10000 ∧
    (resolve (.absY w) s).ea.toNat = (w.toNat + s.y.toNat) % 0x10000 ∧
    (∃ lo hi, peek (BitVec.ofNat 16 ((z.toNat + s.x.toNat) % 256)) s = some lo ∧
      peek (BitVec.ofNat 16 ((z.toNat + s.x.toNat + 1) % 256)) s = some hi ∧
      (resolve (.indX z) s).ea = mkWord hi lo) ∧
    (∃ lo hi, peek (BitVec.ofNat 16 z.toNat) s = some lo ∧ peek (BitVec.ofNat 16 ((z.toNat + 1) % 256)) s = some hi ∧
      (resolve (.indY z) s).ea.toNat = (hi.toNat * 256 + lo.toNat + s.y.toNat) % 0x10000) ∧
    (∀ m : MemOperand, (resolve m s).state = s)

/-- O47. Only the read-only instructions in AbsoluteX, AbsoluteY and IndirectY pay one cycle when indexing crosses a
page. States R144. -/
def Obligations.PageCrossCycle : Prop :=
  (∀ (m : MemOperand) (s : State) (base : Word) (index : Byte),
    m = .absX base ∧ index = s.x ∨ m = .absY base ∧ index = s.y ∨
      (∃ z, m = .indY z ∧ index = s.y ∧ peek (zext16 z) s = some (loByte base) ∧ peek (zext16 (z + 1)) s = some (hiByte base)) →
    readM (.mem m) s = memRead (base + zext16 index)
      (if hiByte base = hiByte (base + zext16 index) then s else { s with extra := s.extra + 1 })) ∧
  (∀ (m : MemOperand) (s : State), m.mode ∈ [MemMode.zp, .zpX, .zpY, .abs, .indX] →
    readM (.mem m) s = memRead (resolve m s).ea s) ∧
  (∀ (i : Instr) (m : MemOperand) (s t : State),
    i ∈ [.sta m, .stx m, .sty m, .sax m, .sha m, .inc m, .dec m, .asl (.mem m), .lsr (.mem m), .rol (.mem m), .ror (.mem m),
      .slo m, .rla m, .sre m, .rra m, .dcp m, .isc m] → exec i s = .next t → t.extra = s.extra) ∧
  (∀ (i : Instr) (w : Word) (s t : State), i ∈ [.shx w, .shy w, .tas w] → exec i s = .next t → t.extra = s.extra)

/-- O48. Every address below 0x2000 is the internal RAM byte a AND 0x07FF: four mirrors, no side effect on reading.
The mask form of R67 is the spec's own inference from the mirror rule. Derived from 20_memory.md section 2 (R67). -/
def Obligations.RamMirrors : Prop :=
  ∀ (s : State) (a : Word) (v : Byte), s.cfg.bus = .nesMap → a.toNat ≤ 0x1FFF →
    memRead a s = (s.ram.read .ram (a.toNat % 0x800), s) ∧
    memWrite a v s = { s with ram := (memWrite a v s).ram } ∧
    (∀ b : Word, b.toNat ≤ 0x1FFF → b.toNat % 0x800 = a.toNat % 0x800 →
      memRead b (memWrite a v s) = (v, memWrite a v s)) ∧
    (∀ b : Word, ¬(b.toNat ≤ 0x1FFF ∧ b.toNat % 0x800 = a.toNat % 0x800) → peek b (memWrite a v s) = peek b s)

/-- O49. A byte of memory reads, and fetches, as what was last written to it; a word written reads back. Derived from
20_memory.md sections 1 and 3 (R62, R85, R90); 92_eei_decisions.md D11, D43. -/
def Obligations.ReadSeesLastWrite : Prop :=
  (∀ (s : State) (a b : Word) (v : Byte) (c : Store × Nat), cellOf s.cfg.bus a = some c → cellOf s.cfg.bus b = some c →
    memRead b (memWrite a v s) = (v, memWrite a v s) ∧
    fetch ((memWrite a v s).setPc b) = (v, (memWrite a v s).setPc (b + 1))) ∧
  (∀ (s : State) (a : Word) (v : Byte), MemoryKeptBut a s (memWrite a v s)) ∧
  (∀ (s : State) (a w : Word) (c d : Store × Nat), cellOf s.cfg.bus a = some c → cellOf s.cfg.bus (a + 1) = some d → c ≠ d →
    readWord a (writeWord a w s) = (w, writeWord a w s) ∧
    peek a (writeWord a w s) = some (loByte w) ∧ peek (a + 1) (writeWord a w s) = some (hiByte w))

/-- O50. What a read of each NesMap address gives and changes: Status, Data, the ports and unmapped addresses change
something. That a read through a PPU mirror passes the CPU's own address to the oracle and the log is the model's
choice (log entry 43). Derived from 20_memory.md section 2 (R66, R76); 61_ppu.md section 2 (R313, R317, R320, R322);
62_devices.md sections 2 and 3 (R373 to R375); 92_eei_decisions.md D20, D21, D29, D46. -/
def Obligations.ReadSideEffects : Prop :=
  ∀ (s : State) (a : Word), s.cfg.bus = .nesMap →
    let v := (memRead a s).1
    let t := (memRead a s).2
    let inPpu := 0x2000 ≤ a.toNat ∧ a.toNat ≤ 0x3FFF
    (inPpu ∧ a.toNat % 8 = 2 →
      v.getLsbD 7 = s.ppu.vblank ∧ v.getLsbD 6 = s.ppu.spriteHitZero ∧ v.getLsbD 5 = s.ppu.spriteOverflow ∧
      (∀ i, i < 5 → v.getLsbD i = (Config.extRead a s.events s.reads).getLsbD i) ∧
      t = { s with
        ppu := { s.ppu with vblank := false, addrLatch := .high, scrollLatch := .first }
        events := s.events ++ [.portRead a (v &&& 0x1F)], reads := s.reads + 1 }) ∧
    (inPpu ∧ a.toNat % 8 = 7 → t = { s with ppu := { s.ppu with v := t.ppu.v, buffer := t.ppu.buffer } }) ∧
    (inPpu ∧ a.toNat % 8 = 4 → memRead a s = (oamByte s s.ppu.oamAddr.toNat, s)) ∧
    (inPpu ∧ a.toNat % 8 ∈ [0, 1, 3, 5, 6] ∨ 0x4000 ≤ a.toNat ∧ a.toNat ≤ 0x4017 →
      memRead a s = (Config.extRead a s.events s.reads, { s with
        events := s.events ++ [.portRead a (Config.extRead a s.events s.reads)], reads := s.reads + 1 })) ∧
    (0x4018 ≤ a.toNat ∧ a.toNat ≤ 0x5FFF →
      memRead a s = (0, { s with events := s.events ++ [.diag (.unmapped .read) a] })) ∧
    (a.toNat ≤ 0x1FFF ∨ 0x6000 ≤ a.toNat → t = s ∧ peek a s = some v)

/-- O51. An access to an address no region claims logs a diagnostic; a read gives 0, so a fetch there is a BRK, which
the spec infers from R64 and R103. That the diagnostic's kind carries the direction is the model's reading of R64 and
D40 (log entry 7). Derived from 20_memory.md section 2 (R64, R65); 30_encoding.md section 2 (R103); 60_exceptions.md
section 5 (R294); 92_eei_decisions.md D40. -/
def Obligations.UnmappedAccess : Prop :=
  ∀ (s : State) (a : Word), ownerOf s.cfg.bus a = none →
    memRead a s = (0, { s with events := s.events ++ [.diag (.unmapped .read) a] }) ∧
    (∀ v : Byte, memWrite a v s = { s with events := s.events ++ [.diag (.unmapped .write) a] }) ∧
    (s.pc = a → (fetchInstr s).2.1 = .ok (.brk, []) ∧
      (fetchInstr s).2.2 = { s with pc := a + 1, events := s.events ++ [.diag (.unmapped .read) a] })

/-- O52. The owner of every address on both buses; the regions are disjoint, and the first registered wins; what
adding, removing and clearing regions does to the address found. That removal takes out every registration of the
region is the model's choice (log entry 44). Derived from 20_memory.md section 2 (R63, R64, R66, R74, R78, R79);
92_eei_decisions.md D30, D35. -/
def Obligations.MemoryMap : Prop :=
  (∀ a : Word,
    (a.toNat ≤ 0x1FFF → ownerOf .nesMap a = some .ram) ∧
    (0x2000 ≤ a.toNat ∧ a.toNat ≤ 0x3FFF → ownerOf .nesMap a = some .ppu) ∧
    ((0x4000 ≤ a.toNat ∧ a.toNat ≤ 0x4013) ∨ a.toNat = 0x4015 → ownerOf .nesMap a = some .apu) ∧
    (a.toNat = 0x4014 → ownerOf .nesMap a = some .oamDma) ∧
    (a.toNat = 0x4016 ∨ a.toNat = 0x4017 → ownerOf .nesMap a = some .joypad) ∧
    (0x4018 ≤ a.toNat ∧ a.toNat ≤ 0x5FFF → ownerOf .nesMap a = none) ∧
    (0x6000 ≤ a.toNat ∧ a.toNat ≤ 0x7FFF → ownerOf .nesMap a = some .wram) ∧
    (0x8000 ≤ a.toNat → ownerOf .nesMap a = some .prg) ∧
    ownerOf .flatRam a = some .flat) ∧
  nesMapRegions.Pairwise (fun r q => r.range.last < q.range.first) ∧
  (flatRamRegions.map fun r => r.range.extent) = [65536] ∧
  (∀ (before after : List Region) (r : Region) (a : Word), (∀ q ∈ before, q.range.contains a.toNat = false) →
    r.range.contains a.toNat = true → findRegion (before ++ r :: after) a = some r) ∧
  (∀ (regions : List Region) (r : Region) (a : Word), findRegion (addMemoryRegion regions r) a =
    match findRegion regions a with
    | some q => some q
    | none => if r.range.contains a.toNat = true then some r else none) ∧
  (∀ (regions : List Region) (r : Region) (a : Word), findRegion (removeMemoryRegion regions r) a ≠ some r ∧
    (findRegion regions a ≠ some r → findRegion (removeMemoryRegion regions r) a = findRegion regions a)) ∧
  (∀ (regions : List Region) (a : Word), findRegion (clearMemoryRegions regions) a = none) ∧
  (∃ r : Region, flatRamRegions = addMemoryRegion (clearMemoryRegions nesMapRegions) r)

/-- O53. PRG reads go to the bank byte, mirrored for one bank; CHR reads to its byte; writes to both are only logged.
That the log entry is the event RomWrite is the spec's decision D40, and that a write in pattern space gives it is its
decision D45 (log entry 33). Derived from 62_devices.md section 4 (R381, R382, R383); 20_memory.md section 2 (R73);
61_ppu.md section 3 (R331); 92_eei_decisions.md D40, D45. -/
def Obligations.PrgAndChrAreReadOnly : Prop :=
  (∀ (s : State) (a : Word), s.cfg.bus = .nesMap → 0x8000 ≤ a.toNat →
    memRead a s = (s.cfg.cart.prg.romRead ((a.toNat - 0x8000) % prgBytes s.cfg.cart.banks), s) ∧
    (s.cfg.cart.banks = .single → a.toNat < 0xC000 → (memRead (a + 0x4000) s).1 = (memRead a s).1) ∧
    (s.cfg.cart.banks = .dual → (memRead a s).1 = s.cfg.cart.prg.romRead (a.toNat - 0x8000)) ∧
    ∀ v : Byte, memWrite a v s = { s with events := s.events ++ [.diag .romWrite a] }) ∧
  (∀ (s : State) (a : Word), a.toNat ≤ 0x1FFF →
    ppuRead a s = s.cfg.cart.chr.romRead a.toNat ∧
    ∀ v : Byte, ppuWrite a v s = { s with events := s.events ++ [.diag .romWrite a] })

/-- O54. A write to 0x4014 copies a page into OAM and owes the stall (D28); a write to any other port is only logged
(D29). Derived from 62_devices.md sections 2 and 3 (R371, R372, R374, R375); 92_eei_decisions.md D28, D29. -/
def Obligations.OamDmaAndPortWrites : Prop :=
  (∀ (s : State) (v : Byte), s.cfg.bus = .nesMap →
    let t := memWrite 0x4014 v s
    WriteEffect s t ∧ MemoryKept s t ∧ t.ppu.oamAddr = s.ppu.oamAddr ∧
    t.dmaStall = s.dmaStall + s.cfg.oamDmaStallCycles ∧
    ((v.toNat < 0x20 ∨ 0x60 ≤ v.toNat) →
      t = { s with ppu := { s.ppu with oam := t.ppu.oam }, dmaStall := t.dmaStall } ∧
      ∀ i, i < 256 → peek (BitVec.ofNat 16 (v.toNat * 256 + i)) s = some (oamByte t ((s.ppu.oamAddr.toNat + i) % 256)))) ∧
  (∀ (s : State) (a : Word) (v : Byte), s.cfg.bus = .nesMap → 0x4000 ≤ a.toNat → a.toNat ≤ 0x4017 → a.toNat ≠ 0x4014 →
    memWrite a v s = { s with events := s.events ++ [.portWrite a v] })

/-- O55. What a write to each PPU register changes, at every mirror of it. Derived from 61_ppu.md section 2 (R311,
R312, R314, R315, R316, R319, R321, R323); 92_eei_decisions.md D15, D21, D48, D49. -/
def Obligations.PpuRegisterWrites : Prop :=
  ∀ (s : State) (a : Word) (v : Byte), s.cfg.bus = .nesMap → 0x2000 ≤ a.toNat → a.toNat ≤ 0x3FFF →
    let t := memWrite a v s
    (a.toNat % 8 = 0 → t = { s with ppu := { s.ppu with
      ctrl := v
      nmiPending := if s.ppu.ctrl.getLsbD 7 = false ∧ v.getLsbD 7 = true ∧ s.ppu.vblank = true then true
        else s.ppu.nmiPending } }) ∧
    (a.toNat % 8 = 1 → t = { s with ppu := { s.ppu with mask := v } }) ∧
    (a.toNat % 8 = 2 → t = s) ∧
    (a.toNat % 8 = 3 → t = { s with ppu := { s.ppu with oamAddr := v } }) ∧
    (a.toNat % 8 = 4 → t = { s with ppu := { s.ppu with oam := t.ppu.oam, oamAddr := s.ppu.oamAddr + 1 } } ∧
      oamByte t s.ppu.oamAddr.toNat = v ∧ ∀ i, i ≠ s.ppu.oamAddr.toNat → oamByte t i = oamByte s i) ∧
    (a.toNat % 8 = 5 → t = { s with ppu := match s.ppu.scrollLatch with
      | .first => { s.ppu with scrollX := v, scrollLatch := .second }
      | .second => { s.ppu with scrollY := v, scrollLatch := .first } }) ∧
    (a.toNat % 8 = 6 → t = { s with ppu := match s.ppu.addrLatch with
      | .high => { s.ppu with v := BitVec.ofNat 16 ((v.toNat * 256 + s.ppu.v.toNat % 256) % 0x4000), addrLatch := .low }
      | .low => { s.ppu with v := BitVec.ofNat 16 ((s.ppu.v.toNat / 256 * 256 + v.toNat) % 0x4000), addrLatch := .high } })

/-- O56. A Data read returns the previous buffered byte outside palette space, and PPU.v advances by 1 or 32. Derived
from 61_ppu.md section 2 (R317); 92_eei_decisions.md D16, D18, D19. -/
def Obligations.DataReadIsBuffered : Prop :=
  ∀ (s : State) (a : Word), s.cfg.bus = .nesMap → 0x2000 ≤ a.toNat → a.toNat ≤ 0x3FFF → a.toNat % 8 = 7 →
    let next := BitVec.ofNat 16 ((s.ppu.v.toNat + (if s.ppu.ctrl.getLsbD 2 = true then 32 else 1)) % 0x4000)
    (s.ppu.v.toNat < 0x3F00 → memRead a s = (s.ppu.buffer, s.setPpu { s.ppu with
      buffer := ppuRead s.ppu.v s, v := next })) ∧
    (0x3F00 ≤ s.ppu.v.toNat → memRead a s = (paletteByte s (palIndex s.ppu.v), s.setPpu { s.ppu with v := next })) ∧
    (s.ppu.v.toNat < 0x3F00 → next.toNat < 0x3F00 → (memRead a (memRead a s).2).1 = ppuRead s.ppu.v s)

/-- O57. A Data write stores at PPU.v in VRAM or palette, logs in pattern space, keeps the buffer, and advances PPU.v.
The 14-bit mask after the access is the spec's decision D16, that 0x3000 to 0x3EFF reach VRAM is its decision D17
(R333, log entry 22), the palette index and its whole bytes are D19, and the log entry in pattern space is D45 (log
entry 33). Derived from 61_ppu.md section 2 (R318); 61_ppu.md section 3 (R330 to R334); 92_eei_decisions.md D16, D17,
D19, D45. -/
def Obligations.DataWriteReachesPpuSpace : Prop :=
  (∀ (a : Word) (s : State),
    (a.toNat ≤ 0x1FFF → ppuRead a s = readChr s.cfg.cart a) ∧
    (0x2000 ≤ a.toNat ∧ a.toNat ≤ 0x3EFF → ppuRead a s = vramByte s (ntIndex s.cfg.cart.mirroring a)) ∧
    (0x3F00 ≤ a.toNat → ppuRead a s = paletteByte s (palIndex a))) ∧
  (∀ (s : State) (a : Word) (v : Byte), s.cfg.bus = .nesMap → 0x2000 ≤ a.toNat → a.toNat ≤ 0x3FFF → a.toNat % 8 = 7 →
    let t := memWrite a v s
    let next := BitVec.ofNat 16 ((s.ppu.v.toNat + (if s.ppu.ctrl.getLsbD 2 = true then 32 else 1)) % 0x4000)
    (s.ppu.v.toNat ≤ 0x1FFF → t = { s with
      ppu := { s.ppu with v := next }, events := s.events ++ [.diag .romWrite s.ppu.v] }) ∧
    (0x2000 ≤ s.ppu.v.toNat ∧ s.ppu.v.toNat ≤ 0x3EFF →
      t = { s with ppu := { s.ppu with v := next, vram := t.ppu.vram } } ∧
      ∀ i, vramByte t i = if i = ntIndex s.cfg.cart.mirroring s.ppu.v then v else vramByte s i) ∧
    (0x3F00 ≤ s.ppu.v.toNat →
      t = { s with ppu := { s.ppu with v := next, palette := t.ppu.palette } } ∧
      ∀ i, paletteByte t i = if i = palIndex s.ppu.v then v else paletteByte s i)) ∧
  (∀ s : State, s.cfg.bus = .nesMap → s.ppu.addrLatch = .high → s.ppu.ctrl.getLsbD 2 = false →
    let t := memWrite 0x2007 0x66 (memWrite 0x2006 0x05 (memWrite 0x2006 0x23 s))
    vramByte t 0x305 = 0x66 ∧ t.ppu.v = 0x2306 ∧ t.ppu.buffer = s.ppu.buffer)

/-- O58. Horizontal mirroring pairs nametables {0,1} and {2,3}; Vertical pairs {0,2} and {1,3}; a write shows at its
pair. That 0x3000 to 0x3EFF mirror 0x2000 to 0x2EFF (R333) is the spec's decision D17 (log entry 22, unsafe). Derived
from 61_ppu.md section 3 (R330, R332, R333); 92_eei_decisions.md D17. -/
def Obligations.NametableMirroring : Prop :=
  ∀ (m : Mirroring) (a b : Word), 0x2000 ≤ a.toNat → a.toNat ≤ 0x3EFF → 0x2000 ≤ b.toNat → b.toNat ≤ 0x3EFF →
    let table := fun w : Word => (w.toNat - 0x2000) % 0x1000 / 0x400
    let same := a.toNat % 0x400 = b.toNat % 0x400 ∧
      (m = .horizontal ∧ table a / 2 = table b / 2 ∨ m = .vertical ∧ table a % 2 = table b % 2)
    (ntIndex m a = ntIndex m b ↔ same) ∧ ntIndex m a < 0x800 ∧
    ∀ (s : State) (v : Byte), s.cfg.cart.mirroring = m →
      (same → ppuRead b (ppuWrite a v s) = v) ∧ (¬same → ppuRead b (ppuWrite a v s) = ppuRead b s)

/-- O59. Palette entries repeat every 32 bytes, and 0x3F10, 14, 18, 1C are 0x3F00, 04, 08, 0C; whole bytes are stored.
Derived from 61_ppu.md section 3 (R334); 92_eei_decisions.md D19. -/
def Obligations.PaletteMirrors : Prop :=
  ∀ a b : Word, 0x3F00 ≤ a.toNat → a.toNat ≤ 0x3FFF → 0x3F00 ≤ b.toNat → b.toNat ≤ 0x3FFF →
    let fold := fun w : Word => if w.toNat % 32 ∈ [0x10, 0x14, 0x18, 0x1C] then w.toNat % 32 - 0x10 else w.toNat % 32
    (palIndex a = palIndex b ↔ fold a = fold b) ∧ palIndex a < 32 ∧ palIndex a ∉ [0x10, 0x14, 0x18, 0x1C] ∧
    ∀ (s : State) (v : Byte),
      (fold a = fold b → ppuRead b (ppuWrite a v s) = v) ∧ (fold a ≠ fold b → ppuRead b (ppuWrite a v s) = ppuRead b s)

/-- O60. An image is accepted exactly if its header passes every check and it is long enough; its bytes become PRG and
CHR. Derived from 62_devices.md section 5 (R384 to R387); 92_eei_decisions.md D27, D38, D39, D50. -/
def Obligations.ImageValidation : Prop :=
  ∀ image : List Byte,
    let b := fun i => (image.getD i 0).toNat
    let accepted := 16 ≤ image.length ∧ b 0 = 0x4E ∧ b 1 = 0x45 ∧ b 2 = 0x53 ∧ b 6 / 4 % 2 = 0 ∧ b 7 / 4 % 4 ≠ 2 ∧
      b 7 / 16 = 0 ∧ b 6 / 16 = 0 ∧ (b 4 = 1 ∨ b 4 = 2) ∧ b 5 = 1 ∧ b 6 / 8 % 2 = 0 ∧
      16 + 16384 * b 4 + 8192 * b 5 ≤ image.length
    (accepted → ∃ cart, loadImage image = .ok cart ∧ State.bootImage image = .next (State.boot (RunConfig.ofCart cart)) ∧
      cartWf cart = true ∧ prgBytes cart.banks = 16384 * b 4 ∧
      (cart.mirroring = .vertical ↔ b 6 % 2 = 1) ∧ cart.mapperId = 0 ∧
      (∀ i, i < 16384 * b 4 → cart.prg.romRead i = image.getD (16 + i) 0) ∧
      (∀ i, i < 8192 → cart.chr.romRead i = image.getD (16 + 16384 * b 4 + i) 0)) ∧
    (¬accepted → ∃ kind, loadImage image = .error kind ∧ State.bootImage image = .refused (.romFormat kind))

end
end

