-- ==== Sys2Proof/Laws/Memory.lean ====
section
/-! SUPPORT. The sparse memories: read after write, and the canonical form kept by every operation. -/

namespace Sys2Proof.Laws

@[simp] theorem get?_set_same (m : Memory) (i : Nat) (v : Byte) : (m.set i v).get? i = some v := by
  induction m with
  | nil => simp [Memory.set, Memory.get?]
  | cons c rest ih =>
    obtain ⟨k, b⟩ := c
    simp only [Memory.set]
    split
    · simp [Memory.get?]
    · split
      · simp [Memory.get?]
      · rename_i h1 h2
        rw [Memory.get?, if_neg (fun h => h2 h.symm), ih]

@[simp] theorem get?_set_other (m : Memory) {i j : Nat} (v : Byte) (h : i ≠ j) :
    (m.set i v).get? j = m.get? j := by
  induction m with
  | nil => simp [Memory.set, Memory.get?, h]
  | cons c rest ih =>
    obtain ⟨k, b⟩ := c
    simp only [Memory.set]
    split
    · simp [Memory.get?, h]
    · split
      · rename_i h1 h2
        subst h2
        simp [Memory.get?, h]
      · simp [Memory.get?, ih]

@[simp] theorem read_set_same (store : Store) (m : Memory) (i : Nat) (v : Byte) :
    (m.set i v).read store i = v := by
  simp [Memory.read]

@[simp] theorem read_set_other (store : Store) (m : Memory) {i j : Nat} (v : Byte) (h : i ≠ j) :
    (m.set i v).read store j = m.read store j := by
  simp [Memory.read, h]

/-- An entry of an updated memory is the new one or an old one. -/
theorem mem_set {m : Memory} {i : Nat} {v : Byte} {c : Host.Cell} (h : c ∈ m.set i v) : c = (i, v) ∨ c ∈ m := by
  induction m with
  | nil => simpa [Memory.set] using h
  | cons d rest ih =>
    obtain ⟨k, b⟩ := d
    simp only [Memory.set] at h
    split at h
    · simpa using h
    · split at h
      · rcases List.mem_cons.1 h with h | h
        · exact .inl h
        · exact .inr (List.mem_cons_of_mem _ h)
      · rcases List.mem_cons.1 h with h | h
        · exact .inr (h ▸ List.mem_cons_self)
        · rcases ih h with h | h
          · exact .inl h
          · exact .inr (List.mem_cons_of_mem _ h)

/-- What "rising" says of a nonempty memory: every later index is above the first, and the rest is rising. -/
theorem rising_cons {k : Nat} {b : Byte} {rest : Memory} :
    Memory.rising ((k, b) :: rest) = true ↔ (∀ c ∈ rest, k < c.1) ∧ rest.rising = true := by
  induction rest generalizing k b with
  | nil => simp [Memory.rising]
  | cons d rest ih =>
    obtain ⟨j, b'⟩ := d
    rw [Memory.rising, Bool.and_eq_true, decide_eq_true_iff, ih]
    constructor
    · rintro ⟨hkj, hrest, hr⟩
      refine ⟨?_, hrest, hr⟩
      intro c hc
      rcases List.mem_cons.1 hc with rfl | hc
      · exact hkj
      · exact Nat.lt_trans hkj (hrest c hc)
    · rintro ⟨hall, hrest, hr⟩
      exact ⟨hall (j, b') List.mem_cons_self, hrest, hr⟩

theorem rising_set {m : Memory} (i : Nat) (v : Byte) (h : m.rising = true) : (m.set i v).rising = true := by
  induction m with
  | nil => simp [Memory.set, Memory.rising]
  | cons d rest ih =>
    obtain ⟨k, b⟩ := d
    have hd := rising_cons.1 h
    simp only [Memory.set]
    split
    · rename_i hik
      refine rising_cons.2 ⟨?_, h⟩
      intro c hc
      rcases List.mem_cons.1 hc with rfl | hc
      · exact hik
      · exact Nat.lt_trans hik (hd.1 c hc)
    · split
      · rename_i h1 h2
        subst h2
        exact rising_cons.2 hd
      · rename_i h1 h2
        refine rising_cons.2 ⟨?_, ih hd.2⟩
        intro c hc
        rcases mem_set hc with rfl | hc
        · simp only; omega
        · exact hd.1 c hc

theorem wf_iff {size : Nat} {m : Memory} :
    m.wf size = true ↔ m.rising = true ∧ ∀ c ∈ m, c.1 < size := by
  simp [Memory.wf, List.all_eq_true]

@[simp] theorem wf_nil (size : Nat) : Memory.wf size [] = true := by simp [Memory.wf, Memory.rising]

/-- Writing a byte inside a memory keeps its canonical form. -/
theorem wf_set {size : Nat} {m : Memory} {i : Nat} (v : Byte) (hi : i < size) (h : m.wf size = true) :
    (m.set i v).wf size = true := by
  rw [wf_iff] at h ⊢
  refine ⟨rising_set i v h.1, fun c hc => ?_⟩
  rcases mem_set hc with rfl | hc
  · exact hi
  · exact h.2 c hc

theorem mem_erase {m : Memory} {i : Nat} {c : Host.Cell} (h : c ∈ m.erase i) : c ∈ m := by
  induction m with
  | nil => simp [Memory.erase] at h
  | cons d rest ih =>
    obtain ⟨k, b⟩ := d
    simp only [Memory.erase] at h
    split at h
    · exact List.mem_cons_of_mem _ h
    · rcases List.mem_cons.1 h with h | h
      · exact h ▸ List.mem_cons_self
      · exact List.mem_cons_of_mem _ (ih h)

theorem rising_erase {m : Memory} (i : Nat) (h : m.rising = true) : (m.erase i).rising = true := by
  induction m with
  | nil => simp [Memory.erase, Memory.rising]
  | cons d rest ih =>
    obtain ⟨k, b⟩ := d
    have hd := rising_cons.1 h
    simp only [Memory.erase]
    split
    · exact hd.2
    · exact rising_cons.2 ⟨fun c hc => hd.1 c (mem_erase hc), ih hd.2⟩

theorem romWf_iff {size : Nat} {m : Memory} :
    m.romWf size = true ↔ m.rising = true ∧ ∀ c ∈ m, c.1 < size ∧ c.2 ≠ 0 := by
  simp only [Memory.romWf, Bool.and_eq_true, wf_iff, List.all_eq_true, bne_iff_ne]
  constructor
  · rintro ⟨⟨hr, hs⟩, hz⟩
    exact ⟨hr, fun c hc => ⟨hs c hc, hz c hc⟩⟩
  · rintro ⟨hr, h⟩
    exact ⟨⟨hr, fun c hc => (h c hc).1⟩, fun c hc => (h c hc).2⟩

/-- Setting a byte of a ROM image keeps its canonical form. -/
theorem romWf_romSet {size : Nat} {m : Memory} {i : Nat} (v : Byte) (hi : i < size) (h : m.romWf size = true) :
    (m.romSet i v).romWf size = true := by
  rw [romWf_iff] at h ⊢
  unfold Memory.romSet
  split
  · exact ⟨rising_erase i h.1, fun c hc => h.2 c (mem_erase hc)⟩
  · rename_i hv
    refine ⟨rising_set i v h.1, fun c hc => ?_⟩
    rcases mem_set hc with rfl | hc
    · exact ⟨hi, hv⟩
    · exact h.2 c hc

/-- The image of a list of bytes is canonical, and lists only indices of the list. -/
theorem romOfBytes_spec (i : Nat) (bytes : List Byte) :
    (Memory.romOfBytes i bytes).rising = true ∧
      ∀ c ∈ Memory.romOfBytes i bytes, i ≤ c.1 ∧ c.1 < i + bytes.length ∧ c.2 ≠ 0 := by
  induction bytes generalizing i with
  | nil => simp [Memory.romOfBytes, Memory.rising]
  | cons b rest ih =>
    obtain ⟨hr, hall⟩ := ih (i + 1)
    simp only [Memory.romOfBytes]
    split
    · refine ⟨hr, fun c hc => ?_⟩
      obtain ⟨h1, h2, h3⟩ := hall c hc
      simp only [List.length_cons]
      exact ⟨by omega, by omega, h3⟩
    · rename_i hb
      refine ⟨rising_cons.2 ⟨fun c hc => ?_, hr⟩, fun c hc => ?_⟩
      · have := (hall c hc).1
        omega
      · simp only [List.length_cons]
        rcases List.mem_cons.1 hc with rfl | hc
        · exact ⟨Nat.le_refl _, by simp, hb⟩
        · obtain ⟨h1, h2, h3⟩ := hall c hc
          exact ⟨by omega, by omega, h3⟩

/-- Reading the image of a list of bytes gives the list's byte, and 0x00 past its end. -/
theorem romRead_romOfBytes (bytes : List Byte) (i k : Nat) :
    (Memory.romOfBytes i bytes).romRead (i + k) = bytes.getD k 0 := by
  induction bytes generalizing i k with
  | nil => simp [Memory.romOfBytes, Memory.romRead, Memory.get?]
  | cons b rest ih =>
    have low : ∀ (m : Memory), (∀ c ∈ m, i < c.1) → m.get? i = none := by
      intro m
      induction m with
      | nil => simp [Memory.get?]
      | cons d rest ihm =>
        obtain ⟨j, b'⟩ := d
        intro h
        have hj := h (j, b') List.mem_cons_self
        rw [Memory.get?, if_neg (by simp only at hj; omega)]
        exact ihm fun c hc => h c (List.mem_cons_of_mem _ hc)
    cases k with
    | zero =>
      simp only [Memory.romOfBytes]
      split
      · rename_i hb
        rw [Nat.add_zero i, Memory.romRead, low _ (fun c hc => by have := ((romOfBytes_spec (i + 1) rest).2 c hc).1; omega)]
        simp [hb]
      · simp [Memory.romRead, Memory.get?]
    | succ k =>
      have hk : i + (k + 1) = i + 1 + k := by omega
      simp only [Memory.romOfBytes]
      split
      · rw [hk, ih]
        simp
      · rw [hk, Memory.romRead, Memory.get?, if_neg (by omega), ← Memory.romRead, ih]
        simp

end Sys2Proof.Laws
end

