-- ==== Sys2Proof/Laws/State.lean ====
section
/-! SUPPORT. What each update of State changes: one lemma per field per update. -/

namespace Sys2Proof.Laws

open Sys2Proof.Machine

section setA
variable (v : Byte) (s : State)
@[simp] theorem setA_a : (s.setA v).a = v := rfl
@[simp] theorem setA_x : (s.setA v).x = s.x := rfl
@[simp] theorem setA_y : (s.setA v).y = s.y := rfl
@[simp] theorem setA_sp : (s.setA v).sp = s.sp := rfl
@[simp] theorem setA_pc : (s.setA v).pc = s.pc := rfl
@[simp] theorem setA_p : (s.setA v).p = s.p := rfl
@[simp] theorem setA_ppu : (s.setA v).ppu = s.ppu := rfl
@[simp] theorem setA_ram : (s.setA v).ram = s.ram := rfl
@[simp] theorem setA_wram : (s.setA v).wram = s.wram := rfl
@[simp] theorem setA_flat : (s.setA v).flat = s.flat := rfl
@[simp] theorem setA_dmaStall : (s.setA v).dmaStall = s.dmaStall := rfl
@[simp] theorem setA_extra : (s.setA v).extra = s.extra := rfl
@[simp] theorem setA_tickCycles : (s.setA v).tickCycles = s.tickCycles := rfl
@[simp] theorem setA_irqLine : (s.setA v).irqLine = s.irqLine := rfl
@[simp] theorem setA_events : (s.setA v).events = s.events := rfl
@[simp] theorem setA_reads : (s.setA v).reads = s.reads := rfl
@[simp] theorem setA_cfg : (s.setA v).cfg = s.cfg := rfl
end setA

section setX
variable (v : Byte) (s : State)
@[simp] theorem setX_a : (s.setX v).a = s.a := rfl
@[simp] theorem setX_x : (s.setX v).x = v := rfl
@[simp] theorem setX_y : (s.setX v).y = s.y := rfl
@[simp] theorem setX_sp : (s.setX v).sp = s.sp := rfl
@[simp] theorem setX_pc : (s.setX v).pc = s.pc := rfl
@[simp] theorem setX_p : (s.setX v).p = s.p := rfl
@[simp] theorem setX_ppu : (s.setX v).ppu = s.ppu := rfl
@[simp] theorem setX_ram : (s.setX v).ram = s.ram := rfl
@[simp] theorem setX_wram : (s.setX v).wram = s.wram := rfl
@[simp] theorem setX_flat : (s.setX v).flat = s.flat := rfl
@[simp] theorem setX_dmaStall : (s.setX v).dmaStall = s.dmaStall := rfl
@[simp] theorem setX_extra : (s.setX v).extra = s.extra := rfl
@[simp] theorem setX_tickCycles : (s.setX v).tickCycles = s.tickCycles := rfl
@[simp] theorem setX_irqLine : (s.setX v).irqLine = s.irqLine := rfl
@[simp] theorem setX_events : (s.setX v).events = s.events := rfl
@[simp] theorem setX_reads : (s.setX v).reads = s.reads := rfl
@[simp] theorem setX_cfg : (s.setX v).cfg = s.cfg := rfl
end setX

section setY
variable (v : Byte) (s : State)
@[simp] theorem setY_a : (s.setY v).a = s.a := rfl
@[simp] theorem setY_x : (s.setY v).x = s.x := rfl
@[simp] theorem setY_y : (s.setY v).y = v := rfl
@[simp] theorem setY_sp : (s.setY v).sp = s.sp := rfl
@[simp] theorem setY_pc : (s.setY v).pc = s.pc := rfl
@[simp] theorem setY_p : (s.setY v).p = s.p := rfl
@[simp] theorem setY_ppu : (s.setY v).ppu = s.ppu := rfl
@[simp] theorem setY_ram : (s.setY v).ram = s.ram := rfl
@[simp] theorem setY_wram : (s.setY v).wram = s.wram := rfl
@[simp] theorem setY_flat : (s.setY v).flat = s.flat := rfl
@[simp] theorem setY_dmaStall : (s.setY v).dmaStall = s.dmaStall := rfl
@[simp] theorem setY_extra : (s.setY v).extra = s.extra := rfl
@[simp] theorem setY_tickCycles : (s.setY v).tickCycles = s.tickCycles := rfl
@[simp] theorem setY_irqLine : (s.setY v).irqLine = s.irqLine := rfl
@[simp] theorem setY_events : (s.setY v).events = s.events := rfl
@[simp] theorem setY_reads : (s.setY v).reads = s.reads := rfl
@[simp] theorem setY_cfg : (s.setY v).cfg = s.cfg := rfl
end setY

section setSp
variable (v : Byte) (s : State)
@[simp] theorem setSp_a : (s.setSp v).a = s.a := rfl
@[simp] theorem setSp_x : (s.setSp v).x = s.x := rfl
@[simp] theorem setSp_y : (s.setSp v).y = s.y := rfl
@[simp] theorem setSp_sp : (s.setSp v).sp = v := rfl
@[simp] theorem setSp_pc : (s.setSp v).pc = s.pc := rfl
@[simp] theorem setSp_p : (s.setSp v).p = s.p := rfl
@[simp] theorem setSp_ppu : (s.setSp v).ppu = s.ppu := rfl
@[simp] theorem setSp_ram : (s.setSp v).ram = s.ram := rfl
@[simp] theorem setSp_wram : (s.setSp v).wram = s.wram := rfl
@[simp] theorem setSp_flat : (s.setSp v).flat = s.flat := rfl
@[simp] theorem setSp_dmaStall : (s.setSp v).dmaStall = s.dmaStall := rfl
@[simp] theorem setSp_extra : (s.setSp v).extra = s.extra := rfl
@[simp] theorem setSp_tickCycles : (s.setSp v).tickCycles = s.tickCycles := rfl
@[simp] theorem setSp_irqLine : (s.setSp v).irqLine = s.irqLine := rfl
@[simp] theorem setSp_events : (s.setSp v).events = s.events := rfl
@[simp] theorem setSp_reads : (s.setSp v).reads = s.reads := rfl
@[simp] theorem setSp_cfg : (s.setSp v).cfg = s.cfg := rfl
end setSp

section setPc
variable (v : Word) (s : State)
@[simp] theorem setPc_a : (s.setPc v).a = s.a := rfl
@[simp] theorem setPc_x : (s.setPc v).x = s.x := rfl
@[simp] theorem setPc_y : (s.setPc v).y = s.y := rfl
@[simp] theorem setPc_sp : (s.setPc v).sp = s.sp := rfl
@[simp] theorem setPc_pc : (s.setPc v).pc = v := rfl
@[simp] theorem setPc_p : (s.setPc v).p = s.p := rfl
@[simp] theorem setPc_ppu : (s.setPc v).ppu = s.ppu := rfl
@[simp] theorem setPc_ram : (s.setPc v).ram = s.ram := rfl
@[simp] theorem setPc_wram : (s.setPc v).wram = s.wram := rfl
@[simp] theorem setPc_flat : (s.setPc v).flat = s.flat := rfl
@[simp] theorem setPc_dmaStall : (s.setPc v).dmaStall = s.dmaStall := rfl
@[simp] theorem setPc_extra : (s.setPc v).extra = s.extra := rfl
@[simp] theorem setPc_tickCycles : (s.setPc v).tickCycles = s.tickCycles := rfl
@[simp] theorem setPc_irqLine : (s.setPc v).irqLine = s.irqLine := rfl
@[simp] theorem setPc_events : (s.setPc v).events = s.events := rfl
@[simp] theorem setPc_reads : (s.setPc v).reads = s.reads := rfl
@[simp] theorem setPc_cfg : (s.setPc v).cfg = s.cfg := rfl
end setPc

section setP
variable (v : Byte) (s : State)
@[simp] theorem setP_a : (s.setP v).a = s.a := rfl
@[simp] theorem setP_x : (s.setP v).x = s.x := rfl
@[simp] theorem setP_y : (s.setP v).y = s.y := rfl
@[simp] theorem setP_sp : (s.setP v).sp = s.sp := rfl
@[simp] theorem setP_pc : (s.setP v).pc = s.pc := rfl
@[simp] theorem setP_p : (s.setP v).p = v := rfl
@[simp] theorem setP_ppu : (s.setP v).ppu = s.ppu := rfl
@[simp] theorem setP_ram : (s.setP v).ram = s.ram := rfl
@[simp] theorem setP_wram : (s.setP v).wram = s.wram := rfl
@[simp] theorem setP_flat : (s.setP v).flat = s.flat := rfl
@[simp] theorem setP_dmaStall : (s.setP v).dmaStall = s.dmaStall := rfl
@[simp] theorem setP_extra : (s.setP v).extra = s.extra := rfl
@[simp] theorem setP_tickCycles : (s.setP v).tickCycles = s.tickCycles := rfl
@[simp] theorem setP_irqLine : (s.setP v).irqLine = s.irqLine := rfl
@[simp] theorem setP_events : (s.setP v).events = s.events := rfl
@[simp] theorem setP_reads : (s.setP v).reads = s.reads := rfl
@[simp] theorem setP_cfg : (s.setP v).cfg = s.cfg := rfl
end setP

section setPpu
variable (v : Ppu) (s : State)
@[simp] theorem setPpu_a : (s.setPpu v).a = s.a := rfl
@[simp] theorem setPpu_x : (s.setPpu v).x = s.x := rfl
@[simp] theorem setPpu_y : (s.setPpu v).y = s.y := rfl
@[simp] theorem setPpu_sp : (s.setPpu v).sp = s.sp := rfl
@[simp] theorem setPpu_pc : (s.setPpu v).pc = s.pc := rfl
@[simp] theorem setPpu_p : (s.setPpu v).p = s.p := rfl
@[simp] theorem setPpu_ppu : (s.setPpu v).ppu = v := rfl
@[simp] theorem setPpu_ram : (s.setPpu v).ram = s.ram := rfl
@[simp] theorem setPpu_wram : (s.setPpu v).wram = s.wram := rfl
@[simp] theorem setPpu_flat : (s.setPpu v).flat = s.flat := rfl
@[simp] theorem setPpu_dmaStall : (s.setPpu v).dmaStall = s.dmaStall := rfl
@[simp] theorem setPpu_extra : (s.setPpu v).extra = s.extra := rfl
@[simp] theorem setPpu_tickCycles : (s.setPpu v).tickCycles = s.tickCycles := rfl
@[simp] theorem setPpu_irqLine : (s.setPpu v).irqLine = s.irqLine := rfl
@[simp] theorem setPpu_events : (s.setPpu v).events = s.events := rfl
@[simp] theorem setPpu_reads : (s.setPpu v).reads = s.reads := rfl
@[simp] theorem setPpu_cfg : (s.setPpu v).cfg = s.cfg := rfl
end setPpu

section setRam
variable (v : Memory) (s : State)
@[simp] theorem setRam_a : (s.setRam v).a = s.a := rfl
@[simp] theorem setRam_x : (s.setRam v).x = s.x := rfl
@[simp] theorem setRam_y : (s.setRam v).y = s.y := rfl
@[simp] theorem setRam_sp : (s.setRam v).sp = s.sp := rfl
@[simp] theorem setRam_pc : (s.setRam v).pc = s.pc := rfl
@[simp] theorem setRam_p : (s.setRam v).p = s.p := rfl
@[simp] theorem setRam_ppu : (s.setRam v).ppu = s.ppu := rfl
@[simp] theorem setRam_ram : (s.setRam v).ram = v := rfl
@[simp] theorem setRam_wram : (s.setRam v).wram = s.wram := rfl
@[simp] theorem setRam_flat : (s.setRam v).flat = s.flat := rfl
@[simp] theorem setRam_dmaStall : (s.setRam v).dmaStall = s.dmaStall := rfl
@[simp] theorem setRam_extra : (s.setRam v).extra = s.extra := rfl
@[simp] theorem setRam_tickCycles : (s.setRam v).tickCycles = s.tickCycles := rfl
@[simp] theorem setRam_irqLine : (s.setRam v).irqLine = s.irqLine := rfl
@[simp] theorem setRam_events : (s.setRam v).events = s.events := rfl
@[simp] theorem setRam_reads : (s.setRam v).reads = s.reads := rfl
@[simp] theorem setRam_cfg : (s.setRam v).cfg = s.cfg := rfl
end setRam

section setWram
variable (v : Memory) (s : State)
@[simp] theorem setWram_a : (s.setWram v).a = s.a := rfl
@[simp] theorem setWram_x : (s.setWram v).x = s.x := rfl
@[simp] theorem setWram_y : (s.setWram v).y = s.y := rfl
@[simp] theorem setWram_sp : (s.setWram v).sp = s.sp := rfl
@[simp] theorem setWram_pc : (s.setWram v).pc = s.pc := rfl
@[simp] theorem setWram_p : (s.setWram v).p = s.p := rfl
@[simp] theorem setWram_ppu : (s.setWram v).ppu = s.ppu := rfl
@[simp] theorem setWram_ram : (s.setWram v).ram = s.ram := rfl
@[simp] theorem setWram_wram : (s.setWram v).wram = v := rfl
@[simp] theorem setWram_flat : (s.setWram v).flat = s.flat := rfl
@[simp] theorem setWram_dmaStall : (s.setWram v).dmaStall = s.dmaStall := rfl
@[simp] theorem setWram_extra : (s.setWram v).extra = s.extra := rfl
@[simp] theorem setWram_tickCycles : (s.setWram v).tickCycles = s.tickCycles := rfl
@[simp] theorem setWram_irqLine : (s.setWram v).irqLine = s.irqLine := rfl
@[simp] theorem setWram_events : (s.setWram v).events = s.events := rfl
@[simp] theorem setWram_reads : (s.setWram v).reads = s.reads := rfl
@[simp] theorem setWram_cfg : (s.setWram v).cfg = s.cfg := rfl
end setWram

section setFlat
variable (v : Memory) (s : State)
@[simp] theorem setFlat_a : (s.setFlat v).a = s.a := rfl
@[simp] theorem setFlat_x : (s.setFlat v).x = s.x := rfl
@[simp] theorem setFlat_y : (s.setFlat v).y = s.y := rfl
@[simp] theorem setFlat_sp : (s.setFlat v).sp = s.sp := rfl
@[simp] theorem setFlat_pc : (s.setFlat v).pc = s.pc := rfl
@[simp] theorem setFlat_p : (s.setFlat v).p = s.p := rfl
@[simp] theorem setFlat_ppu : (s.setFlat v).ppu = s.ppu := rfl
@[simp] theorem setFlat_ram : (s.setFlat v).ram = s.ram := rfl
@[simp] theorem setFlat_wram : (s.setFlat v).wram = s.wram := rfl
@[simp] theorem setFlat_flat : (s.setFlat v).flat = v := rfl
@[simp] theorem setFlat_dmaStall : (s.setFlat v).dmaStall = s.dmaStall := rfl
@[simp] theorem setFlat_extra : (s.setFlat v).extra = s.extra := rfl
@[simp] theorem setFlat_tickCycles : (s.setFlat v).tickCycles = s.tickCycles := rfl
@[simp] theorem setFlat_irqLine : (s.setFlat v).irqLine = s.irqLine := rfl
@[simp] theorem setFlat_events : (s.setFlat v).events = s.events := rfl
@[simp] theorem setFlat_reads : (s.setFlat v).reads = s.reads := rfl
@[simp] theorem setFlat_cfg : (s.setFlat v).cfg = s.cfg := rfl
end setFlat

section setDmaStall
variable (v : Nat) (s : State)
@[simp] theorem setDmaStall_a : (s.setDmaStall v).a = s.a := rfl
@[simp] theorem setDmaStall_x : (s.setDmaStall v).x = s.x := rfl
@[simp] theorem setDmaStall_y : (s.setDmaStall v).y = s.y := rfl
@[simp] theorem setDmaStall_sp : (s.setDmaStall v).sp = s.sp := rfl
@[simp] theorem setDmaStall_pc : (s.setDmaStall v).pc = s.pc := rfl
@[simp] theorem setDmaStall_p : (s.setDmaStall v).p = s.p := rfl
@[simp] theorem setDmaStall_ppu : (s.setDmaStall v).ppu = s.ppu := rfl
@[simp] theorem setDmaStall_ram : (s.setDmaStall v).ram = s.ram := rfl
@[simp] theorem setDmaStall_wram : (s.setDmaStall v).wram = s.wram := rfl
@[simp] theorem setDmaStall_flat : (s.setDmaStall v).flat = s.flat := rfl
@[simp] theorem setDmaStall_dmaStall : (s.setDmaStall v).dmaStall = v := rfl
@[simp] theorem setDmaStall_extra : (s.setDmaStall v).extra = s.extra := rfl
@[simp] theorem setDmaStall_tickCycles : (s.setDmaStall v).tickCycles = s.tickCycles := rfl
@[simp] theorem setDmaStall_irqLine : (s.setDmaStall v).irqLine = s.irqLine := rfl
@[simp] theorem setDmaStall_events : (s.setDmaStall v).events = s.events := rfl
@[simp] theorem setDmaStall_reads : (s.setDmaStall v).reads = s.reads := rfl
@[simp] theorem setDmaStall_cfg : (s.setDmaStall v).cfg = s.cfg := rfl
end setDmaStall

section setExtra
variable (v : Nat) (s : State)
@[simp] theorem setExtra_a : (s.setExtra v).a = s.a := rfl
@[simp] theorem setExtra_x : (s.setExtra v).x = s.x := rfl
@[simp] theorem setExtra_y : (s.setExtra v).y = s.y := rfl
@[simp] theorem setExtra_sp : (s.setExtra v).sp = s.sp := rfl
@[simp] theorem setExtra_pc : (s.setExtra v).pc = s.pc := rfl
@[simp] theorem setExtra_p : (s.setExtra v).p = s.p := rfl
@[simp] theorem setExtra_ppu : (s.setExtra v).ppu = s.ppu := rfl
@[simp] theorem setExtra_ram : (s.setExtra v).ram = s.ram := rfl
@[simp] theorem setExtra_wram : (s.setExtra v).wram = s.wram := rfl
@[simp] theorem setExtra_flat : (s.setExtra v).flat = s.flat := rfl
@[simp] theorem setExtra_dmaStall : (s.setExtra v).dmaStall = s.dmaStall := rfl
@[simp] theorem setExtra_extra : (s.setExtra v).extra = v := rfl
@[simp] theorem setExtra_tickCycles : (s.setExtra v).tickCycles = s.tickCycles := rfl
@[simp] theorem setExtra_irqLine : (s.setExtra v).irqLine = s.irqLine := rfl
@[simp] theorem setExtra_events : (s.setExtra v).events = s.events := rfl
@[simp] theorem setExtra_reads : (s.setExtra v).reads = s.reads := rfl
@[simp] theorem setExtra_cfg : (s.setExtra v).cfg = s.cfg := rfl
end setExtra

section setTickCycles
variable (v : Nat) (s : State)
@[simp] theorem setTickCycles_a : (s.setTickCycles v).a = s.a := rfl
@[simp] theorem setTickCycles_x : (s.setTickCycles v).x = s.x := rfl
@[simp] theorem setTickCycles_y : (s.setTickCycles v).y = s.y := rfl
@[simp] theorem setTickCycles_sp : (s.setTickCycles v).sp = s.sp := rfl
@[simp] theorem setTickCycles_pc : (s.setTickCycles v).pc = s.pc := rfl
@[simp] theorem setTickCycles_p : (s.setTickCycles v).p = s.p := rfl
@[simp] theorem setTickCycles_ppu : (s.setTickCycles v).ppu = s.ppu := rfl
@[simp] theorem setTickCycles_ram : (s.setTickCycles v).ram = s.ram := rfl
@[simp] theorem setTickCycles_wram : (s.setTickCycles v).wram = s.wram := rfl
@[simp] theorem setTickCycles_flat : (s.setTickCycles v).flat = s.flat := rfl
@[simp] theorem setTickCycles_dmaStall : (s.setTickCycles v).dmaStall = s.dmaStall := rfl
@[simp] theorem setTickCycles_extra : (s.setTickCycles v).extra = s.extra := rfl
@[simp] theorem setTickCycles_tickCycles : (s.setTickCycles v).tickCycles = v := rfl
@[simp] theorem setTickCycles_irqLine : (s.setTickCycles v).irqLine = s.irqLine := rfl
@[simp] theorem setTickCycles_events : (s.setTickCycles v).events = s.events := rfl
@[simp] theorem setTickCycles_reads : (s.setTickCycles v).reads = s.reads := rfl
@[simp] theorem setTickCycles_cfg : (s.setTickCycles v).cfg = s.cfg := rfl
end setTickCycles

section setIrqLine
variable (v : Bool) (s : State)
@[simp] theorem setIrqLine_a : (s.setIrqLine v).a = s.a := rfl
@[simp] theorem setIrqLine_x : (s.setIrqLine v).x = s.x := rfl
@[simp] theorem setIrqLine_y : (s.setIrqLine v).y = s.y := rfl
@[simp] theorem setIrqLine_sp : (s.setIrqLine v).sp = s.sp := rfl
@[simp] theorem setIrqLine_pc : (s.setIrqLine v).pc = s.pc := rfl
@[simp] theorem setIrqLine_p : (s.setIrqLine v).p = s.p := rfl
@[simp] theorem setIrqLine_ppu : (s.setIrqLine v).ppu = s.ppu := rfl
@[simp] theorem setIrqLine_ram : (s.setIrqLine v).ram = s.ram := rfl
@[simp] theorem setIrqLine_wram : (s.setIrqLine v).wram = s.wram := rfl
@[simp] theorem setIrqLine_flat : (s.setIrqLine v).flat = s.flat := rfl
@[simp] theorem setIrqLine_dmaStall : (s.setIrqLine v).dmaStall = s.dmaStall := rfl
@[simp] theorem setIrqLine_extra : (s.setIrqLine v).extra = s.extra := rfl
@[simp] theorem setIrqLine_tickCycles : (s.setIrqLine v).tickCycles = s.tickCycles := rfl
@[simp] theorem setIrqLine_irqLine : (s.setIrqLine v).irqLine = v := rfl
@[simp] theorem setIrqLine_events : (s.setIrqLine v).events = s.events := rfl
@[simp] theorem setIrqLine_reads : (s.setIrqLine v).reads = s.reads := rfl
@[simp] theorem setIrqLine_cfg : (s.setIrqLine v).cfg = s.cfg := rfl
end setIrqLine

section setReads
variable (v : Nat) (s : State)
@[simp] theorem setReads_a : (s.setReads v).a = s.a := rfl
@[simp] theorem setReads_x : (s.setReads v).x = s.x := rfl
@[simp] theorem setReads_y : (s.setReads v).y = s.y := rfl
@[simp] theorem setReads_sp : (s.setReads v).sp = s.sp := rfl
@[simp] theorem setReads_pc : (s.setReads v).pc = s.pc := rfl
@[simp] theorem setReads_p : (s.setReads v).p = s.p := rfl
@[simp] theorem setReads_ppu : (s.setReads v).ppu = s.ppu := rfl
@[simp] theorem setReads_ram : (s.setReads v).ram = s.ram := rfl
@[simp] theorem setReads_wram : (s.setReads v).wram = s.wram := rfl
@[simp] theorem setReads_flat : (s.setReads v).flat = s.flat := rfl
@[simp] theorem setReads_dmaStall : (s.setReads v).dmaStall = s.dmaStall := rfl
@[simp] theorem setReads_extra : (s.setReads v).extra = s.extra := rfl
@[simp] theorem setReads_tickCycles : (s.setReads v).tickCycles = s.tickCycles := rfl
@[simp] theorem setReads_irqLine : (s.setReads v).irqLine = s.irqLine := rfl
@[simp] theorem setReads_events : (s.setReads v).events = s.events := rfl
@[simp] theorem setReads_reads : (s.setReads v).reads = v := rfl
@[simp] theorem setReads_cfg : (s.setReads v).cfg = s.cfg := rfl
end setReads

section setCfg
variable (v : RunConfig) (s : State)
@[simp] theorem setCfg_a : (s.setCfg v).a = s.a := rfl
@[simp] theorem setCfg_x : (s.setCfg v).x = s.x := rfl
@[simp] theorem setCfg_y : (s.setCfg v).y = s.y := rfl
@[simp] theorem setCfg_sp : (s.setCfg v).sp = s.sp := rfl
@[simp] theorem setCfg_pc : (s.setCfg v).pc = s.pc := rfl
@[simp] theorem setCfg_p : (s.setCfg v).p = s.p := rfl
@[simp] theorem setCfg_ppu : (s.setCfg v).ppu = s.ppu := rfl
@[simp] theorem setCfg_ram : (s.setCfg v).ram = s.ram := rfl
@[simp] theorem setCfg_wram : (s.setCfg v).wram = s.wram := rfl
@[simp] theorem setCfg_flat : (s.setCfg v).flat = s.flat := rfl
@[simp] theorem setCfg_dmaStall : (s.setCfg v).dmaStall = s.dmaStall := rfl
@[simp] theorem setCfg_extra : (s.setCfg v).extra = s.extra := rfl
@[simp] theorem setCfg_tickCycles : (s.setCfg v).tickCycles = s.tickCycles := rfl
@[simp] theorem setCfg_irqLine : (s.setCfg v).irqLine = s.irqLine := rfl
@[simp] theorem setCfg_events : (s.setCfg v).events = s.events := rfl
@[simp] theorem setCfg_reads : (s.setCfg v).reads = s.reads := rfl
@[simp] theorem setCfg_cfg : (s.setCfg v).cfg = v := rfl
end setCfg

section emit
variable (e : Event) (s : State)
@[simp] theorem emit_a : (s.emit e).a = s.a := rfl
@[simp] theorem emit_x : (s.emit e).x = s.x := rfl
@[simp] theorem emit_y : (s.emit e).y = s.y := rfl
@[simp] theorem emit_sp : (s.emit e).sp = s.sp := rfl
@[simp] theorem emit_pc : (s.emit e).pc = s.pc := rfl
@[simp] theorem emit_p : (s.emit e).p = s.p := rfl
@[simp] theorem emit_ppu : (s.emit e).ppu = s.ppu := rfl
@[simp] theorem emit_ram : (s.emit e).ram = s.ram := rfl
@[simp] theorem emit_wram : (s.emit e).wram = s.wram := rfl
@[simp] theorem emit_flat : (s.emit e).flat = s.flat := rfl
@[simp] theorem emit_dmaStall : (s.emit e).dmaStall = s.dmaStall := rfl
@[simp] theorem emit_extra : (s.emit e).extra = s.extra := rfl
@[simp] theorem emit_tickCycles : (s.emit e).tickCycles = s.tickCycles := rfl
@[simp] theorem emit_irqLine : (s.emit e).irqLine = s.irqLine := rfl
@[simp] theorem emit_events : (s.emit e).events = s.events ++ [e] := rfl
@[simp] theorem emit_reads : (s.emit e).reads = s.reads := rfl
@[simp] theorem emit_cfg : (s.emit e).cfg = s.cfg := rfl
end emit

end Sys2Proof.Laws
end

