-- ==== Sys2Proof/Laws/Bus.lean ====
section
/-! SUPPORT. The bus: who owns an address, what a read can change, and what a write can. -/

namespace Sys2Proof.Machine

open Sys2Proof.Laws

/-! Ownership. -/

@[simp] theorem ownerOf_flatRam (a : Word) : ownerOf .flatRam a = some .flat := by
  have := a.isLt
  simp [ownerOf, findRegion, regionsOf, flatRamRegions, addMemoryRegion, clearMemoryRegions, AddressRange.contains]
  omega

/-- One step of the scan of the region list. -/
theorem findRegion_cons (first last : Nat) (o : Owner) (rest : List Region) (a : Word) :
    findRegion (⟨⟨first, last⟩, o⟩ :: rest) a =
      if first ≤ a.toNat ∧ a.toNat ≤ last then some ⟨⟨first, last⟩, o⟩ else findRegion rest a := by
  by_cases h : first ≤ a.toNat ∧ a.toNat ≤ last
  · rw [if_pos h]
    simp [findRegion, AddressRange.contains, h.1, h.2]
  · rw [if_neg h]
    simp only [findRegion, AddressRange.contains, ← Bool.decide_and, List.find?, decide_eq_false h]

/-- The map of 20_memory.md R66, as a chain of bounds. -/
theorem ownerOf_nesMap (a : Word) :
    ownerOf .nesMap a =
      if a.toNat ≤ 0x1FFF then some .ram
      else if a.toNat ≤ 0x3FFF then some .ppu
      else if a.toNat ≤ 0x4013 then some .apu
      else if a.toNat ≤ 0x4014 then some .oamDma
      else if a.toNat ≤ 0x4015 then some .apu
      else if a.toNat ≤ 0x4017 then some .joypad
      else if a.toNat ≤ 0x5FFF then none
      else if a.toNat ≤ 0x7FFF then some .wram
      else some .prg := by
  have hlt := a.isLt
  simp only [ownerOf, regionsOf, nesMapRegions, addMemoryRegion, List.foldl, List.nil_append, List.cons_append,
    findRegion_cons]
  generalize a.toNat = n at *
  by_cases h1 : n ≤ 0x1FFF
  · rw [if_pos h1]
    by_cases h : n ≤ 0x7FF
    · rw [if_pos ⟨by omega, h⟩]; rfl
    · rw [if_neg (by omega), if_pos ⟨by omega, h1⟩]; rfl
  rw [if_neg h1]
  iterate 2 rw [if_neg (by omega)]
  by_cases h2 : n ≤ 0x3FFF
  · rw [if_pos h2]
    by_cases h : n ≤ 0x2007
    · rw [if_pos ⟨by omega, h⟩]; rfl
    · rw [if_neg (by omega), if_pos ⟨by omega, h2⟩]; rfl
  rw [if_neg h2]
  iterate 2 rw [if_neg (by omega)]
  by_cases h3 : n ≤ 0x4013
  · rw [if_pos h3, if_pos ⟨by omega, h3⟩]; rfl
  rw [if_neg h3, if_neg (by omega)]
  by_cases h4 : n ≤ 0x4014
  · rw [if_pos h4, if_pos ⟨by omega, h4⟩]; rfl
  rw [if_neg h4, if_neg (by omega)]
  by_cases h5 : n ≤ 0x4015
  · rw [if_pos h5, if_pos ⟨by omega, h5⟩]; rfl
  rw [if_neg h5, if_neg (by omega)]
  by_cases h6 : n ≤ 0x4017
  · rw [if_pos h6, if_pos ⟨by omega, h6⟩]; rfl
  rw [if_neg h6, if_neg (by omega)]
  by_cases h7 : n ≤ 0x5FFF
  · rw [if_pos h7, if_neg (by omega), if_neg (by omega)]; rfl
  rw [if_neg h7]
  by_cases h8 : n ≤ 0x7FFF
  · rw [if_pos h8, if_pos ⟨by omega, h8⟩]; rfl
  rw [if_neg h8, if_neg (by omega), if_pos ⟨by omega, by omega⟩]; rfl

/-! Where there is memory. -/

theorem placeable_flatRam (a : Word) : placeable .flatRam a = true := by simp [placeable]

theorem placeable_nesMap (a : Word) (h : a.toNat ≤ 0x1FFF ∨ 0x6000 ≤ a.toNat) : placeable .nesMap a = true := by
  rw [placeable, ownerOf_nesMap]
  rcases h with h | h
  · rw [if_pos h]
  · iterate 7 rw [if_neg (by omega)]
    by_cases h' : a.toNat ≤ 0x7FFF
    · rw [if_pos h']
    · rw [if_neg h']

/-- There is memory up to 0x1FFF and from 0x6000 on either bus. -/
theorem placeable_of_range (bus : BusConfig) (a : Word) (h : a.toNat ≤ 0x1FFF ∨ 0x6000 ≤ a.toNat) :
    placeable bus a = true := by
  cases bus
  · exact placeable_nesMap a h
  · exact placeable_flatRam a

theorem zext16_toNat (b : Byte) : (zext16 b).toNat = b.toNat := by
  have := b.isLt
  simp [zext16, BitVec.toNat_setWidth]
  omega

theorem stackAddr_toNat (sp : Byte) : (stackAddr sp).toNat = 0x100 + sp.toNat := by
  have := sp.isLt
  rw [stackAddr, BitVec.toNat_add, zext16_toNat]
  simp
  omega

theorem placeable_zeroPage (bus : BusConfig) (z : Byte) : placeable bus (zext16 z) = true :=
  placeable_of_range bus _ (.inl (by have := z.isLt; rw [zext16_toNat]; omega))

theorem placeable_stack (bus : BusConfig) (sp : Byte) : placeable bus (stackAddr sp) = true :=
  placeable_of_range bus _ (.inl (by have := sp.isLt; rw [stackAddr_toNat]; omega))

/-- A byte of memory is read without a side effect. -/
theorem memRead_of_peek {a : Word} {s : State} {b : Byte} (h : peek a s = some b) : memRead a s = (b, s) := by
  unfold peek at h
  unfold memRead
  split at h <;> simp_all

theorem peek_memRead {a : Word} {s : State} (h : placeable s.cfg.bus a = true) :
    peek a s = some (memRead a s).1 ∧ (memRead a s).2 = s := by
  unfold placeable at h
  unfold peek memRead
  split at h <;> simp_all

theorem peek_eq_none {a : Word} {s : State} : peek a s = none ↔ placeable s.cfg.bus a = false := by
  unfold placeable peek
  split <;> simp_all

theorem memRead_zeroPage (z : Byte) (s : State) : (memRead (zext16 z) s).2 = s := (peek_memRead (placeable_zeroPage _ z)).2

theorem memRead_stack (sp : Byte) (s : State) : (memRead (stackAddr sp) s).2 = s := (peek_memRead (placeable_stack _ sp)).2

/-! What a read can change. -/

theorem ReadEffect.refl (s : State) : ReadEffect s s := rfl

theorem ReadEffect.trans {s t u : State} (h₁ : ReadEffect s t) (h₂ : ReadEffect t u) : ReadEffect s u := by
  unfold ReadEffect at *
  refine h₂.trans ?_
  rw [h₁]

theorem externalRead_effect (a : Word) (s : State) : ReadEffect s (externalRead a s).2 := rfl

theorem ppuRegRead_effect (a : Word) (s : State) : ReadEffect s (ppuRegRead a s).2 := by
  unfold ppuRegRead dataRead
  split
  case h_8 => split <;> rfl
  all_goals rfl

/-- Every read of the bus stays within `ReadEffect`. -/
theorem memRead_effect (a : Word) (s : State) : ReadEffect s (memRead a s).2 := by
  unfold memRead
  split
  case h_2 => exact ppuRegRead_effect a s
  all_goals rfl

section ReadEffect
variable {s t : State} (h : ReadEffect s t)
include h
theorem ReadEffect.a : t.a = s.a := by rw [h]
theorem ReadEffect.x : t.x = s.x := by rw [h]
theorem ReadEffect.y : t.y = s.y := by rw [h]
theorem ReadEffect.sp : t.sp = s.sp := by rw [h]
theorem ReadEffect.pc : t.pc = s.pc := by rw [h]
theorem ReadEffect.p : t.p = s.p := by rw [h]
theorem ReadEffect.ram : t.ram = s.ram := by rw [h]
theorem ReadEffect.wram : t.wram = s.wram := by rw [h]
theorem ReadEffect.flat : t.flat = s.flat := by rw [h]
theorem ReadEffect.cfg : t.cfg = s.cfg := by rw [h]
theorem ReadEffect.dmaStall : t.dmaStall = s.dmaStall := by rw [h]
theorem ReadEffect.extra : t.extra = s.extra := by rw [h]
theorem ReadEffect.tickCycles : t.tickCycles = s.tickCycles := by rw [h]
theorem ReadEffect.irqLine : t.irqLine = s.irqLine := by rw [h]
theorem ReadEffect.ctrl : t.ppu.ctrl = s.ppu.ctrl := by rw [h]
theorem ReadEffect.mask : t.ppu.mask = s.ppu.mask := by rw [h]
theorem ReadEffect.oamAddr : t.ppu.oamAddr = s.ppu.oamAddr := by rw [h]
theorem ReadEffect.cycle : t.ppu.cycle = s.ppu.cycle := by rw [h]
theorem ReadEffect.scanline : t.ppu.scanline = s.ppu.scanline := by rw [h]
theorem ReadEffect.hit : t.ppu.spriteHitZero = s.ppu.spriteHitZero := by rw [h]
theorem ReadEffect.overflow : t.ppu.spriteOverflow = s.ppu.spriteOverflow := by rw [h]
theorem ReadEffect.nmiPending : t.ppu.nmiPending = s.ppu.nmiPending := by rw [h]
theorem ReadEffect.vram : t.ppu.vram = s.ppu.vram := by rw [h]
theorem ReadEffect.oam : t.ppu.oam = s.ppu.oam := by rw [h]
theorem ReadEffect.palette : t.ppu.palette = s.ppu.palette := by rw [h]

theorem ReadEffect.ppuMemory : PpuMemoryKept s t := ⟨h.vram, h.oam, h.palette⟩

/-- A read changes no byte of memory. -/
theorem ReadEffect.memory : MemoryKept s t := by
  intro a
  unfold peek
  rw [h.cfg, h.ram, h.wram, h.flat]
end ReadEffect

/-! What a write can change. -/

theorem WriteEffect.refl (s : State) : WriteEffect s s := rfl

theorem WriteEffect.trans {s t u : State} (h₁ : WriteEffect s t) (h₂ : WriteEffect t u) : WriteEffect s u := by
  unfold WriteEffect at *
  refine h₂.trans ?_
  rw [h₁]

theorem WriteEffect.of_read {s t : State} (h : ReadEffect s t) : WriteEffect s t := by
  unfold WriteEffect
  unfold ReadEffect at h
  rw [h]

theorem ppuWrite_effect (a : Word) (v : Byte) (s : State) : WriteEffect s (ppuWrite a v s) := by
  unfold ppuWrite
  split
  · rfl
  · split <;> rfl

theorem ppuRegWrite_effect (a : Word) (v : Byte) (s : State) : WriteEffect s (ppuRegWrite a v s) := by
  unfold ppuRegWrite
  split
  case h_6 => unfold scrollWrite; split <;> rfl
  case h_7 => unfold addrWrite; split <;> rfl
  case h_8 => exact (ppuWrite_effect s.ppu.v v s).trans rfl
  all_goals rfl

/-- A property that every OAM DMA byte keeps is kept by the whole DMA's loop. -/
theorem oamDma_induct {R : State → State → Prop} (page : Byte) (refl : ∀ s, R s s)
    (trans : ∀ s t u, R s t → R t u → R s u) (byte : ∀ s i, R s (oamDmaByte page s i)) (l : List Nat) (s : State) :
    R s (l.foldl (oamDmaByte page) s) := by
  induction l generalizing s with
  | nil => exact refl s
  | cons i rest ih => exact trans _ _ _ (byte s i) (ih _)

theorem oamDmaByte_effect (page : Byte) (s : State) (i : Nat) : WriteEffect s (oamDmaByte page s i) :=
  (WriteEffect.of_read (memRead_effect _ s)).trans rfl

theorem oamDma_effect (page : Byte) (s : State) : WriteEffect s (oamDma page s) := by
  have loop := oamDma_induct page WriteEffect.refl (fun _ _ _ => WriteEffect.trans) (oamDmaByte_effect page)
    (List.range 256) s
  unfold oamDma
  generalize (List.range 256).foldl (oamDmaByte page) s = t at *
  exact loop.trans rfl

/-- Every write of the bus stays within `WriteEffect`. -/
theorem memWrite_effect (a : Word) (v : Byte) (s : State) : WriteEffect s (memWrite a v s) := by
  unfold memWrite
  split
  case h_2 => exact ppuRegWrite_effect a v s
  case h_4 => exact oamDma_effect v s
  all_goals rfl

section WriteEffect
variable {s t : State} (h : WriteEffect s t)
include h
theorem WriteEffect.a : t.a = s.a := by rw [h]
theorem WriteEffect.x : t.x = s.x := by rw [h]
theorem WriteEffect.y : t.y = s.y := by rw [h]
theorem WriteEffect.sp : t.sp = s.sp := by rw [h]
theorem WriteEffect.pc : t.pc = s.pc := by rw [h]
theorem WriteEffect.p : t.p = s.p := by rw [h]
theorem WriteEffect.cfg : t.cfg = s.cfg := by rw [h]
theorem WriteEffect.extra : t.extra = s.extra := by rw [h]
theorem WriteEffect.tickCycles : t.tickCycles = s.tickCycles := by rw [h]
theorem WriteEffect.irqLine : t.irqLine = s.irqLine := by rw [h]
theorem WriteEffect.cycle : t.ppu.cycle = s.ppu.cycle := by rw [h]
theorem WriteEffect.scanline : t.ppu.scanline = s.ppu.scanline := by rw [h]
theorem WriteEffect.hit : t.ppu.spriteHitZero = s.ppu.spriteHitZero := by rw [h]
theorem WriteEffect.overflow : t.ppu.spriteOverflow = s.ppu.spriteOverflow := by rw [h]
end WriteEffect

/-! Memory on the CPU bus: read after write, and the frame. -/

/-- The three memories of the CPU bus are as before. -/
theorem MemoryKept.of_fields {s t : State} (hc : t.cfg = s.cfg) (h1 : t.ram = s.ram) (h2 : t.wram = s.wram)
    (h3 : t.flat = s.flat) : MemoryKept s t := by
  intro a
  unfold peek
  rw [hc, h1, h2, h3]

theorem MemoryKept.trans {s t u : State} (h₁ : MemoryKept s t) (h₂ : MemoryKept t u) : MemoryKept s u :=
  fun a => (h₂ a).trans (h₁ a)

theorem ppuWrite_memory (a : Word) (v : Byte) (s : State) : MemoryKept s (ppuWrite a v s) := by
  unfold ppuWrite
  split
  · exact .of_fields rfl rfl rfl rfl
  · split <;> exact .of_fields rfl rfl rfl rfl

theorem ppuRegWrite_memory (a : Word) (v : Byte) (s : State) : MemoryKept s (ppuRegWrite a v s) := by
  unfold ppuRegWrite
  split
  case h_6 => unfold scrollWrite; split <;> exact .of_fields rfl rfl rfl rfl
  case h_7 => unfold addrWrite; split <;> exact .of_fields rfl rfl rfl rfl
  case h_8 => exact (ppuWrite_memory s.ppu.v v s).trans (.of_fields rfl rfl rfl rfl)
  all_goals exact .of_fields rfl rfl rfl rfl

theorem oamDma_memory (page : Byte) (s : State) : MemoryKept s (oamDma page s) := by
  have loop := oamDma_induct (R := MemoryKept) page (fun _ _ => rfl) (fun _ _ _ => MemoryKept.trans)
    (fun s i => (memRead_effect _ s).memory.trans (.of_fields rfl rfl rfl rfl)) (List.range 256) s
  unfold oamDma
  generalize (List.range 256).foldl (oamDmaByte page) s = t at *
  exact loop.trans (.of_fields rfl rfl rfl rfl)

/-- A write reaches only the byte behind its address: every other byte of memory reads as before. -/
theorem memWrite_memory (a : Word) (v : Byte) (s : State) : MemoryKeptBut a s (memWrite a v s) := by
  have put : ∀ {st : Store} {m : Memory} {i j : Nat}, (st, j) ≠ (st, i) → (m.set i v).read st j = m.read st j := by
    intro st m i j h
    exact read_set_other st m v (fun e => h (by rw [e]))
  intro b hb
  unfold memWrite
  split
  case h_2 => exact ppuRegWrite_memory a v s b
  case h_4 => exact oamDma_memory v s b
  case h_3 => exact MemoryKept.of_fields rfl rfl rfl rfl b
  case h_5 => exact MemoryKept.of_fields rfl rfl rfl rfl b
  case h_7 => exact MemoryKept.of_fields rfl rfl rfl rfl b
  case h_9 => exact MemoryKept.of_fields rfl rfl rfl rfl b
  case h_1 h =>
    simp only [cellOf, h] at hb
    simp only [peek, setRam_cfg, setRam_ram, setRam_wram, setRam_flat]
    generalize ownerOf s.cfg.bus b = o at hb ⊢
    rcases o with _ | o
    · rfl
    · cases o <;> simp_all
  case h_6 h =>
    simp only [cellOf, h] at hb
    simp only [peek, setWram_cfg, setWram_ram, setWram_wram, setWram_flat]
    generalize ownerOf s.cfg.bus b = o at hb ⊢
    rcases o with _ | o
    · rfl
    · cases o <;> simp_all
  case h_8 h =>
    simp only [cellOf, h] at hb
    simp only [peek, setFlat_cfg, setFlat_ram, setFlat_wram, setFlat_flat]
    generalize ownerOf s.cfg.bus b = o at hb ⊢
    rcases o with _ | o
    · rfl
    · cases o <;> simp_all

/-- A byte of memory that can be written reads back as the byte written. -/
theorem peek_memWrite {a : Word} {s : State} {c : Store × Nat} (v : Byte) (h : cellOf s.cfg.bus a = some c) :
    peek a (memWrite a v s) = some v := by
  unfold cellOf at h
  unfold memWrite peek
  split at h <;> simp_all

end Sys2Proof.Machine
end

