-- ==== Sys2Proof/Laws/Decode.lean ====
section
/-! SUPPORT. The opcode map is total, and every instruction it gives is well-formed. -/

namespace Sys2Proof.Laws

/-- Every opcode byte has a row (30_encoding.md R104). -/
theorem opcodeRow_total (op : Byte) : ∃ row, opcodeRow op = some row := by
  have h : ∀ op : Byte, (opcodeRow op).isSome = true := by decide +kernel
  exact Option.isSome_iff_exists.1 (h op)

/-- No row asks for more than two operand bytes. -/
theorem operandBytes_le (m : Mode) : m.operandBytes ≤ 2 := by
  cases m <;> try decide
  case mem m => cases m <;> decide

theorem mapRow0_formed : ∀ r ∈ mapRow0, ∀ b1 b2, (r.build b1 b2).wellFormed = true := by
  unfold mapRow0
  iterate 16 refine List.forall_mem_cons.2 ⟨fun _ _ => rfl, ?_⟩
  exact fun _ h => nomatch h

theorem mapRow1_formed : ∀ r ∈ mapRow1, ∀ b1 b2, (r.build b1 b2).wellFormed = true := by
  unfold mapRow1
  iterate 16 refine List.forall_mem_cons.2 ⟨fun _ _ => rfl, ?_⟩
  exact fun _ h => nomatch h

theorem mapRow2_formed : ∀ r ∈ mapRow2, ∀ b1 b2, (r.build b1 b2).wellFormed = true := by
  unfold mapRow2
  iterate 16 refine List.forall_mem_cons.2 ⟨fun _ _ => rfl, ?_⟩
  exact fun _ h => nomatch h

theorem mapRow3_formed : ∀ r ∈ mapRow3, ∀ b1 b2, (r.build b1 b2).wellFormed = true := by
  unfold mapRow3
  iterate 16 refine List.forall_mem_cons.2 ⟨fun _ _ => rfl, ?_⟩
  exact fun _ h => nomatch h

theorem mapRow4_formed : ∀ r ∈ mapRow4, ∀ b1 b2, (r.build b1 b2).wellFormed = true := by
  unfold mapRow4
  iterate 16 refine List.forall_mem_cons.2 ⟨fun _ _ => rfl, ?_⟩
  exact fun _ h => nomatch h

theorem mapRow5_formed : ∀ r ∈ mapRow5, ∀ b1 b2, (r.build b1 b2).wellFormed = true := by
  unfold mapRow5
  iterate 16 refine List.forall_mem_cons.2 ⟨fun _ _ => rfl, ?_⟩
  exact fun _ h => nomatch h

theorem mapRow6_formed : ∀ r ∈ mapRow6, ∀ b1 b2, (r.build b1 b2).wellFormed = true := by
  unfold mapRow6
  iterate 16 refine List.forall_mem_cons.2 ⟨fun _ _ => rfl, ?_⟩
  exact fun _ h => nomatch h

theorem mapRow7_formed : ∀ r ∈ mapRow7, ∀ b1 b2, (r.build b1 b2).wellFormed = true := by
  unfold mapRow7
  iterate 16 refine List.forall_mem_cons.2 ⟨fun _ _ => rfl, ?_⟩
  exact fun _ h => nomatch h

theorem mapRow8_formed : ∀ r ∈ mapRow8, ∀ b1 b2, (r.build b1 b2).wellFormed = true := by
  unfold mapRow8
  iterate 16 refine List.forall_mem_cons.2 ⟨fun _ _ => rfl, ?_⟩
  exact fun _ h => nomatch h

theorem mapRow9_formed : ∀ r ∈ mapRow9, ∀ b1 b2, (r.build b1 b2).wellFormed = true := by
  unfold mapRow9
  iterate 16 refine List.forall_mem_cons.2 ⟨fun _ _ => rfl, ?_⟩
  exact fun _ h => nomatch h

theorem mapRowA_formed : ∀ r ∈ mapRowA, ∀ b1 b2, (r.build b1 b2).wellFormed = true := by
  unfold mapRowA
  iterate 16 refine List.forall_mem_cons.2 ⟨fun _ _ => rfl, ?_⟩
  exact fun _ h => nomatch h

theorem mapRowB_formed : ∀ r ∈ mapRowB, ∀ b1 b2, (r.build b1 b2).wellFormed = true := by
  unfold mapRowB
  iterate 16 refine List.forall_mem_cons.2 ⟨fun _ _ => rfl, ?_⟩
  exact fun _ h => nomatch h

theorem mapRowC_formed : ∀ r ∈ mapRowC, ∀ b1 b2, (r.build b1 b2).wellFormed = true := by
  unfold mapRowC
  iterate 16 refine List.forall_mem_cons.2 ⟨fun _ _ => rfl, ?_⟩
  exact fun _ h => nomatch h

theorem mapRowD_formed : ∀ r ∈ mapRowD, ∀ b1 b2, (r.build b1 b2).wellFormed = true := by
  unfold mapRowD
  iterate 16 refine List.forall_mem_cons.2 ⟨fun _ _ => rfl, ?_⟩
  exact fun _ h => nomatch h

theorem mapRowE_formed : ∀ r ∈ mapRowE, ∀ b1 b2, (r.build b1 b2).wellFormed = true := by
  unfold mapRowE
  iterate 16 refine List.forall_mem_cons.2 ⟨fun _ _ => rfl, ?_⟩
  exact fun _ h => nomatch h

theorem mapRowF_formed : ∀ r ∈ mapRowF, ∀ b1 b2, (r.build b1 b2).wellFormed = true := by
  unfold mapRowF
  iterate 16 refine List.forall_mem_cons.2 ⟨fun _ _ => rfl, ?_⟩
  exact fun _ h => nomatch h

theorem opcodeMap_formed : ∀ cells ∈ opcodeMap, ∀ r ∈ cells, ∀ b1 b2, (r.build b1 b2).wellFormed = true := by
  unfold opcodeMap
  refine List.forall_mem_cons.2 ⟨mapRow0_formed, ?_⟩
  refine List.forall_mem_cons.2 ⟨mapRow1_formed, ?_⟩
  refine List.forall_mem_cons.2 ⟨mapRow2_formed, ?_⟩
  refine List.forall_mem_cons.2 ⟨mapRow3_formed, ?_⟩
  refine List.forall_mem_cons.2 ⟨mapRow4_formed, ?_⟩
  refine List.forall_mem_cons.2 ⟨mapRow5_formed, ?_⟩
  refine List.forall_mem_cons.2 ⟨mapRow6_formed, ?_⟩
  refine List.forall_mem_cons.2 ⟨mapRow7_formed, ?_⟩
  refine List.forall_mem_cons.2 ⟨mapRow8_formed, ?_⟩
  refine List.forall_mem_cons.2 ⟨mapRow9_formed, ?_⟩
  refine List.forall_mem_cons.2 ⟨mapRowA_formed, ?_⟩
  refine List.forall_mem_cons.2 ⟨mapRowB_formed, ?_⟩
  refine List.forall_mem_cons.2 ⟨mapRowC_formed, ?_⟩
  refine List.forall_mem_cons.2 ⟨mapRowD_formed, ?_⟩
  refine List.forall_mem_cons.2 ⟨mapRowE_formed, ?_⟩
  refine List.forall_mem_cons.2 ⟨mapRowF_formed, ?_⟩
  exact fun _ h => nomatch h

/-- Every instruction the map gives is a row of the map. -/
theorem row_formed {op : Byte} {row : Row} (h : opcodeRow op = some row) (b1 b2 : Byte) :
    (row.build b1 b2).wellFormed = true := by
  unfold opcodeRow at h
  split at h
  · rename_i cells hc
    exact opcodeMap_formed cells (List.mem_of_getElem? hc) row (List.mem_of_getElem? h) b1 b2
  · cases h

/-- What is decoded is well-formed. -/
theorem decode_formed {bytes : List Byte} {i : Instr} {rest : List Byte} (h : decode bytes = .ok (i, rest)) :
    i.wellFormed = true := by
  unfold decode at h
  split at h
  · cases h
  · split at h
    · cases h
    · rename_i row hr
      split at h <;> cases h
      all_goals exact row_formed hr _ _

/-- An opcode byte followed by as many operand bytes as it asks for decodes. -/
theorem decode_completes (op : Byte) (operands : List Byte) (h : operands.length = operandCount op) :
    ∃ i, decode (op :: operands) = .ok (i, []) := by
  obtain ⟨row, hr⟩ := opcodeRow_total op
  have hle := operandBytes_le row.mode
  simp only [operandCount, hr] at h
  simp only [decode, hr]
  match operands, h with
  | [], h => simp only [List.length_nil] at h; rw [← h]; exact ⟨_, rfl⟩
  | [b1], h => simp only [List.length_cons, List.length_nil] at h; rw [← h]; exact ⟨_, rfl⟩
  | [b1, b2], h => simp only [List.length_cons, List.length_nil] at h; rw [← h]; exact ⟨_, rfl⟩
  | _ :: _ :: _ :: _, h => simp only [List.length_cons] at h; omega

/-- An instruction is well-formed exactly if its rule's list gives it an opcode byte. -/
theorem opcodeOf_isSome (i : Instr) : (opcodeOf i).isSome = i.wellFormed := by
  cases i with
  | anc op b => simp only [opcodeOf, Instr.wellFormed]; split <;> simp_all
  | nopU op o => simp only [opcodeOf, Instr.wellFormed]; split <;> simp_all
  | jam op => simp only [opcodeOf, Instr.wellFormed]; split <;> simp_all
  | jmp o => cases o <;> rfl
  | lda o => rcases o with _ | m; rfl; cases m <;> rfl
  | ldx o => rcases o with _ | m; rfl; cases m <;> rfl
  | ldy o => rcases o with _ | m; rfl; cases m <;> rfl
  | adc o => rcases o with _ | m; rfl; cases m <;> rfl
  | sbc o => rcases o with _ | m; rfl; cases m <;> rfl
  | and o => rcases o with _ | m; rfl; cases m <;> rfl
  | ora o => rcases o with _ | m; rfl; cases m <;> rfl
  | eor o => rcases o with _ | m; rfl; cases m <;> rfl
  | cmp o => rcases o with _ | m; rfl; cases m <;> rfl
  | cpx o => rcases o with _ | m; rfl; cases m <;> rfl
  | cpy o => rcases o with _ | m; rfl; cases m <;> rfl
  | asl o => rcases o with _ | m; rfl; cases m <;> rfl
  | lsr o => rcases o with _ | m; rfl; cases m <;> rfl
  | rol o => rcases o with _ | m; rfl; cases m <;> rfl
  | ror o => rcases o with _ | m; rfl; cases m <;> rfl
  | sta m => cases m <;> rfl
  | stx m => cases m <;> rfl
  | sty m => cases m <;> rfl
  | bit m => cases m <;> rfl
  | inc m => cases m <;> rfl
  | dec m => cases m <;> rfl
  | slo m => cases m <;> rfl
  | rla m => cases m <;> rfl
  | sre m => cases m <;> rfl
  | rra m => cases m <;> rfl
  | dcp m => cases m <;> rfl
  | isc m => cases m <;> rfl
  | sax m => cases m <;> rfl
  | lax m => cases m <;> rfl
  | sha m => cases m <;> rfl
  | _ => rfl

end Sys2Proof.Laws
end

