-- ==== Sys2Proof/Laws/Flags.lean ====
section
/-! SUPPORT. What each flag operation does to each bit of P. -/

namespace Sys2Proof.Laws

open Sys2Proof.Machine

theorem mask_getLsbD (f g : Flag) : f.mask.getLsbD g.index = decide (g = f) := by
  cases f <;> cases g <;> decide

theorem index_lt (f : Flag) : f.index < 8 := by cases f <;> decide

/-- Two status bytes with the same eight flags are equal. -/
theorem status_ext {p q : Byte} (h : ∀ f, isBitSet p f = isBitSet q f) : p = q := by
  apply BitVec.eq_of_getLsbD_eq
  intro i hi
  match i, hi with
  | 0, _ => exact h .c
  | 1, _ => exact h .z
  | 2, _ => exact h .i
  | 3, _ => exact h .d
  | 4, _ => exact h .b
  | 5, _ => exact h .u
  | 6, _ => exact h .v
  | 7, _ => exact h .n

theorem isBitSet_setBit (p : Byte) (f g : Flag) : isBitSet (setBit p f) g = (isBitSet p g || decide (g = f)) := by
  simp [isBitSet, setBit, mask_getLsbD]

theorem isBitSet_clearBit (p : Byte) (f g : Flag) : isBitSet (clearBit p f) g = (isBitSet p g && !decide (g = f)) := by
  rw [isBitSet, clearBit, BitVec.getLsbD_and, BitVec.getLsbD_not, mask_getLsbD, decide_eq_true (index_lt g)]
  rfl

/-- `setBitTo` writes its flag and no other. -/
@[simp] theorem isBitSet_setBitTo (p : Byte) (f g : Flag) (b : Bool) :
    isBitSet (setBitTo p f b) g = if g = f then b else isBitSet p g := by
  cases b <;> by_cases h : g = f <;> simp [setBitTo, isBitSet_setBit, isBitSet_clearBit, h]

/-- `setNZ` writes N and Z and no other flag. -/
@[simp] theorem isBitSet_setNZ (v p : Byte) (g : Flag) :
    isBitSet (setNZ v p) g = if g = .n then v.getLsbD 7 else if g = .z then v == 0 else isBitSet p g := by
  simp [setNZ]

@[simp] theorem isBitSet_addFlags (a m p : Byte) (c : Bool) (g : Flag) :
    isBitSet (addFlags a m c p) g =
      if g = .n then (addResult a m c).getLsbD 7
      else if g = .z then addResult a m c == 0
      else if g = .v then addOverflow a m (addResult a m c)
      else if g = .c then decide (0xFF < addSum a m c)
      else isBitSet p g := by
  simp [addFlags]

@[simp] theorem isBitSet_compareFlags (r m p : Byte) (g : Flag) :
    isBitSet (compareFlags r m p) g =
      if g = .n then (r - m).getLsbD 7
      else if g = .z then r == m
      else if g = .c then decide (m.toNat ≤ r.toNat)
      else isBitSet p g := by
  simp [compareFlags]

@[simp] theorem isBitSet_shiftFlags (out : Bool) (r p : Byte) (g : Flag) :
    isBitSet (shiftFlags out r p) g =
      if g = .n then r.getLsbD 7 else if g = .z then r == 0 else if g = .c then out else isBitSet p g := by
  simp [shiftFlags]

@[simp] theorem isBitSet_pulledStatus (v : Byte) (g : Flag) :
    isBitSet (pulledStatus v) g = if g = .b then false else if g = .u then true else isBitSet v g := by
  cases g <;> simp [isBitSet, pulledStatus, Flag.index]

@[simp] theorem isBitSet_hardwareStatus (v : Byte) (g : Flag) :
    isBitSet (hardwareStatus v) g = if g = .b then false else if g = .u then true else isBitSet v g := by
  cases g <;> simp [isBitSet, hardwareStatus, Flag.index]

@[simp] theorem isBitSet_softwareStatus (v : Byte) (g : Flag) :
    isBitSet (softwareStatus v) g = if g = .b then true else if g = .u then true else isBitSet v g := by
  cases g <;> simp [isBitSet, softwareStatus, Flag.index]

end Sys2Proof.Laws
end

