-- ==== Sys2Proof/Laws/Quiet.lean ====
section
/-! SUPPORT. What every bus access and every instruction keeps, said once: `Quiet s t`. The invariant of a step and the
claims about the history are derived from it. -/

namespace Sys2Proof.Machine

open Sys2Proof.Laws

/-- U set and B clear in a status byte. -/
def StatusOk (p : Byte) : Prop := isBitSet p .u = true ∧ isBitSet p .b = false

/-- Everything between the start of a fetch and the end of a tick relates its states so. -/
structure Quiet (s t : State) : Prop where
  v         : s.ppu.v.toNat ≤ 0x3FFF → t.ppu.v.toNat ≤ 0x3FFF
  vblank    : t.ppu.vblank = true → s.ppu.vblank = true
  pending   : t.ppu.nmiPending = true → s.ppu.nmiPending = true ∨ s.ppu.vblank = true
  cycle     : t.ppu.cycle = s.ppu.cycle
  scanline  : t.ppu.scanline = s.ppu.scanline
  hit       : t.ppu.spriteHitZero = s.ppu.spriteHitZero
  overflow  : t.ppu.spriteOverflow = s.ppu.spriteOverflow
  irq       : t.irqLine = s.irqLine
  cfg       : t.cfg = s.cfg
  memories  : memoriesWf s = true → memoriesWf t = true
  status    : StatusOk s.p → StatusOk t.p
  history   : ∃ l, t.events = s.events ++ l ∧ frameCount l = 0

theorem Quiet.refl (s : State) : Quiet s s :=
  ⟨id, id, .inl, rfl, rfl, rfl, rfl, rfl, rfl, id, id, [], by simp, rfl⟩

theorem frameCount_append (l m : List Event) : frameCount (l ++ m) = frameCount l + frameCount m := by
  simp [frameCount]

theorem Quiet.trans {s t u : State} (h₁ : Quiet s t) (h₂ : Quiet t u) : Quiet s u where
  v := h₂.v ∘ h₁.v
  vblank := h₁.vblank ∘ h₂.vblank
  pending h := by
    rcases h₂.pending h with h | h
    · exact h₁.pending h
    · exact .inr (h₁.vblank h)
  cycle := h₂.cycle.trans h₁.cycle
  scanline := h₂.scanline.trans h₁.scanline
  hit := h₂.hit.trans h₁.hit
  overflow := h₂.overflow.trans h₁.overflow
  irq := h₂.irq.trans h₁.irq
  cfg := h₂.cfg.trans h₁.cfg
  memories := h₂.memories ∘ h₁.memories
  status := h₂.status ∘ h₁.status
  history := by
    obtain ⟨l, hl, fl⟩ := h₁.history
    obtain ⟨m, hm, fm⟩ := h₂.history
    exact ⟨l ++ m, by rw [hm, hl, List.append_assoc], by rw [frameCount_append, fl, fm]⟩

/-! The updates. -/

section
variable {s t : State} (h : Quiet s t)
include h
theorem Quiet.setA (v : Byte) : Quiet s (t.setA v) := h.trans (.mk id id .inl rfl rfl rfl rfl rfl rfl id id ⟨[], by simp, rfl⟩)
theorem Quiet.setX (v : Byte) : Quiet s (t.setX v) := h.trans (.mk id id .inl rfl rfl rfl rfl rfl rfl id id ⟨[], by simp, rfl⟩)
theorem Quiet.setY (v : Byte) : Quiet s (t.setY v) := h.trans (.mk id id .inl rfl rfl rfl rfl rfl rfl id id ⟨[], by simp, rfl⟩)
theorem Quiet.setSp (v : Byte) : Quiet s (t.setSp v) := h.trans (.mk id id .inl rfl rfl rfl rfl rfl rfl id id ⟨[], by simp, rfl⟩)
theorem Quiet.setPc (v : Word) : Quiet s (t.setPc v) := h.trans (.mk id id .inl rfl rfl rfl rfl rfl rfl id id ⟨[], by simp, rfl⟩)
theorem Quiet.setExtra (n : Nat) : Quiet s (t.setExtra n) :=
  h.trans (.mk id id .inl rfl rfl rfl rfl rfl rfl id id ⟨[], by simp, rfl⟩)
theorem Quiet.setDmaStall (n : Nat) : Quiet s (t.setDmaStall n) :=
  h.trans (.mk id id .inl rfl rfl rfl rfl rfl rfl id id ⟨[], by simp, rfl⟩)
theorem Quiet.setTickCycles (n : Nat) : Quiet s (t.setTickCycles n) :=
  h.trans (.mk id id .inl rfl rfl rfl rfl rfl rfl id id ⟨[], by simp, rfl⟩)
theorem Quiet.setReads (n : Nat) : Quiet s (t.setReads n) :=
  h.trans (.mk id id .inl rfl rfl rfl rfl rfl rfl id id ⟨[], by simp, rfl⟩)

theorem Quiet.setP {p : Byte} (hp : StatusOk s.p → StatusOk p) : Quiet s (t.setP p) :=
  ⟨h.v, h.vblank, h.pending, h.cycle, h.scanline, h.hit, h.overflow, h.irq, h.cfg, h.memories, hp, h.history⟩

theorem Quiet.emit {e : Event} (he : e.isFrame = false) : Quiet s (t.emit e) :=
  h.trans (.mk id id .inl rfl rfl rfl rfl rfl rfl id id ⟨[e], rfl, by simp [frameCount, he]⟩)

theorem Quiet.setNZOf (v : Byte) : Quiet s (setNZOf v t) :=
  h.setP fun hs => by simpa [StatusOk] using h.status hs

theorem Quiet.putFlag {f : Flag} (hu : f ≠ .u) (hb : f ≠ .b) (v : Bool) : Quiet s (putFlag f v t) :=
  h.setP fun hs => by simpa [StatusOk, hu.symm, hb.symm] using h.status hs
end

/-! The bus. -/

theorem nextV_le (ppu : Ppu) : (nextV ppu).toNat ≤ 0x3FFF := by
  rw [nextV, BitVec.toNat_and]
  exact Nat.and_le_right

theorem externalRead_quiet (a : Word) (s : State) : Quiet s (externalRead a s).2 := ((Quiet.refl s).setReads _).emit rfl

theorem ppuRegRead_quiet (a : Word) (s : State) : Quiet s (ppuRegRead a s).2 := by
  unfold ppuRegRead
  split
  case h_3 =>
    exact ⟨id, by simp [statusRead], .inl, rfl, rfl, rfl, rfl, rfl, rfl, id, id, _, rfl, rfl⟩
  case h_5 => exact Quiet.refl s
  case h_8 =>
    unfold dataRead
    split <;> exact ⟨fun _ => nextV_le _, id, .inl, rfl, rfl, rfl, rfl, rfl, rfl, id, id, [], by simp, rfl⟩
  all_goals exact externalRead_quiet a s

theorem memRead_quiet (a : Word) (s : State) : Quiet s (memRead a s).2 := by
  unfold memRead
  split
  case h_2 => exact ppuRegRead_quiet a s
  case h_3 => exact externalRead_quiet a s
  case h_4 => exact externalRead_quiet a s
  case h_5 => exact externalRead_quiet a s
  case h_9 => exact (Quiet.refl s).emit rfl
  all_goals exact Quiet.refl s

theorem palIndex_lt (a : Word) : palIndex a < 0x20 := by
  simp only [palIndex]
  split <;> omega

theorem ntIndex_lt (m : Mirroring) (a : Word) : ntIndex m a < 0x800 := by
  cases m <;> simp only [ntIndex] <;> omega

theorem memoriesWf_iff (s : State) : memoriesWf s = true ↔
    s.ram.wf 0x800 = true ∧ s.wram.wf 0x2000 = true ∧ s.flat.wf 0x10000 = true ∧ s.ppu.vram.wf 0x800 = true ∧
      s.ppu.oam.wf 0x100 = true ∧ s.ppu.palette.wf 0x20 = true := by
  simp [memoriesWf, and_assoc]

/-- A change of one memory of the PPU that keeps its form. -/
theorem Quiet.ofPpu {s : State} {q : Ppu} (hv : s.ppu.v.toNat ≤ 0x3FFF → q.v.toNat ≤ 0x3FFF)
    (hb : q.vblank = s.ppu.vblank) (hp : q.nmiPending = true → s.ppu.nmiPending = true ∨ s.ppu.vblank = true)
    (hc : q.cycle = s.ppu.cycle) (hl : q.scanline = s.ppu.scanline) (hh : q.spriteHitZero = s.ppu.spriteHitZero)
    (ho : q.spriteOverflow = s.ppu.spriteOverflow)
    (hm : s.ppu.vram.wf 0x800 = true ∧ s.ppu.oam.wf 0x100 = true ∧ s.ppu.palette.wf 0x20 = true →
      q.vram.wf 0x800 = true ∧ q.oam.wf 0x100 = true ∧ q.palette.wf 0x20 = true) : Quiet s (s.setPpu q) where
  v := hv
  vblank h := by rw [← hb]; exact h
  pending := hp
  cycle := hc
  scanline := hl
  hit := hh
  overflow := ho
  irq := rfl
  cfg := rfl
  memories h := by
    rw [memoriesWf_iff] at h ⊢
    obtain ⟨h1, h2, h3, h4, h5, h6⟩ := h
    exact ⟨h1, h2, h3, hm ⟨h4, h5, h6⟩⟩
  status := id
  history := ⟨[], by simp, rfl⟩

theorem ppuWrite_quiet (a : Word) (v : Byte) (s : State) : Quiet s (ppuWrite a v s) := by
  unfold ppuWrite
  split
  · exact (Quiet.refl s).emit rfl
  · split
    · exact .ofPpu id rfl .inl rfl rfl rfl rfl fun h => ⟨wf_set v (ntIndex_lt _ a) h.1, h.2⟩
    · exact .ofPpu id rfl .inl rfl rfl rfl rfl fun h => ⟨h.1, h.2.1, wf_set v (palIndex_lt a) h.2.2⟩

theorem setOamByte_quiet {i : Nat} (hi : i < 0x100) (v : Byte) (s : State) : Quiet s (setOamByte i v s) :=
  .ofPpu id rfl .inl rfl rfl rfl rfl fun h => ⟨h.1, wf_set v hi h.2.1, h.2.2⟩

theorem ppuRegWrite_quiet (a : Word) (v : Byte) (s : State) : Quiet s (ppuRegWrite a v s) := by
  unfold ppuRegWrite
  split
  case h_1 =>
    refine .ofPpu id rfl (fun h => ?_) rfl rfl rfl rfl id
    simp only [Bool.or_eq_true, Bool.and_eq_true] at h
    exact h.imp id And.right
  case h_3 => exact .refl s
  case h_5 => exact .ofPpu id rfl .inl rfl rfl rfl rfl fun h => ⟨h.1, wf_set v s.ppu.oamAddr.isLt h.2.1, h.2.2⟩
  case h_6 => unfold scrollWrite; split <;> exact .ofPpu id rfl .inl rfl rfl rfl rfl id
  case h_7 =>
    unfold addrWrite
    split <;> exact .ofPpu (fun _ => by simp only [BitVec.toNat_and]; exact Nat.and_le_right) rfl .inl rfl rfl rfl rfl id
  case h_8 => exact (ppuWrite_quiet _ v s).trans (.ofPpu (fun _ => nextV_le _) rfl .inl rfl rfl rfl rfl id)
  all_goals exact .ofPpu id rfl .inl rfl rfl rfl rfl id

theorem oamDma_quiet (page : Byte) (s : State) : Quiet s (oamDma page s) := by
  have loop := oamDma_induct (R := Quiet) page Quiet.refl (fun _ _ _ => Quiet.trans)
    (fun s i => (memRead_quiet _ s).trans (setOamByte_quiet (Nat.mod_lt _ (by decide)) _ _)) (List.range 256) s
  unfold oamDma
  generalize (List.range 256).foldl (oamDmaByte page) s = t at *
  exact loop.setDmaStall _

/-- A change of a memory of the CPU bus that keeps its form. -/
theorem Quiet.ofMemory {s : State} {ram wram flat : Memory}
    (hm : s.ram.wf 0x800 = true ∧ s.wram.wf 0x2000 = true ∧ s.flat.wf 0x10000 = true →
      ram.wf 0x800 = true ∧ wram.wf 0x2000 = true ∧ flat.wf 0x10000 = true) :
    Quiet s (((s.setRam ram).setWram wram).setFlat flat) where
  v := id
  vblank := id
  pending := .inl
  cycle := rfl
  scanline := rfl
  hit := rfl
  overflow := rfl
  irq := rfl
  cfg := rfl
  memories h := by
    rw [memoriesWf_iff] at h ⊢
    obtain ⟨h1, h2, h3, h4⟩ := h
    obtain ⟨g1, g2, g3⟩ := hm ⟨h1, h2, h3⟩
    exact ⟨g1, g2, g3, h4⟩
  status := id
  history := ⟨[], by simp, rfl⟩

theorem ramIndex_lt (a : Word) : ramIndex a < 0x800 := by
  rw [ramIndex, BitVec.toNat_and]
  exact Nat.lt_of_le_of_lt Nat.and_le_right (by decide)

theorem wram_le {bus : BusConfig} {a : Word} (h : ownerOf bus a = some .wram) : a.toNat ≤ 0x7FFF := by
  cases bus
  · rw [ownerOf_nesMap] at h
    refine Decidable.byContradiction fun hn => ?_
    iterate 8 rw [if_neg (by omega)] at h
    cases h
  · rw [ownerOf_flatRam] at h
    cases h

theorem wram_offset_lt (n : Nat) (h : n ≤ 0x7FFF) : n - 0x6000 < 0x2000 := by omega

theorem wramIndex_lt {bus : BusConfig} {a : Word} (h : ownerOf bus a = some .wram) : wramIndex a < 0x2000 :=
  wram_offset_lt _ (wram_le h)

theorem memWrite_quiet (a : Word) (v : Byte) (s : State) : Quiet s (memWrite a v s) := by
  unfold memWrite
  split
  case h_1 => exact .ofMemory (ram := s.ram.set _ v) (wram := s.wram) (flat := s.flat) fun h =>
    ⟨wf_set v (ramIndex_lt a) h.1, h.2⟩
  case h_2 => exact ppuRegWrite_quiet a v s
  case h_4 => exact oamDma_quiet v s
  case h_6 ho => exact .ofMemory (ram := s.ram) (wram := s.wram.set _ v) (flat := s.flat) fun h =>
    ⟨h.1, wf_set v (wramIndex_lt ho) h.2.1, h.2.2⟩
  case h_8 => exact .ofMemory (ram := s.ram) (wram := s.wram) (flat := s.flat.set _ v) fun h =>
    ⟨h.1, h.2.1, wf_set v a.isLt h.2.2⟩
  all_goals exact (Quiet.refl s).emit rfl

section
variable {s t : State} (h : Quiet s t)
include h
theorem Quiet.memRead (a : Word) : Quiet s (memRead a t).2 := h.trans (memRead_quiet a t)
theorem Quiet.memWrite (a : Word) (v : Byte) : Quiet s (memWrite a v t) := h.trans (memWrite_quiet a v t)
end

end Sys2Proof.Machine
end

