-- ==== Sys2Proof/Laws/Ops.lean ====
section
/-! SUPPORT. The shared operations: the stack, operand fetch, effective addresses, interrupt entry and return. -/

namespace Sys2Proof.Machine

open Sys2Proof.Laws

/-! Frames of the status operations: only P. -/

@[simp] theorem setNZOf_eq (v : Byte) (s : State) : setNZOf v s = s.setP (setNZ v s.p) := rfl
@[simp] theorem putFlag_eq (f : Flag) (v : Bool) (s : State) : putFlag f v s = s.setP (setBitTo s.p f v) := rfl

/-! The stack. -/

/-- The stack page is memory that can be written. -/
theorem cellOf_stack (bus : BusConfig) (sp : Byte) :
    cellOf bus (stackAddr sp) = some (match bus with
      | .nesMap => (.ram, 0x100 + sp.toNat)
      | .flatRam => (.flat, 0x100 + sp.toNat)) := by
  have hsp := sp.isLt
  cases bus
  · have ho : ownerOf .nesMap (stackAddr sp) = some .ram := by
      rw [ownerOf_nesMap, if_pos (by rw [stackAddr_toNat]; omega)]
    have hi : ramIndex (stackAddr sp) = 0x100 + sp.toNat := by
      rw [ramIndex, BitVec.toNat_and, stackAddr_toNat]
      exact (Nat.and_two_pow_sub_one_eq_mod _ 11).trans (Nat.mod_eq_of_lt (by omega))
    simp [cellOf, ho, hi]
  · simp [cellOf, stackAddr_toNat]

theorem cellOf_stack_inj {bus : BusConfig} {p q : Byte} (h : cellOf bus (stackAddr p) = cellOf bus (stackAddr q)) :
    p = q := by
  rw [cellOf_stack, cellOf_stack] at h
  apply BitVec.eq_of_toNat_eq
  cases bus <;> simp at h <;> exact h

/-- What a write to the stack page does: the byte goes to RAM or to the flat RAM, and nothing else changes. -/
theorem memWrite_stack (sp v : Byte) (s : State) :
    memWrite (stackAddr sp) v s = { s with
      ram := (memWrite (stackAddr sp) v s).ram, flat := (memWrite (stackAddr sp) v s).flat } := by
  have h := cellOf_stack s.cfg.bus sp
  unfold memWrite
  unfold cellOf at h
  cases hb : s.cfg.bus <;> rw [hb] at h
  · split at h <;> simp_all [State.setRam]
  · rw [ownerOf_flatRam]
    rfl

theorem push_eq (v : Byte) (s : State) :
    push v s = { s with
      sp := s.sp - 1, ram := (memWrite (stackAddr s.sp) v s).ram, flat := (memWrite (stackAddr s.sp) v s).flat } := by
  unfold push
  rw [memWrite_stack]
  rfl

@[simp] theorem push_a (v : Byte) (s : State) : (push v s).a = s.a := by rw [push_eq]
@[simp] theorem push_x (v : Byte) (s : State) : (push v s).x = s.x := by rw [push_eq]
@[simp] theorem push_y (v : Byte) (s : State) : (push v s).y = s.y := by rw [push_eq]
@[simp] theorem push_sp (v : Byte) (s : State) : (push v s).sp = s.sp - 1 := by rw [push_eq]
@[simp] theorem push_pc (v : Byte) (s : State) : (push v s).pc = s.pc := by rw [push_eq]
@[simp] theorem push_p (v : Byte) (s : State) : (push v s).p = s.p := by rw [push_eq]
@[simp] theorem push_ppu (v : Byte) (s : State) : (push v s).ppu = s.ppu := by rw [push_eq]
@[simp] theorem push_wram (v : Byte) (s : State) : (push v s).wram = s.wram := by rw [push_eq]
@[simp] theorem push_dmaStall (v : Byte) (s : State) : (push v s).dmaStall = s.dmaStall := by rw [push_eq]
@[simp] theorem push_extra (v : Byte) (s : State) : (push v s).extra = s.extra := by rw [push_eq]
@[simp] theorem push_tickCycles (v : Byte) (s : State) : (push v s).tickCycles = s.tickCycles := by rw [push_eq]
@[simp] theorem push_irqLine (v : Byte) (s : State) : (push v s).irqLine = s.irqLine := by rw [push_eq]
@[simp] theorem push_events (v : Byte) (s : State) : (push v s).events = s.events := by rw [push_eq]
@[simp] theorem push_reads (v : Byte) (s : State) : (push v s).reads = s.reads := by rw [push_eq]
@[simp] theorem push_cfg (v : Byte) (s : State) : (push v s).cfg = s.cfg := by rw [push_eq]

/-- A push stores its byte where the stack pointer was. -/
theorem peek_push (v : Byte) (s : State) : peek (stackAddr s.sp) (push v s) = some v := by
  have h := peek_memWrite v (cellOf_stack s.cfg.bus s.sp)
  unfold peek at h ⊢
  rw [push_eq]
  rw [memWrite_stack] at h
  exact h

/-- A push changes no other byte of memory. -/
theorem push_memory (v : Byte) (s : State) : MemoryKeptBut (stackAddr s.sp) s (push v s) := by
  intro a ha
  have h := memWrite_memory (stackAddr s.sp) v s a ha
  unfold peek at h ⊢
  rw [push_eq]
  rw [memWrite_stack] at h
  exact h

/-- A pop reads the byte above the stack pointer, and changes the stack pointer only. -/
theorem pop_state (s : State) : (pop s).2 = s.setSp (s.sp + 1) := memRead_stack _ _

theorem pop_value (s : State) : peek (stackAddr (s.sp + 1)) s = some (pop s).1 := by
  have h := (peek_memRead (s := s.setSp (s.sp + 1)) (placeable_stack s.cfg.bus (s.sp + 1))).1
  exact h

theorem pop_eq_of_peek {s : State} {b : Byte} (h : peek (stackAddr (s.sp + 1)) s = some b) :
    pop s = (b, s.setSp (s.sp + 1)) := by
  have h1 := pop_value s
  rw [h] at h1
  have h2 := pop_state s
  cases hp : pop s
  simp_all

theorem popWord_state (s : State) : (popWord s).2 = s.setSp (s.sp + 2) := by
  simp only [popWord, pop_state, setSp_sp]
  have : s.sp + 1 + 1 = s.sp + 2 := by rw [BitVec.add_assoc]; rfl
  rw [this]
  rfl

theorem popWord_value (s : State) :
    ∃ lo hi, peek (stackAddr (s.sp + 1)) s = some lo ∧ peek (stackAddr (s.sp + 2)) s = some hi ∧
      (popWord s).1 = mkWord hi lo := by
  refine ⟨(pop s).1, (pop (pop s).2).1, pop_value s, ?_, rfl⟩
  have h := pop_value (pop s).2
  have : s.sp + 1 + 1 = s.sp + 2 := by rw [BitVec.add_assoc]; rfl
  rw [pop_state, setSp_sp, this] at h
  rw [pop_state]
  exact h

theorem popWord_eq_of_peek {s : State} {lo hi : Byte} (h1 : peek (stackAddr (s.sp + 1)) s = some lo)
    (h2 : peek (stackAddr (s.sp + 2)) s = some hi) : popWord s = (mkWord hi lo, s.setSp (s.sp + 2)) := by
  obtain ⟨lo', hi', h1', h2', h3⟩ := popWord_value s
  rw [h1] at h1'
  rw [h2] at h2'
  have h4 := popWord_state s
  cases hp : popWord s
  simp_all

/-! Words of memory. -/

/-- Two bytes of memory, read as a word without a side effect. -/
theorem readWord_of_peek {a : Word} {s : State} {lo hi : Byte} (h1 : peek a s = some lo) (h2 : peek (a + 1) s = some hi) :
    readWord a s = (mkWord hi lo, s) := by
  simp only [readWord, memRead_of_peek h1, memRead_of_peek h2]

/-! Effective addresses. -/

/-- A zero-page pointer is read without a side effect. -/
theorem zeroPagePointer_state (z : Byte) (s : State) : (zeroPagePointer z s).2 = s := by
  simp only [zeroPagePointer, memRead_zeroPage]

theorem zeroPagePointer_of_peek {z lo hi : Byte} {s : State} (h1 : peek (zext16 z) s = some lo)
    (h2 : peek (zext16 (z + 1)) s = some hi) : zeroPagePointer z s = (mkWord hi lo, s) := by
  simp only [zeroPagePointer, memRead_of_peek h1, memRead_of_peek h2]

/-- No addressing mode changes the state: pointers lie in the zero page, which is memory. -/
@[simp] theorem resolve_state (m : MemOperand) (s : State) : (resolve m s).state = s := by
  cases m <;> simp [resolve, indexed, zeroPagePointer_state]

theorem payCrossing_eq (m : MemOperand) (s : State) :
    payCrossing (resolve m s) = s.setExtra (s.extra + (resolve m s).crossed.toNat) := by
  unfold payCrossing
  rw [resolve_state]
  cases (resolve m s).crossed <;> rfl

/-- The read of a memory operand: one bus read of its effective address, the page-cross cycle paid. -/
theorem readMem_eq (m : MemOperand) (s : State) :
    readMem m s = memRead (resolve m s).ea (s.setExtra (s.extra + (resolve m s).crossed.toNat)) := by
  rw [readMem, payCrossing_eq]

theorem modifyRead_eq (m : MemOperand) (s : State) : modifyRead m s = memRead (resolve m s).ea s := by
  rw [modifyRead, resolve_state]

theorem storeEA_eq (m : MemOperand) (v : Byte) (s : State) : storeEA m v s = memWrite (resolve m s).ea v s := by
  rw [storeEA, resolve_state]

theorem modifyMem_eq (m : MemOperand) (f : Byte → Byte) (s : State) :
    modifyMem m f s = memWrite (resolve m s).ea (f (memRead (resolve m s).ea s).1) (memRead (resolve m s).ea s).2 := by
  rw [modifyMem, modifyRead_eq]

/-- What the read of an operand can change: the page-cross account, and what a bus read can. -/
theorem readM_effect (o : ReadOperand) (s : State) : ReadEffect (s.setExtra (readM o s).2.extra) (readM o s).2 := by
  cases o with
  | imm b => exact ReadEffect.refl s
  | mem m =>
    simp only [readM, readMem_eq]
    have h := memRead_effect (resolve m s).ea (s.setExtra (s.extra + (resolve m s).crossed.toNat))
    have he := h.extra
    rw [he]
    exact h

theorem readMem_effect (m : MemOperand) (s : State) : ReadEffect (s.setExtra (readMem m s).2.extra) (readMem m s).2 :=
  readM_effect (.mem m) s

section
variable (o : ReadOperand) (s : State)
@[simp] theorem readM_a : (readM o s).2.a = s.a := (readM_effect o s).a
@[simp] theorem readM_x : (readM o s).2.x = s.x := (readM_effect o s).x
@[simp] theorem readM_y : (readM o s).2.y = s.y := (readM_effect o s).y
@[simp] theorem readM_sp : (readM o s).2.sp = s.sp := (readM_effect o s).sp
@[simp] theorem readM_pc : (readM o s).2.pc = s.pc := (readM_effect o s).pc
@[simp] theorem readM_p : (readM o s).2.p = s.p := (readM_effect o s).p
theorem readM_memory : MemoryKept s (readM o s).2 := (readM_effect o s).memory
theorem readM_ppuMemory : PpuMemoryKept s (readM o s).2 := (readM_effect o s).ppuMemory
end

section
variable (m : MemOperand) (s : State)
@[simp] theorem readMem_a : (readMem m s).2.a = s.a := (readMem_effect m s).a
@[simp] theorem readMem_x : (readMem m s).2.x = s.x := (readMem_effect m s).x
@[simp] theorem readMem_y : (readMem m s).2.y = s.y := (readMem_effect m s).y
@[simp] theorem readMem_sp : (readMem m s).2.sp = s.sp := (readMem_effect m s).sp
@[simp] theorem readMem_pc : (readMem m s).2.pc = s.pc := (readMem_effect m s).pc
@[simp] theorem readMem_p : (readMem m s).2.p = s.p := (readMem_effect m s).p
theorem readMem_memory : MemoryKept s (readMem m s).2 := (readMem_effect m s).memory
theorem readMem_ppuMemory : PpuMemoryKept s (readMem m s).2 := (readMem_effect m s).ppuMemory

/-- A read-modify-write stays within what a write can change. -/
theorem modifyMem_effect (f : Byte → Byte) : WriteEffect s (modifyMem m f s) := by
  rw [modifyMem_eq]
  exact (WriteEffect.of_read (memRead_effect _ s)).trans (memWrite_effect _ _ _)

theorem storeEA_effect (v : Byte) : WriteEffect s (storeEA m v s) := by
  rw [storeEA_eq]
  exact memWrite_effect _ _ _

/-- A read-modify-write changes no byte of memory but its operand. -/
theorem modifyMem_memory (f : Byte → Byte) : MemoryKeptBut (resolve m s).ea s (modifyMem m f s) := by
  rw [modifyMem_eq]
  have h := memRead_effect (resolve m s).ea s
  intro a ha
  have hw := memWrite_memory (resolve m s).ea (f (memRead (resolve m s).ea s).1) (memRead (resolve m s).ea s).2 a
  rw [h.cfg] at hw
  exact (hw ha).trans (h.memory a)

theorem storeEA_memory (v : Byte) : MemoryKeptBut (resolve m s).ea s (storeEA m v s) := by
  rw [storeEA_eq]
  exact memWrite_memory _ _ _

/-- A read-modify-write of a byte of memory leaves the computed byte there. -/
theorem peek_modifyMem (f : Byte → Byte) {c : Store × Nat} (h : cellOf s.cfg.bus (resolve m s).ea = some c) :
    peek (resolve m s).ea (modifyMem m f s) = some (f (modifyRead m s).1) := by
  rw [modifyMem_eq, modifyRead_eq]
  exact peek_memWrite _ (by rw [(memRead_effect _ s).cfg]; exact h)

theorem peek_storeEA (v : Byte) {c : Store × Nat} (h : cellOf s.cfg.bus (resolve m s).ea = some c) :
    peek (resolve m s).ea (storeEA m v s) = some v := by
  rw [storeEA_eq]
  exact peek_memWrite v h
end

/-! What each shared operation does, in the terms claims use. -/

/-- `setNZ` writes N and Z from its value. -/
theorem setNZ_from (v p : Byte) : NZFrom v p (setNZ v p) := by
  refine ⟨by simp, ?_, fun f hn hz => by simp [hn, hz]⟩
  exact (isBitSet_setNZ v p .z).trans rfl

/-- A shift's flags: N and Z from its result, C the bit shifted out. -/
theorem shiftFlags_from (v p : Byte) (c : Bool) : NZCFrom v c p (shiftFlags c v p) := by
  refine ⟨by simp, ?_, by simp, fun f hn hz hc => by simp [hn, hz, hc]⟩
  exact (isBitSet_shiftFlags c v p .z).trans rfl

/-- A bus write stores its byte. -/
theorem memWrite_stored (w : Word) (v : Byte) (s : State) : StoredAt w v s (memWrite w v s) := by
  refine ⟨rfl, memWrite_effect w v s, memWrite_memory w v s, fun h => ?_⟩
  cases hc : cellOf s.cfg.bus w with
  | none => exact absurd hc h
  | some c =>
    refine ⟨peek_memWrite v hc, ?_⟩
    unfold cellOf at hc
    unfold memWrite
    split at hc <;> simp_all

theorem storeEA_stored (m : MemOperand) (v : Byte) (s : State) : StoredAt (resolve m s).ea v s (storeEA m v s) := by
  rw [storeEA_eq]
  exact memWrite_stored _ v s

/-- A read-modify-write modifies its operand. -/
theorem modifyMem_modified (m : MemOperand) (f : Byte → Byte) (s : State) :
    ModifiedAt (resolve m s).ea f s (modifyMem m f s) := by
  refine ⟨modifyMem_eq m f s, modifyMem_effect m s f, modifyMem_memory m s f, fun h => ?_⟩
  have hr : peek (resolve m s).ea s = some (memRead (resolve m s).ea s).1 ∧ (memRead (resolve m s).ea s).2 = s := by
    apply peek_memRead
    unfold cellOf at h
    unfold placeable
    split at h <;> simp_all
  rw [modifyMem_eq, hr.2]
  have hw := (memWrite_stored (resolve m s).ea (f (memRead (resolve m s).ea s).1) s).2.2.2 h
  exact ⟨hr.1, hw.1, hw.2.1, hw.2.2.1⟩

/-- An unstable store stores its byte at its address. -/
theorem unstableStore_stored (base : Word) (index value : Byte) (s : State) :
    UnstableStored base index value s (unstableStore base index value s) := by
  unfold UnstableStored unstableStore unstableAddr pageCrossed
  simp only
  by_cases h : hiByte base = hiByte (base + zext16 index)
  · rw [if_pos h, if_neg (by simpa using h)]
    exact memWrite_stored _ _ s
  · rw [if_neg h, if_pos (by simpa using h)]
    exact memWrite_stored _ _ s

theorem readM_kept (o : ReadOperand) (s : State) : OperandReadKept o s :=
  ⟨readM_effect o s, readM_memory o s, readM_ppuMemory o s⟩

/-! The shared operations keep what every bus access keeps. -/

section
variable {s t : State} (h : Quiet s t)
include h
theorem Quiet.push (v : Byte) : Quiet s (push v t) := (h.memWrite _ v).setSp _
theorem Quiet.pop : Quiet s (pop t).2 := (h.setSp _).memRead _
theorem Quiet.pushWord (w : Word) : Quiet s (pushWord w t) := (h.push _).push _
theorem Quiet.popWord : Quiet s (popWord t).2 := h.pop.pop
theorem Quiet.readWord (a : Word) : Quiet s (readWord a t).2 := (h.memRead a).memRead _
theorem Quiet.fetch : Quiet s (fetch t).2 := (h.memRead _).setPc _
theorem Quiet.fetchBytes (n : Nat) : Quiet s (fetchBytes n t).2 := by
  induction n generalizing t with
  | zero => exact h
  | succ n ih => exact ih h.fetch
theorem Quiet.readMem (m : MemOperand) : Quiet s (readMem m t).2 := by
  rw [readMem_eq]
  exact (h.setExtra _).memRead _
theorem Quiet.readM (o : ReadOperand) : Quiet s (readM o t).2 := by
  cases o with
  | imm b => exact h
  | mem m => exact h.readMem m
theorem Quiet.storeEA (m : MemOperand) (v : Byte) : Quiet s (storeEA m v t) := by
  rw [storeEA_eq]
  exact h.memWrite _ v
theorem Quiet.modifyMem (m : MemOperand) (f : Byte → Byte) : Quiet s (modifyMem m f t) := by
  rw [modifyMem_eq]
  exact (h.memRead _).memWrite _ _
theorem Quiet.unstableStore (base : Word) (i v : Byte) : Quiet s (unstableStore base i v t) := h.memWrite _ _
theorem Quiet.branch (r : Byte) (c : Bool) : Quiet s (branch r c t) := by
  unfold Machine.branch
  split
  · exact (h.setExtra _).setPc _
  · exact h
theorem Quiet.enterInterrupt (r : Word) (st : Byte) (v : Word) : Quiet s (enterInterrupt r st v t) :=
  ((((h.pushWord r).push st).putFlag (by decide) (by decide) true).readWord v).setPc _
theorem Quiet.returnFromInterrupt : Quiet s (returnFromInterrupt t) :=
  ((h.pop.setP fun _ => by simp [StatusOk]).popWord).setPc _
theorem Quiet.resultToA (v : Byte) : Quiet s (resultToA v t) := (h.setA v).setNZOf v
theorem Quiet.addToA (m : Byte) : Quiet s (addToA m t) :=
  (h.setA _).setP fun hs => by simpa [StatusOk] using h.status hs
theorem Quiet.jumpTarget (o : JumpOperand) : Quiet s (jumpTarget o t).2 := by
  cases o with
  | abs w => exact h
  | ind w => exact (h.memRead _).memRead _
theorem Quiet.shiftOperand (o : ShiftOperand) (f : Byte → Byte) (n : Nat) (hp : StatusOk s.p → StatusOk t.p) :
    Quiet s (shiftOperand o f n t) := by
  cases o with
  | acc => exact (h.setA _).setP fun hs => by simpa [StatusOk] using hp hs
  | mem m => exact (h.modifyMem m f).setP fun hs => by simpa [StatusOk] using hp hs
theorem Quiet.shaBase (m : MemOperand) : Quiet s (shaBase m t).2 := by
  cases m
  case indY z => exact (h.memRead _).memRead _
  case absY w => exact h
  all_goals
    simp only [Machine.shaBase, resolve_state]
    exact h
theorem Quiet.nopEffect (o : NopOperand) : Quiet s (nopEffect o t) := by
  cases o with
  | implied => exact h
  | imm b => exact h
  | mem m => exact h.readMem m
end

end Sys2Proof.Machine
end

