-- ==== Sys2Proof/Laws/Exec.lean ====
section
/-! SUPPORT. The outcome of every instruction, and what every instruction keeps. -/

namespace Sys2Proof.Machine

open Sys2Proof.Laws

theorem ifFormed_of {i : Instr} (h : i.wellFormed = true) (s n : State) : ifFormed i s n = .next n := by
  rw [ifFormed, if_pos h]

theorem ifFormed_of_not {i : Instr} (h : i.wellFormed = false) (s n : State) :
    ifFormed i s n = .fault (.decodeDefect (.badForm i) s.pc) := by
  rw [ifFormed, h]
  rfl

theorem ifFormed_next {i : Instr} {s n t : State} (h : ifFormed i s n = .next t) : n = t := by
  unfold ifFormed at h
  split at h
  · cases h
    rfl
  · cases h

/-- An instruction's outcome is `ifFormed`'s: a next state if the opcode map has its form, else the decode defect. -/
theorem exec_formed (i : Instr) (s : State) : ∃ n, exec i s = ifFormed i s n := by
  cases i <;> exact ⟨_, rfl⟩

theorem exec_completes {i : Instr} (h : i.wellFormed = true) (s : State) : ∃ t, exec i s = .next t := by
  obtain ⟨n, hn⟩ := exec_formed i s
  exact ⟨n, by rw [hn, ifFormed_of h]⟩

theorem exec_illFormed {i : Instr} (h : i.wellFormed = false) (s : State) :
    exec i s = .fault (.decodeDefect (.badForm i) s.pc) := by
  obtain ⟨n, hn⟩ := exec_formed i s
  rw [hn, ifFormed_of_not h]

/-- An outcome that keeps what every bus access keeps, if it is a next state. -/
def QuietOutcome (s : State) (r : Host.Outcome State Fault Refusal) : Prop := ∀ t, r = .next t → Quiet s t

theorem QuietOutcome.next {s n : State} (h : Quiet s n) : QuietOutcome s (.next n) := by
  intro t ht
  cases ht
  exact h

theorem QuietOutcome.formed {s n : State} (i : Instr) (h : Quiet s n) : QuietOutcome s (ifFormed i s n) :=
  fun _ ht => ifFormed_next ht ▸ h

/-- Every instruction keeps what every bus access keeps. -/
theorem exec_quietOutcome (i : Instr) (s : State) : QuietOutcome s (exec i s) := by
  have q := Quiet.refl s
  cases i with
  | lda o => exact .formed _ (((q.readM o).setA _).setNZOf _)
  | ldx o => exact .formed _ (((q.readM o).setX _).setNZOf _)
  | ldy o => exact .formed _ (((q.readM o).setY _).setNZOf _)
  | sta m => exact .formed _ (q.storeEA m _)
  | stx m => exact .formed _ (q.storeEA m _)
  | sty m => exact .formed _ (q.storeEA m _)
  | tax => exact .next ((q.setX _).setNZOf _)
  | tay => exact .next ((q.setY _).setNZOf _)
  | txa => exact .next ((q.setA _).setNZOf _)
  | tya => exact .next ((q.setA _).setNZOf _)
  | tsx => exact .next ((q.setX _).setNZOf _)
  | txs => exact .next (q.setSp _)
  | pha => exact .next (q.push _)
  | php => exact .next (q.push _)
  | plp => exact .next (q.pop.setP fun _ => by simp [StatusOk])
  | pla => exact .next ((q.pop.setA _).setNZOf _)
  | adc o => exact .formed _ ((q.readM o).addToA _)
  | sbc o => exact .formed _ ((q.readM o).addToA _)
  | and o => exact .formed _ ((q.readM o).resultToA _)
  | ora o => exact .formed _ ((q.readM o).resultToA _)
  | eor o => exact .formed _ ((q.readM o).resultToA _)
  | bit m => exact .formed _ ((q.readMem m).setP fun hs => by simpa [StatusOk, bitFlags] using hs)
  | cmp o => exact .formed _ ((q.readM o).setP fun hs => by simpa [StatusOk] using hs)
  | cpx o => exact .formed _ ((q.readM o).setP fun hs => by simpa [StatusOk] using hs)
  | cpy o => exact .formed _ ((q.readM o).setP fun hs => by simpa [StatusOk] using hs)
  | inc m => exact .formed _ ((q.modifyMem m _).setNZOf _)
  | dec m => exact .formed _ ((q.modifyMem m _).setNZOf _)
  | inx => exact .next ((q.setX _).setNZOf _)
  | iny => exact .next ((q.setY _).setNZOf _)
  | dex => exact .next ((q.setX _).setNZOf _)
  | dey => exact .next ((q.setY _).setNZOf _)
  | asl o => exact .formed _ (q.shiftOperand o _ _ id)
  | lsr o => exact .formed _ (q.shiftOperand o _ _ id)
  | rol o => exact .formed _ (q.shiftOperand o _ _ id)
  | ror o => exact .formed _ (q.shiftOperand o _ _ id)
  | bpl r => exact .next (q.branch r _)
  | bmi r => exact .next (q.branch r _)
  | bvc r => exact .next (q.branch r _)
  | bvs r => exact .next (q.branch r _)
  | bcc r => exact .next (q.branch r _)
  | bcs r => exact .next (q.branch r _)
  | bne r => exact .next (q.branch r _)
  | beq r => exact .next (q.branch r _)
  | jmp o => exact .next ((q.jumpTarget o).setPc _)
  | jsr w => exact .next ((q.pushWord _).setPc _)
  | rts => exact .next (q.popWord.setPc _)
  | rti => exact .next (q.returnFromInterrupt)
  | brk => exact .next (q.enterInterrupt _ _ _)
  | clc => exact .next (q.putFlag (by decide) (by decide) _)
  | sec => exact .next (q.putFlag (by decide) (by decide) _)
  | cli => exact .next (q.putFlag (by decide) (by decide) _)
  | sei => exact .next (q.putFlag (by decide) (by decide) _)
  | cld => exact .next (q.putFlag (by decide) (by decide) _)
  | sed => exact .next (q.putFlag (by decide) (by decide) _)
  | clv => exact .next (q.putFlag (by decide) (by decide) _)
  | nop => exact .next (q)
  | slo m => exact .formed _ (((q.modifyMem m _).putFlag (by decide) (by decide) _).resultToA _)
  | rla m => exact .formed _ (((q.modifyMem m _).putFlag (by decide) (by decide) _).resultToA _)
  | sre m => exact .formed _ (((q.modifyMem m _).putFlag (by decide) (by decide) _).resultToA _)
  | rra m => exact .formed _ (((q.modifyMem m _).putFlag (by decide) (by decide) _).addToA _)
  | dcp m => exact .formed _ ((q.modifyMem m _).setP fun hs => by simpa [StatusOk] using hs)
  | isc m => exact .formed _ ((q.modifyMem m _).addToA _)
  | sax m => exact .formed _ (q.storeEA m _)
  | lax m => exact .formed _ ((((q.readMem m).setA _).setX _).setNZOf _)
  | las w => exact .next (((((q.readMem _).setA _).setX _).setSp _).setNZOf _)
  | anc op b => exact .formed _ ((q.resultToA _).putFlag (by decide) (by decide) _)
  | alr b => exact .next ((q.putFlag (by decide) (by decide) _).resultToA _)
  | arr b => exact .next (((q.resultToA _).putFlag (by decide) (by decide) _).putFlag (by decide) (by decide) _)
  | ane b => exact .next (q.resultToA _)
  | lxa b => exact .next ((q.setX _).resultToA _)
  | sbx b => exact .next ((q.setX _).setP fun hs => by simpa [StatusOk] using hs)
  | usbc b => exact .next (q.addToA _)
  | sha m => exact .formed _ ((q.shaBase m).unstableStore _ _ _)
  | shx w => exact .next (q.unstableStore _ _ _)
  | shy w => exact .next (q.unstableStore _ _ _)
  | tas w => exact .next ((q.setSp _).unstableStore _ _ _)
  | nopU op o => exact .formed _ (q.nopEffect o)
  | jam op => exact .formed _ (q.setPc _)

theorem exec_quiet {i : Instr} {s t : State} (h : exec i s = .next t) : Quiet s t := exec_quietOutcome i s t h

end Sys2Proof.Machine
end

