-- ==== Sys2Proof/Laws/PerInstr.lean ====
section
/-! SUPPORT. The per-instruction family WellFormed: an instruction is a row of the opcode map (Sys2Proof/WellFormed.lean)
exactly if the "Encoding" list of its own rule gives it an opcode byte (Sys2Proof/Decode.lean), and then its encoding is as
long as the opcode byte says. The two lists are written from different places of the spec. -/

namespace Sys2Proof.Laws.WellFormed

/-- The family's statement. -/
def Statement (i : Instr) : Prop :=
  (opcodeOf i).isSome = i.wellFormed ∧ (i.wellFormed = true → (encode i).length = 1 + (operandBytesOf i).length)

theorem holds (i : Instr) : Statement i := by
  have h := opcodeOf_isSome i
  refine ⟨h, fun hw => ?_⟩
  rw [hw] at h
  obtain ⟨op, ho⟩ := Option.isSome_iff_exists.1 h
  simp [encode, ho, Nat.add_comm]

theorem lda (o : ReadOperand) : Statement (.lda o) := holds _
theorem ldx (o : ReadOperand) : Statement (.ldx o) := holds _
theorem ldy (o : ReadOperand) : Statement (.ldy o) := holds _
theorem sta (m : MemOperand) : Statement (.sta m) := holds _
theorem stx (m : MemOperand) : Statement (.stx m) := holds _
theorem sty (m : MemOperand) : Statement (.sty m) := holds _
theorem tax : Statement (.tax) := holds _
theorem tay : Statement (.tay) := holds _
theorem txa : Statement (.txa) := holds _
theorem tya : Statement (.tya) := holds _
theorem tsx : Statement (.tsx) := holds _
theorem txs : Statement (.txs) := holds _
theorem pha : Statement (.pha) := holds _
theorem php : Statement (.php) := holds _
theorem plp : Statement (.plp) := holds _
theorem pla : Statement (.pla) := holds _
theorem adc (o : ReadOperand) : Statement (.adc o) := holds _
theorem sbc (o : ReadOperand) : Statement (.sbc o) := holds _
theorem and (o : ReadOperand) : Statement (.and o) := holds _
theorem ora (o : ReadOperand) : Statement (.ora o) := holds _
theorem eor (o : ReadOperand) : Statement (.eor o) := holds _
theorem bit (m : MemOperand) : Statement (.bit m) := holds _
theorem cmp (o : ReadOperand) : Statement (.cmp o) := holds _
theorem cpx (o : ReadOperand) : Statement (.cpx o) := holds _
theorem cpy (o : ReadOperand) : Statement (.cpy o) := holds _
theorem inc (m : MemOperand) : Statement (.inc m) := holds _
theorem dec (m : MemOperand) : Statement (.dec m) := holds _
theorem inx : Statement (.inx) := holds _
theorem iny : Statement (.iny) := holds _
theorem dex : Statement (.dex) := holds _
theorem dey : Statement (.dey) := holds _
theorem asl (o : ShiftOperand) : Statement (.asl o) := holds _
theorem lsr (o : ShiftOperand) : Statement (.lsr o) := holds _
theorem rol (o : ShiftOperand) : Statement (.rol o) := holds _
theorem ror (o : ShiftOperand) : Statement (.ror o) := holds _
theorem bpl (r : Byte) : Statement (.bpl r) := holds _
theorem bmi (r : Byte) : Statement (.bmi r) := holds _
theorem bvc (r : Byte) : Statement (.bvc r) := holds _
theorem bvs (r : Byte) : Statement (.bvs r) := holds _
theorem bcc (r : Byte) : Statement (.bcc r) := holds _
theorem bcs (r : Byte) : Statement (.bcs r) := holds _
theorem bne (r : Byte) : Statement (.bne r) := holds _
theorem beq (r : Byte) : Statement (.beq r) := holds _
theorem jmp (o : JumpOperand) : Statement (.jmp o) := holds _
theorem jsr (w : Word) : Statement (.jsr w) := holds _
theorem rts : Statement (.rts) := holds _
theorem rti : Statement (.rti) := holds _
theorem brk : Statement (.brk) := holds _
theorem clc : Statement (.clc) := holds _
theorem sec : Statement (.sec) := holds _
theorem cli : Statement (.cli) := holds _
theorem sei : Statement (.sei) := holds _
theorem cld : Statement (.cld) := holds _
theorem sed : Statement (.sed) := holds _
theorem clv : Statement (.clv) := holds _
theorem nop : Statement (.nop) := holds _
theorem slo (m : MemOperand) : Statement (.slo m) := holds _
theorem rla (m : MemOperand) : Statement (.rla m) := holds _
theorem sre (m : MemOperand) : Statement (.sre m) := holds _
theorem rra (m : MemOperand) : Statement (.rra m) := holds _
theorem dcp (m : MemOperand) : Statement (.dcp m) := holds _
theorem isc (m : MemOperand) : Statement (.isc m) := holds _
theorem sax (m : MemOperand) : Statement (.sax m) := holds _
theorem lax (m : MemOperand) : Statement (.lax m) := holds _
theorem las (w : Word) : Statement (.las w) := holds _
theorem anc (op : Byte) (b : Byte) : Statement (.anc op b) := holds _
theorem alr (b : Byte) : Statement (.alr b) := holds _
theorem arr (b : Byte) : Statement (.arr b) := holds _
theorem ane (b : Byte) : Statement (.ane b) := holds _
theorem lxa (b : Byte) : Statement (.lxa b) := holds _
theorem sbx (b : Byte) : Statement (.sbx b) := holds _
theorem usbc (b : Byte) : Statement (.usbc b) := holds _
theorem sha (m : MemOperand) : Statement (.sha m) := holds _
theorem shx (w : Word) : Statement (.shx w) := holds _
theorem shy (w : Word) : Statement (.shy w) := holds _
theorem tas (w : Word) : Statement (.tas w) := holds _
theorem nopU (op : Byte) (o : NopOperand) : Statement (.nopU op o) := holds _
theorem jam (op : Byte) : Statement (.jam op) := holds _

end Sys2Proof.Laws.WellFormed
end

