-- ==== Sys2Proof/Laws/PpuTick.lean ====
section
/-! SUPPORT. The passing of PPU time: what it changes, where the counters end, how many frames it emits. -/

namespace Sys2Proof.Machine

open Sys2Proof.Laws

theorem TimeEffect.refl (s : State) : TimeEffect s s := rfl

theorem TimeEffect.trans {s t u : State} (h₁ : TimeEffect s t) (h₂ : TimeEffect t u) : TimeEffect s u := by
  unfold TimeEffect at *
  refine h₂.trans ?_
  rw [h₁]

/-- What scanline `line` is followed by. -/
def nextLine (line : Nat) : Nat := if line + 1 = 262 then 0 else line + 1

/-! One scanline. -/

theorem sprite0Check_time (line : Nat) (s : State) : TimeEffect s (sprite0Check line s) := by
  unfold sprite0Check
  split <;> rfl

@[simp] theorem sprite0Check_scanline (line : Nat) (s : State) : (sprite0Check line s).ppu.scanline = s.ppu.scanline := by
  unfold sprite0Check
  split <;> rfl

@[simp] theorem sprite0Check_cycle (line : Nat) (s : State) : (sprite0Check line s).ppu.cycle = s.ppu.cycle := by
  unfold sprite0Check
  split <;> rfl

@[simp] theorem sprite0Check_vblank (line : Nat) (s : State) : (sprite0Check line s).ppu.vblank = s.ppu.vblank := by
  unfold sprite0Check
  split <;> rfl

@[simp] theorem sprite0Check_nmiPending (line : Nat) (s : State) :
    (sprite0Check line s).ppu.nmiPending = s.ppu.nmiPending := by
  unfold sprite0Check
  split <;> rfl

@[simp] theorem sprite0Check_events (line : Nat) (s : State) : (sprite0Check line s).events = s.events := by
  unfold sprite0Check
  split <;> rfl

/-- The check can only set the flag, and only on lines 0 to 239. -/
theorem sprite0Check_hit {line : Nat} {s : State} (h : (sprite0Check line s).ppu.spriteHitZero = true) :
    s.ppu.spriteHitZero = true ∨ line < 240 := by
  unfold sprite0Check at h
  split at h
  · rename_i hc
    exact .inr hc.2.2.1
  · exact .inl h

theorem reachScanline_time (s : State) : TimeEffect s (reachScanline s) := by
  unfold reachScanline
  split
  · rfl
  · split
    · unfold endFrame
      generalize renderFrame (wrapScanline s) = f
      rfl
    · rfl

theorem bumpScanline_time (s : State) : TimeEffect s (bumpScanline s) := rfl

theorem endFrame_events (s : State) : (endFrame s).events = s.events ++ [.frame (renderFrame (wrapScanline s))] := rfl

theorem advanceScanline_time (s : State) : TimeEffect s (advanceScanline s) :=
  ((sprite0Check_time _ s).trans (bumpScanline_time _)).trans (reachScanline_time _)

theorem advanceScanline_cycle (s : State) : (advanceScanline s).ppu.cycle = s.ppu.cycle := by
  unfold advanceScanline reachScanline
  split
  · simp [enterVBlank, bumpScanline]
  · split
    · simp [endFrame, wrapScanline, bumpScanline]
    · simp [bumpScanline]

theorem advanceScanline_scanline (s : State) : (advanceScanline s).ppu.scanline = nextLine s.ppu.scanline := by
  have hb : (bumpScanline (sprite0Check s.ppu.scanline s)).ppu.scanline = s.ppu.scanline + 1 := by
    simp [bumpScanline]
  unfold advanceScanline reachScanline nextLine
  rw [hb]
  split
  · rename_i h
    rw [if_neg (by omega)]
    simp [enterVBlank, hb, h]
  · split
    · simp [endFrame, wrapScanline]
    · exact hb

/-- A scanline emits one frame if it ends the frame, and nothing otherwise. -/
theorem advanceScanline_events (s : State) :
    ∃ l, (advanceScanline s).events = s.events ++ l ∧ frameCount l = if s.ppu.scanline + 1 = 262 then 1 else 0 := by
  have hb : (bumpScanline (sprite0Check s.ppu.scanline s)).ppu.scanline = s.ppu.scanline + 1 := by
    simp [bumpScanline]
  unfold advanceScanline reachScanline
  rw [hb]
  split
  · rename_i h
    exact ⟨[], by simp [enterVBlank, bumpScanline], by rw [if_neg (by omega)]; rfl⟩
  · split
    · rw [endFrame_events]
      exact ⟨[_], congrArg (· ++ [_]) (sprite0Check_events _ s), rfl⟩
    · exact ⟨[], by simp [bumpScanline], rfl⟩

/-! The invariant of the time-dependent flags. -/

/-- The part of the invariant that the passing of time concerns. -/
structure TimeInv (p : Ppu) : Prop where
  scanline : p.scanline < 262
  vblank   : p.vblank = true → 241 ≤ p.scanline
  hit      : p.spriteHitZero = true → p.scanline ≤ 240
  pending  : p.nmiPending = true → 241 ≤ p.scanline

theorem advanceScanline_timeInv {s : State} (h : TimeInv s.ppu) : TimeInv (advanceScanline s).ppu := by
  have hb : (bumpScanline (sprite0Check s.ppu.scanline s)).ppu.scanline = s.ppu.scanline + 1 := by
    simp [bumpScanline]
  have hlt := h.scanline
  unfold advanceScanline reachScanline
  rw [hb]
  split
  · rename_i h1
    exact ⟨by simp [enterVBlank, hb, h1], by simp [enterVBlank, hb, h1], by simp [enterVBlank], by simp [enterVBlank, hb, h1]⟩
  · split
    · exact ⟨by simp [endFrame, wrapScanline], by simp [endFrame, wrapScanline], by simp [endFrame, wrapScanline],
        by simp [endFrame, wrapScanline]⟩
    · rename_i h1 h2
      refine ⟨by omega, fun hv => ?_, fun hh => ?_, fun hp => ?_⟩
      · have := h.vblank (by simpa [bumpScanline] using hv)
        omega
      · rcases sprite0Check_hit (by simpa [bumpScanline] using hh) with hs | hs
        · have := h.hit hs
          omega
        · omega
      · have := h.pending (by simpa [bumpScanline] using hp)
        omega

/-! Any number of scanlines. -/

theorem advanceScanlines_time (n : Nat) (s : State) : TimeEffect s (advanceScanlines n s) := by
  induction n generalizing s with
  | zero => rfl
  | succ n ih => exact (advanceScanline_time s).trans (ih _)

theorem advanceScanlines_cycle (n : Nat) (s : State) : (advanceScanlines n s).ppu.cycle = s.ppu.cycle := by
  induction n generalizing s with
  | zero => rfl
  | succ n ih => exact (ih _).trans (advanceScanline_cycle s)

theorem advanceScanlines_timeInv (n : Nat) {s : State} (h : TimeInv s.ppu) : TimeInv (advanceScanlines n s).ppu := by
  induction n generalizing s with
  | zero => exact h
  | succ n ih => exact ih (advanceScanline_timeInv h)

/-- Where the scanline counter ends, and how many frames are emitted on the way. -/
theorem advanceScanlines_count (n : Nat) (s : State) (h : s.ppu.scanline < 262) :
    (advanceScanlines n s).ppu.scanline = (s.ppu.scanline + n) % 262 ∧
      ∃ l, (advanceScanlines n s).events = s.events ++ l ∧ frameCount l = (s.ppu.scanline + n) / 262 := by
  induction n generalizing s with
  | zero => exact ⟨by simp only [advanceScanlines, Nat.add_zero]; omega, [], by simp [advanceScanlines], by
      simp only [Nat.add_zero]
      rw [Nat.div_eq_of_lt h]
      rfl⟩
  | succ n ih =>
    have hs := advanceScanline_scanline s
    obtain ⟨l, hl, fl⟩ := advanceScanline_events s
    have hlt : (advanceScanline s).ppu.scanline < 262 := by
      rw [hs, nextLine]
      split <;> omega
    obtain ⟨hc, m, hm, fm⟩ := ih (advanceScanline s) hlt
    rw [advanceScanlines]
    refine ⟨?_, l ++ m, by rw [hm, hl, List.append_assoc], ?_⟩
    · rw [hc, hs, nextLine]
      split <;> omega
    · rw [frameCount_append, fl, fm, hs, nextLine]
      split <;> omega

/-! A call of `PPU.tick`. -/

theorem ppuTick_time (n : Nat) (s : State) : TimeEffect s (ppuTick n s) :=
  (show TimeEffect s (s.setPpu { s.ppu with cycle := (s.ppu.cycle + 3 * n) % 341 }) from rfl).trans
    (advanceScanlines_time _ _)

theorem ppuTick_cycle (n : Nat) (s : State) : (ppuTick n s).ppu.cycle = (s.ppu.cycle + 3 * n) % 341 :=
  advanceScanlines_cycle _ _

theorem ppuTick_timeInv (n : Nat) {s : State} (h : TimeInv s.ppu) : TimeInv (ppuTick n s).ppu :=
  advanceScanlines_timeInv _ ⟨h.scanline, h.vblank, h.hit, h.pending⟩

/-- `PPU.tick(n)` moves the PPU's time on by 3n PPU cycles, modulo the frame, and emits a frame for every frame crossed. -/
theorem ppuTick_count (n : Nat) (s : State) (hl : s.ppu.scanline < 262) :
    ppuTime (ppuTick n s) = (ppuTime s + 3 * n) % frameTime ∧
      ∃ l, (ppuTick n s).events = s.events ++ l ∧ frameCount l = (ppuTime s + 3 * n) / frameTime := by
  obtain ⟨h1, l, h2, h3⟩ := advanceScanlines_count ((s.ppu.cycle + 3 * n) / 341)
    (s.setPpu { s.ppu with cycle := (s.ppu.cycle + 3 * n) % 341 }) hl
  have h4 := ppuTick_cycle n s
  have h5 : (ppuTick n s).ppu.scanline = (s.ppu.scanline + (s.ppu.cycle + 3 * n) / 341) % 262 := h1
  refine ⟨?_, l, h2, ?_⟩
  · rw [ppuTime, ppuTime, frameTime, h4, h5]
    omega
  · rw [h3, ppuTime, frameTime]
    show (s.ppu.scanline + (s.ppu.cycle + 3 * n) / 341) / 262 = _
    omega

end Sys2Proof.Machine
end

