-- ==== Sys2Proof/Laws/Reset.lean ====
section
/-! SUPPORT. The state after reset. -/

namespace Sys2Proof.Laws

open Sys2Proof.Machine

/-- State.reset is the machine booted with the default parameters and a blank cartridge. -/
theorem reset_is_boot : State.reset = State.boot (RunConfig.ofCart Cart.blank) := rfl

/-- At power-on no memory has a listed byte. -/
theorem powerOn_memoriesWf (cfg : RunConfig) : memoriesWf (State.powerOn cfg) = true := by
  simp [memoriesWf, State.powerOn, Ppu.powerOn]

/-- The reset vector is memory on either bus. -/
theorem placeable_vector (bus : BusConfig) {a : Word} (h : 0x6000 ≤ a.toNat) : placeable bus a = true :=
  placeable_of_range bus a (.inr h)

/-- Loading the program counter changes the program counter only. -/
theorem loadProgramCounter_eq (s : State) : loadProgramCounter s = s.setPc (readWord resetVector s).1 := by
  have h1 := (peek_memRead (s := s) (placeable_vector s.cfg.bus (a := resetVector) (by decide))).2
  have h2 := (peek_memRead (s := s) (placeable_vector s.cfg.bus (a := resetVector + 1) (by decide))).2
  rw [loadProgramCounter, readWord, h1, h2]

end Sys2Proof.Laws
end

