-- ==== Sys2Proof/Laws/Step.lean ====
section
/-! SUPPORT. A tick, taken apart once: what it is made of, that it completes, and that it keeps the invariant. -/

namespace Sys2Proof.Machine

open Sys2Proof.Laws

theorem fetchBytes_length (n : Nat) (s : State) : (fetchBytes n s).1.length = n := by
  induction n generalizing s with
  | zero => rfl
  | succ n ih => simp [fetchBytes, ih]

/-- Every fetch reads an instruction of the opcode map. -/
theorem fetchInstr_decodes (s : State) :
    ∃ i, (fetchInstr s).2.1 = .ok (i, []) ∧ i.wellFormed = true := by
  obtain ⟨i, hi⟩ := decode_completes (fetch s).1 (fetchBytes (operandCount (fetch s).1) (fetch s).2).1 (fetchBytes_length _ _)
  exact ⟨i, hi, decode_formed hi⟩

theorem fetchInstr_quiet (s : State) : Quiet s (fetchInstr s).2.2 := (Quiet.refl s).fetch.fetchBytes _

/-- A tick: the poll, the fetch of an instruction, its execution to a next state, and the end of the tick. -/
theorem step_eq (s : State) :
    ∃ i t, i.wellFormed = true ∧ (fetchInstr (tickStart s)).2.1 = .ok (i, []) ∧
      exec i (fetchInstr (tickStart s)).2.2 = .next t ∧
      step s = .next (endTick (baseCycles (fetchInstr (tickStart s)).1) t) := by
  obtain ⟨i, hi, hw⟩ := fetchInstr_decodes (tickStart s)
  obtain ⟨t, ht⟩ := exec_completes hw (fetchInstr (tickStart s)).2.2
  exact ⟨i, t, hw, hi, ht, by simp only [step, runFetched, hi, ht]⟩

/-- What a tick's result is: some state `t` related to the start by `Quiet`, and the end of the tick. -/
theorem step_next {s t : State} (h : step s = .next t) :
    ∃ base u, Quiet (tickStart s) u ∧ t = endTick base u := by
  obtain ⟨i, u, -, -, hu, hs⟩ := step_eq s
  rw [h] at hs
  cases hs
  exact ⟨_, u, (fetchInstr_quiet _).trans (exec_quiet hu), rfl⟩

/-! The invariant. -/

theorem Inv.timeInv {s : State} (h : Inv s) : TimeInv s.ppu := ⟨h.scanline, h.vblank, h.hit, h.pending⟩

/-- The invariant without the two accounts of a tick in progress. -/
structure MidInv (s : State) : Prop where
  v        : s.ppu.v.toNat ≤ 0x3FFF
  cycle    : s.ppu.cycle < 341
  time     : TimeInv s.ppu
  overflow : s.ppu.spriteOverflow = false
  status   : StatusOk s.p
  irq      : s.irqLine = false
  memories : memoriesWf s = true

theorem Inv.mid {s : State} (h : Inv s) : MidInv s :=
  ⟨h.v, h.cycle, h.timeInv, h.overflow, h.status, h.irq, h.memories⟩

theorem MidInv.quiet {s t : State} (h : MidInv s) (q : Quiet s t) : MidInv t where
  v := q.v h.v
  cycle := by rw [q.cycle]; exact h.cycle
  time := by
    refine ⟨by rw [q.scanline]; exact h.time.scanline, fun hv => ?_, fun hh => ?_, fun hp => ?_⟩
    · rw [q.scanline]
      exact h.time.vblank (q.vblank hv)
    · rw [q.scanline]
      exact h.time.hit (by rw [← q.hit]; exact hh)
    · rw [q.scanline]
      rcases q.pending hp with hp | hv
      · exact h.time.pending hp
      · exact h.time.vblank hv
  overflow := by rw [q.overflow]; exact h.overflow
  status := q.status h.status
  irq := by rw [q.irq]; exact h.irq
  memories := q.memories h.memories

theorem MidInv.ppuTick {s : State} (h : MidInv s) (n : Nat) : MidInv (ppuTick n s) := by
  have e := ppuTick_time n s
  refine ⟨?_, ?_, ppuTick_timeInv n h.time, ?_, ?_, ?_, ?_⟩
  · rw [e]
    exact h.v
  · rw [ppuTick_cycle]
    exact Nat.mod_lt _ (by decide)
  · rw [e]
    exact h.overflow
  · rw [e]
    exact h.status
  · rw [e]
    exact h.irq
  · rw [e]
    exact h.memories

theorem MidInv.consumeNmi {s : State} (h : MidInv s) : MidInv (consumeNmi s) :=
  ⟨h.v, h.cycle, ⟨h.time.scanline, h.time.vblank, h.time.hit, by simp [Machine.consumeNmi]⟩, h.overflow, h.status, h.irq,
    h.memories⟩

theorem MidInv.pollInterrupts {s : State} (h : MidInv s) : MidInv (pollInterrupts s) := by
  unfold Machine.pollInterrupts
  split
  · exact (h.consumeNmi.quiet ((Quiet.refl _).enterInterrupt _ _ _)).ppuTick _
  · split
    · exact (h.quiet ((Quiet.refl _).enterInterrupt _ _ _)).ppuTick _
    · exact h

theorem MidInv.tickStart {s : State} (h : MidInv s) : MidInv (tickStart s) :=
  h.pollInterrupts.quiet ((Quiet.refl _).setExtra 0)

/-- The end of a tick pays every account. -/
theorem MidInv.endTick {s : State} (h : MidInv s) (base : Nat) : Inv (endTick base s) := by
  have h' : MidInv (((s.setExtra 0).setDmaStall 0).setTickCycles (base + s.extra + s.dmaStall)) :=
    h.quiet ((((Quiet.refl s).setExtra 0).setDmaStall 0).setTickCycles _)
  have m := h'.ppuTick (base + s.extra + s.dmaStall)
  have e := ppuTick_time (base + s.extra + s.dmaStall)
    (((s.setExtra 0).setDmaStall 0).setTickCycles (base + s.extra + s.dmaStall))
  exact ⟨m.v, m.cycle, m.time.scanline, m.time.vblank, m.time.hit, m.time.pending, m.overflow, m.status,
    congrArg State.dmaStall e, congrArg State.extra e, m.irq, m.memories⟩

end Sys2Proof.Machine
end

