-- ==== Sys2Proof/Machine/Listing.lean ====
section
/-! DEFINITION. How an instruction is spelled in a listing (30_encoding.md R109): the mnemonic of the opcode map, then the
operand spelled by its mode. No step depends on it. -/

namespace Sys2Proof.Machine

/-- Two hexadecimal digits, `$nn`. -/
def hexByte (b : Byte) : List Char := '$' :: [Nat.digitChar (b.toNat / 16), Nat.digitChar (b.toNat % 16)].map Char.toUpper

/-- Four hexadecimal digits, `$nnnn`. -/
def hexWord (w : Word) : List Char := hexByte (hiByte w) ++ (hexByte (loByte w)).drop 1

def MemOperand.text : MemOperand → List Char
  | .zp z => hexByte z
  | .zpX z => hexByte z ++ [',', 'X']
  | .zpY z => hexByte z ++ [',', 'Y']
  | .abs w => hexWord w
  | .absX w => hexWord w ++ [',', 'X']
  | .absY w => hexWord w ++ [',', 'Y']
  | .indX z => '(' :: hexByte z ++ [',', 'X', ')']
  | .indY z => '(' :: hexByte z ++ [')', ',', 'Y']

def immText (b : Byte) : List Char := '#' :: hexByte b

def ReadOperand.text : ReadOperand → List Char
  | .imm b => immText b
  | .mem m => MemOperand.text m

def ShiftOperand.text : ShiftOperand → List Char
  | .acc => ['A']
  | .mem m => MemOperand.text m

def JumpOperand.text : JumpOperand → List Char
  | .abs w => hexWord w
  | .ind w => '(' :: hexWord w ++ [')']

def NopOperand.text : NopOperand → List Char
  | .implied => []
  | .imm b => immText b
  | .mem m => MemOperand.text m

/-- The target of a branch whose opcode byte lies at `address`. -/
def relText (address : Word) (rel8 : Byte) : List Char := hexWord (address + 2 + sext16 rel8)

/-- A mnemonic, and an operand after a space. -/
def spelled (mnemonic : String) (operand : List Char) : List Char :=
  mnemonic.toList ++ (if operand.isEmpty then [] else ' ' :: operand)

/-- The spelling of an instruction whose opcode byte lies at `address`. -/
def listing (address : Word) : Instr → List Char
  | .lda o => spelled "LDA" (ReadOperand.text o)
  | .ldx o => spelled "LDX" (ReadOperand.text o)
  | .ldy o => spelled "LDY" (ReadOperand.text o)
  | .sta m => spelled "STA" (MemOperand.text m)
  | .stx m => spelled "STX" (MemOperand.text m)
  | .sty m => spelled "STY" (MemOperand.text m)
  | .tax => spelled "TAX" []
  | .tay => spelled "TAY" []
  | .txa => spelled "TXA" []
  | .tya => spelled "TYA" []
  | .tsx => spelled "TSX" []
  | .txs => spelled "TXS" []
  | .pha => spelled "PHA" []
  | .php => spelled "PHP" []
  | .plp => spelled "PLP" []
  | .pla => spelled "PLA" []
  | .adc o => spelled "ADC" (ReadOperand.text o)
  | .sbc o => spelled "SBC" (ReadOperand.text o)
  | .and o => spelled "AND" (ReadOperand.text o)
  | .ora o => spelled "ORA" (ReadOperand.text o)
  | .eor o => spelled "EOR" (ReadOperand.text o)
  | .bit m => spelled "BIT" (MemOperand.text m)
  | .cmp o => spelled "CMP" (ReadOperand.text o)
  | .cpx o => spelled "CPX" (ReadOperand.text o)
  | .cpy o => spelled "CPY" (ReadOperand.text o)
  | .inc m => spelled "INC" (MemOperand.text m)
  | .dec m => spelled "DEC" (MemOperand.text m)
  | .inx => spelled "INX" []
  | .iny => spelled "INY" []
  | .dex => spelled "DEX" []
  | .dey => spelled "DEY" []
  | .asl o => spelled "ASL" (ShiftOperand.text o)
  | .lsr o => spelled "LSR" (ShiftOperand.text o)
  | .rol o => spelled "ROL" (ShiftOperand.text o)
  | .ror o => spelled "ROR" (ShiftOperand.text o)
  | .bpl r => spelled "BPL" (relText address r)
  | .bmi r => spelled "BMI" (relText address r)
  | .bvc r => spelled "BVC" (relText address r)
  | .bvs r => spelled "BVS" (relText address r)
  | .bcc r => spelled "BCC" (relText address r)
  | .bcs r => spelled "BCS" (relText address r)
  | .bne r => spelled "BNE" (relText address r)
  | .beq r => spelled "BEQ" (relText address r)
  | .jmp o => spelled "JMP" (JumpOperand.text o)
  | .jsr w => spelled "JSR" (hexWord w)
  | .rts => spelled "RTS" []
  | .rti => spelled "RTI" []
  | .brk => spelled "BRK" []
  | .clc => spelled "CLC" []
  | .sec => spelled "SEC" []
  | .cli => spelled "CLI" []
  | .sei => spelled "SEI" []
  | .cld => spelled "CLD" []
  | .sed => spelled "SED" []
  | .clv => spelled "CLV" []
  | .nop => spelled "NOP" []
  | .slo m => spelled "SLO" (MemOperand.text m)
  | .rla m => spelled "RLA" (MemOperand.text m)
  | .sre m => spelled "SRE" (MemOperand.text m)
  | .rra m => spelled "RRA" (MemOperand.text m)
  | .dcp m => spelled "DCP" (MemOperand.text m)
  | .isc m => spelled "ISC" (MemOperand.text m)
  | .sax m => spelled "SAX" (MemOperand.text m)
  | .lax m => spelled "LAX" (MemOperand.text m)
  | .las w => spelled "LAS" (MemOperand.text (.absY w))
  | .anc _ b => spelled "ANC" (immText b)
  | .alr b => spelled "ALR" (immText b)
  | .arr b => spelled "ARR" (immText b)
  | .ane b => spelled "ANE" (immText b)
  | .lxa b => spelled "LXA" (immText b)
  | .sbx b => spelled "SBX" (immText b)
  | .usbc b => spelled "USBC" (immText b)
  | .sha m => spelled "SHA" (MemOperand.text m)
  | .shx w => spelled "SHX" (MemOperand.text (.absY w))
  | .shy w => spelled "SHY" (MemOperand.text (.absX w))
  | .tas w => spelled "TAS" (MemOperand.text (.absY w))
  | .nopU _ o => spelled "NOP" (NopOperand.text o)
  | .jam _ => spelled "JAM" []

/-- The byte a branch at `address` stores to reach `target`: their distance from the next instruction, if it lies in -128..127
(R109). -/
def branchOffset (address target : Word) : Option Byte :=
  let offset := loByte (target - (address + 2))
  if address + 2 + sext16 offset = target then some offset else none

/-- The other spellings of the undocumented mnemonics (R109). The two for NOP go by its length, 2 and 3 bytes. -/
def aliases : List (String × List String) :=
  [("ISC", ["ISB", "INS"]), ("SLO", ["ASO"]), ("SRE", ["LSE"]), ("ALR", ["ASR"]), ("ANE", ["XAA"]), ("LXA", ["ATX", "OAL"]),
    ("SBX", ["AXS"]), ("SHA", ["AHX", "AXA"]), ("SHX", ["SXA", "XAS"])] ++
  [("SHY", ["SYA", "SAY"]), ("TAS", ["SHS"]), ("LAS", ["LAR"]), ("USBC", ["SBC"]), ("JAM", ["KIL", "HLT"]),
    ("NOP", ["DOP", "TOP"])]

end Sys2Proof.Machine
end

