-- ==== Sys2Proof/Tests/Slice0.lean ====
section
/-! SUPPORT. Tests: ill-formed terms refused, words that decode, the spec's own vectors (95_test_vectors.md; a test's name
carries the vector's id), and a witness for each obligation that has hypotheses. A vector expects what the spec lists. -/

namespace Sys2Proof.Tests

open Sys2Proof.Machine

/-! Small states. -/

/-- A `FlatRam` machine with code at PC and bytes of memory, as the vectors of section 2.1 set up. -/
def flat (code : List Byte) (mem : List (Nat × Byte)) (a x y sp p : Byte) (pc : Word) : State :=
  placeBytes pc code { State.powerOn { RunConfig.ofCart Cart.blank with bus := .flatRam } with
    a := a, x := x, y := y, sp := sp, p := p, pc := pc, flat := mem.foldl (fun f c => f.set c.1 c.2) [] }

/-- One tick ends with these registers, this cycle count, and these bytes of memory changed. -/
def ends (s : State) (a x y sp p : Byte) (pc : Word) (cycles : Nat) (changed : List (Nat × Byte)) : Bool :=
  match step s with
  | .next t =>
    decide ((t.a, t.x, t.y, t.sp, t.p, t.pc, t.tickCycles) = (a, x, y, sp, p, pc, cycles)) &&
      decide (t.flat = changed.foldl (fun f c => f.set c.1 c.2) s.flat)
  | _ => false

/-- A `NesMap` machine with code in work RAM at PC, A loaded. -/
def nes (code : List Byte) (a : Byte) : State :=
  placeBytes 0x6000 code { State.powerOn (RunConfig.ofCart Cart.blank) with a := a, pc := 0x6000 }

/-- A property of the state after one tick. -/
def after (s : State) (f : State → Bool) : Bool :=
  match step s with
  | .next t => f t
  | _ => false

/-- CPU writes, in order. -/
def writes (l : List (Word × Byte)) (s : State) : State := l.foldl (fun s c => memWrite c.1 c.2 s) s

/-- The word decodes to the instruction. -/
def decodesTo (nbits w : Nat) (i : Instr) : Bool := decide (decodeTableWord nbits w = some i)

/-! Ill-formed terms: each check of WellFormed refuses one, and its meaning stops with the decode defect. -/

/-- The terms are all refused, in syntax and in execution. -/
def allRefused (l : List Instr) : Bool :=
  l.all fun i => !i.wellFormed && decide (encode i = []) &&
    match exec i State.reset with
    | .fault r => decide (r = .decodeDefect (.badForm i) 0)
    | _ => false

theorem test_illFormed_loads : allRefused [.lda (.mem (.zpY 1)), .ldx (.mem (.zpX 1)), .ldy (.mem (.indX 1)),
    .sta (.zpY 1), .stx (.absX 1), .sty (.absY 1)] = true := by decide
theorem test_illFormed_arithmetic : allRefused [.adc (.mem (.zpY 1)), .sbc (.mem (.zpY 1)), .and (.mem (.zpY 1)),
    .ora (.mem (.zpY 1)), .eor (.mem (.zpY 1)), .bit (.absX 1), .cmp (.mem (.zpY 1)), .cpx (.mem (.zpX 1)),
    .cpy (.mem (.absY 1))] = true := by decide
theorem test_illFormed_modify : allRefused [.inc (.absY 1), .dec (.indY 1), .asl (.mem (.absY 1)), .lsr (.mem (.zpY 1)),
    .rol (.mem (.indX 1)), .ror (.mem (.indY 1))] = true := by decide
theorem test_illFormed_undocumented : allRefused [.slo (.zpY 1), .rla (.zpY 1), .sre (.zpY 1), .rra (.zpY 1),
    .dcp (.zpY 1), .isc (.zpY 1), .sax (.absX 1), .lax (.zpX 1), .anc 0x1B 1, .sha (.abs 1)] = true := by decide
theorem test_illFormed_nop_jam : allRefused [.nopU 0xEA .implied, .nopU 0x04 (.imm 1), .nopU 0x0C (.mem (.zp 1)),
    .nopU 0x04 (.mem (.zpY 1)), .jam 0x00] = true := by decide

/-! Decoding: one word for each constructor, written out from its rule's Encoding list. A word's low byte is the opcode. -/

theorem test_decode_loads : (decodesTo 16 0x80A9 (.lda (.imm 0x80)) && decodesTo 24 0x1234AD (.lda (.mem (.abs 0x1234))) &&
    decodesTo 16 0xFFB6 (.ldx (.mem (.zpY 0xFF))) && decodesTo 24 0x00FFBC (.ldy (.mem (.absX 0x00FF))) &&
    decodesTo 16 0x2091 (.sta (.indY 0x20)) && decodesTo 16 0x8096 (.stx (.zpY 0x80)) &&
    decodesTo 16 0x1084 (.sty (.zp 0x10))) = true := by decide
theorem test_decode_transfers : (decodesTo 8 0xAA .tax && decodesTo 8 0xA8 .tay && decodesTo 8 0x8A .txa &&
    decodesTo 8 0x98 .tya && decodesTo 8 0xBA .tsx && decodesTo 8 0x9A .txs) = true := by decide
theorem test_decode_stack : (decodesTo 8 0x48 .pha && decodesTo 8 0x08 .php && decodesTo 8 0x28 .plp &&
    decodesTo 8 0x68 .pla) = true := by decide
theorem test_decode_arithmetic : (decodesTo 16 0x1069 (.adc (.imm 0x10)) && decodesTo 16 0x20E1 (.sbc (.mem (.indX 0x20))) &&
    decodesTo 24 0x123439 (.and (.mem (.absY 0x1234))) && decodesTo 16 0x8009 (.ora (.imm 0x80)) &&
    decodesTo 16 0x1055 (.eor (.mem (.zpX 0x10))) && decodesTo 24 0x30002C (.bit (.abs 0x3000)) &&
    decodesTo 16 0x40C9 (.cmp (.imm 0x40)) && decodesTo 16 0x10E4 (.cpx (.mem (.zp 0x10))) &&
    decodesTo 16 0xFFC0 (.cpy (.imm 0xFF))) = true := by decide
theorem test_decode_modify : (decodesTo 16 0x10E6 (.inc (.zp 0x10)) && decodesTo 24 0x3000CE (.dec (.abs 0x3000)) &&
    decodesTo 8 0xE8 .inx && decodesTo 8 0xC8 .iny && decodesTo 8 0xCA .dex && decodesTo 8 0x88 .dey &&
    decodesTo 24 0x30FF1E (.asl (.mem (.absX 0x30FF))) && decodesTo 8 0x4A (.lsr .acc) &&
    decodesTo 16 0x1036 (.rol (.mem (.zpX 0x10))) && decodesTo 16 0x1066 (.ror (.mem (.zp 0x10)))) = true := by decide
theorem test_decode_branches : (decodesTo 16 0x0010 (.bpl 0x00) && decodesTo 16 0x8030 (.bmi 0x80) &&
    decodesTo 16 0x1050 (.bvc 0x10) && decodesTo 16 0x1070 (.bvs 0x10) && decodesTo 16 0x1090 (.bcc 0x10) &&
    decodesTo 16 0xF0B0 (.bcs 0xF0) && decodesTo 16 0x05D0 (.bne 0x05) && decodesTo 16 0xFCF0 (.beq 0xFC)) = true := by decide
theorem test_decode_control : (decodesTo 24 0xC0004C (.jmp (.abs 0xC000)) && decodesTo 24 0x30FF6C (.jmp (.ind 0x30FF)) &&
    decodesTo 24 0x400020 (.jsr 0x4000) && decodesTo 8 0x60 .rts && decodesTo 8 0x40 .rti && decodesTo 8 0x00 .brk) = true := by
  decide
theorem test_decode_flags : (decodesTo 8 0x18 .clc && decodesTo 8 0x38 .sec && decodesTo 8 0x58 .cli &&
    decodesTo 8 0x78 .sei && decodesTo 8 0xD8 .cld && decodesTo 8 0xF8 .sed && decodesTo 8 0xB8 .clv &&
    decodesTo 8 0xEA .nop) = true := by decide
theorem test_decode_combined : (decodesTo 16 0x1007 (.slo (.zp 0x10)) && decodesTo 16 0x1023 (.rla (.indX 0x10)) &&
    decodesTo 16 0x1047 (.sre (.zp 0x10)) && decodesTo 16 0x1077 (.rra (.zpX 0x10)) &&
    decodesTo 24 0x30FFDF (.dcp (.absX 0x30FF)) && decodesTo 24 0x1234FB (.isc (.absY 0x1234)) &&
    decodesTo 16 0x1097 (.sax (.zpY 0x10)) && decodesTo 16 0x20B3 (.lax (.indY 0x20)) &&
    decodesTo 24 0x3000BB (.las 0x3000)) = true := by decide
theorem test_decode_immediates : (decodesTo 16 0x800B (.anc 0x0B 0x80) && decodesTo 16 0x802B (.anc 0x2B 0x80) &&
    decodesTo 16 0x034B (.alr 0x03) && decodesTo 16 0xFF6B (.arr 0xFF) && decodesTo 16 0xFF8B (.ane 0xFF) &&
    decodesTo 16 0xFFAB (.lxa 0xFF) && decodesTo 16 0x02CB (.sbx 0x02) && decodesTo 16 0x10EB (.usbc 0x10)) = true := by decide
theorem test_decode_unstable : (decodesTo 24 0x30009F (.sha (.absY 0x3000)) && decodesTo 16 0x2093 (.sha (.indY 0x20)) &&
    decodesTo 24 0x30F09E (.shx 0x30F0) && decodesTo 24 0x12009C (.shy 0x1200) && decodesTo 24 0x30009B (.tas 0x3000)) = true := by
  decide
theorem test_decode_nop_jam : (decodesTo 8 0x1A (.nopU 0x1A .implied) && decodesTo 16 0x9980 (.nopU 0x80 (.imm 0x99)) &&
    decodesTo 24 0x30FF1C (.nopU 0x1C (.mem (.absX 0x30FF))) && decodesTo 8 0x02 (.jam 0x02) &&
    decodesTo 8 0xF2 (.jam 0xF2)) = true := by decide

/-! Single instructions: rows of section 2.1. -/

theorem test_A6_lda :
    ends (flat [0xBD, 0xF0, 0x12] [(0x1310, 0x01)] 0x00 0x20 0x00 0xFD 0x24 0x0200) 0x01 0x20 0x00 0xFD 0x24 0x0203 5 [] = true := by decide
theorem test_A14_lda :
    ends (flat [0xA9, 0x00] [] 0x55 0x00 0x00 0xFD 0xA4 0x0200) 0x00 0x00 0x00 0xFD 0x26 0x0202 2 [] = true := by decide
theorem test_A3_ldx :
    ends (flat [0xB6, 0xFF] [(0x0001, 0x07)] 0x00 0x00 0x02 0xFD 0x24 0x0200) 0x00 0x07 0x02 0xFD 0x24 0x0202 4 [] = true := by decide
theorem test_A16_ldy :
    ends (flat [0xBC, 0xFF, 0x00] [(0x0100, 0xF0)] 0x00 0x01 0x00 0xFD 0x24 0x0200) 0x00 0x01 0xF0 0xFD 0xA4 0x0203 5 [] = true := by decide
theorem test_A12_sta :
    ends (flat [0x9D, 0xF0, 0x12] [] 0x77 0x20 0x00 0xFD 0x24 0x0200) 0x77 0x20 0x00 0xFD 0x24 0x0203 5 [(0x1310, 0x77)] = true := by decide
theorem test_A13_sta :
    ends (flat [0x91, 0x20] [(0x0020, 0xF8), (0x0021, 0x40)] 0x66 0x00 0x10 0xFD 0x24 0x0200) 0x66 0x00 0x10 0xFD 0x24 0x0202 6 [(0x4108, 0x66)] = true := by decide
theorem test_A15_stx :
    ends (flat [0x96, 0x80] [] 0x00 0xAB 0x90 0xFD 0x24 0x0200) 0x00 0xAB 0x90 0xFD 0x24 0x0202 4 [(0x0010, 0xAB)] = true := by decide
theorem test_T1_tax :
    ends (flat [0xAA] [] 0x80 0x00 0x00 0xFD 0x24 0x0200) 0x80 0x80 0x00 0xFD 0xA4 0x0201 2 [] = true := by decide
theorem test_T2_txs :
    ends (flat [0x9A] [] 0x00 0x00 0x00 0xFD 0x24 0x0200) 0x00 0x00 0x00 0x00 0x24 0x0201 2 [] = true := by decide
theorem test_T3_tsx :
    ends (flat [0xBA] [] 0x00 0x00 0x00 0x00 0x24 0x0200) 0x00 0x00 0x00 0x00 0x26 0x0201 2 [] = true := by decide
theorem test_T4_tya :
    ends (flat [0x98] [] 0xFF 0x00 0x01 0xFD 0xA4 0x0200) 0x01 0x00 0x01 0xFD 0x24 0x0201 2 [] = true := by decide
theorem test_S2_pha :
    ends (flat [0x48] [] 0x5C 0x00 0x00 0x00 0x24 0x0200) 0x5C 0x00 0x00 0xFF 0x24 0x0201 3 [(0x0100, 0x5C)] = true := by decide
theorem test_S3_php :
    ends (flat [0x08] [] 0x00 0x00 0x00 0xFD 0x24 0x0200) 0x00 0x00 0x00 0xFC 0x24 0x0201 3 [(0x01FD, 0x34)] = true := by decide
theorem test_S4_plp :
    ends (flat [0x28] [(0x01FD, 0xFF)] 0x00 0x00 0x00 0xFC 0x24 0x0200) 0x00 0x00 0x00 0xFD 0xEF 0x0201 4 [] = true := by decide
theorem test_S6_plp :
    ends (flat [0x28] [(0x01FD, 0x00)] 0x00 0x00 0x00 0xFC 0xE7 0x0200) 0x00 0x00 0x00 0xFD 0x20 0x0201 4 [] = true := by decide
theorem test_S5_pla :
    ends (flat [0x68] [(0x0100, 0x80)] 0x00 0x00 0x00 0xFF 0x24 0x0200) 0x80 0x00 0x00 0x00 0xA4 0x0201 4 [] = true := by decide
theorem test_L3_adc :
    ends (flat [0x69, 0x50] [] 0x50 0x00 0x00 0xFD 0x24 0x0200) 0xA0 0x00 0x00 0xFD 0xE4 0x0202 2 [] = true := by decide
theorem test_L6_adc :
    ends (flat [0x69, 0x01] [] 0x09 0x00 0x00 0xFD 0x2C 0x0200) 0x0A 0x00 0x00 0xFD 0x2C 0x0202 2 [] = true := by decide
theorem test_L9_sbc :
    ends (flat [0xE9, 0x01] [] 0x00 0x00 0x00 0xFD 0x25 0x0200) 0xFF 0x00 0x00 0xFD 0xA4 0x0202 2 [] = true := by decide
theorem test_L10_sbc :
    ends (flat [0xE9, 0x01] [] 0x80 0x00 0x00 0xFD 0x25 0x0200) 0x7F 0x00 0x00 0xFD 0x65 0x0202 2 [] = true := by decide
theorem test_L11_and :
    ends (flat [0x29, 0x0F] [] 0xF3 0x00 0x00 0xFD 0x24 0x0200) 0x03 0x00 0x00 0xFD 0x24 0x0202 2 [] = true := by decide
theorem test_L12_ora :
    ends (flat [0x09, 0x80] [] 0x01 0x00 0x00 0xFD 0x24 0x0200) 0x81 0x00 0x00 0xFD 0xA4 0x0202 2 [] = true := by decide
theorem test_L13_eor :
    ends (flat [0x49, 0xFF] [] 0xFF 0x00 0x00 0xFD 0x24 0x0200) 0x00 0x00 0x00 0xFD 0x26 0x0202 2 [] = true := by decide
theorem test_L14_bit :
    ends (flat [0x24, 0x10] [(0x0010, 0xC0)] 0x01 0x00 0x00 0xFD 0x24 0x0200) 0x01 0x00 0x00 0xFD 0xE6 0x0202 3 [] = true := by decide
theorem test_L15_bit :
    ends (flat [0x2C, 0x00, 0x30] [(0x3000, 0x01)] 0x41 0x00 0x00 0xFD 0xE6 0x0200) 0x41 0x00 0x00 0xFD 0x24 0x0203 4 [] = true := by decide
theorem test_L17_cmp :
    ends (flat [0xC9, 0x41] [] 0x40 0x00 0x00 0xFD 0x24 0x0200) 0x40 0x00 0x00 0xFD 0xA4 0x0202 2 [] = true := by decide
theorem test_L18_cmp :
    ends (flat [0xC9, 0x01] [] 0x90 0x00 0x00 0xFD 0x24 0x0200) 0x90 0x00 0x00 0xFD 0xA5 0x0202 2 [] = true := by decide
theorem test_L19_cpx :
    ends (flat [0xE0, 0x05] [] 0x00 0x05 0x00 0xFD 0x24 0x0200) 0x00 0x05 0x00 0xFD 0x27 0x0202 2 [] = true := by decide
theorem test_L20_cpy :
    ends (flat [0xC0, 0xFF] [] 0x00 0x00 0x00 0xFD 0x24 0x0200) 0x00 0x00 0x00 0xFD 0x24 0x0202 2 [] = true := by decide
theorem test_L21_inc :
    ends (flat [0xE6, 0x10] [(0x0010, 0xFF)] 0x00 0x00 0x00 0xFD 0x24 0x0200) 0x00 0x00 0x00 0xFD 0x26 0x0202 5 [(0x0010, 0x00)] = true := by decide
theorem test_L22_dec :
    ends (flat [0xCE, 0x00, 0x30] [(0x3000, 0x80)] 0x00 0x00 0x00 0xFD 0x24 0x0200) 0x00 0x00 0x00 0xFD 0x24 0x0203 6 [(0x3000, 0x7F)] = true := by decide
theorem test_L23_inx :
    ends (flat [0xE8] [] 0x00 0xFF 0x00 0xFD 0x24 0x0200) 0x00 0x00 0x00 0xFD 0x26 0x0201 2 [] = true := by decide
theorem test_L24_dey :
    ends (flat [0x88] [] 0x00 0x00 0x00 0xFD 0x24 0x0200) 0x00 0x00 0xFF 0xFD 0xA4 0x0201 2 [] = true := by decide
theorem test_L25_asl :
    ends (flat [0x0A] [] 0x81 0x00 0x00 0xFD 0x24 0x0200) 0x02 0x00 0x00 0xFD 0x25 0x0201 2 [] = true := by decide
theorem test_L30_asl :
    ends (flat [0x1E, 0xFF, 0x30] [(0x3100, 0x40)] 0x00 0x01 0x00 0xFD 0x24 0x0200) 0x00 0x01 0x00 0xFD 0xA4 0x0203 7 [(0x3100, 0x80)] = true := by decide
theorem test_L26_lsr :
    ends (flat [0x4A] [] 0x01 0x00 0x00 0xFD 0x24 0x0200) 0x00 0x00 0x00 0xFD 0x27 0x0201 2 [] = true := by decide
theorem test_L27_rol :
    ends (flat [0x2A] [] 0x40 0x00 0x00 0xFD 0x25 0x0200) 0x81 0x00 0x00 0xFD 0xA4 0x0201 2 [] = true := by decide
theorem test_L28_ror :
    ends (flat [0x6A] [] 0x02 0x00 0x00 0xFD 0x25 0x0200) 0x81 0x00 0x00 0xFD 0xA4 0x0201 2 [] = true := by decide
theorem test_L29_ror :
    ends (flat [0x66, 0x10] [(0x0010, 0x01)] 0x00 0x00 0x00 0xFD 0x24 0x0200) 0x00 0x00 0x00 0xFD 0x27 0x0202 5 [(0x0010, 0x00)] = true := by decide
theorem test_B1_bne :
    ends (flat [0xD0, 0x05] [] 0x00 0x00 0x00 0xFD 0x26 0x0200) 0x00 0x00 0x00 0xFD 0x26 0x0202 2 [] = true := by decide
theorem test_B2_bne :
    ends (flat [0xD0, 0x05] [] 0x00 0x00 0x00 0xFD 0x24 0x0200) 0x00 0x00 0x00 0xFD 0x24 0x0207 3 [] = true := by decide
theorem test_B3_beq :
    ends (flat [0xF0, 0xFC] [] 0x00 0x00 0x00 0xFD 0x26 0x0200) 0x00 0x00 0x00 0xFD 0x26 0x01FE 4 [] = true := by decide
theorem test_B4_bcc :
    ends (flat [0x90, 0x10] [] 0x00 0x00 0x00 0xFD 0x24 0x02F0) 0x00 0x00 0x00 0xFD 0x24 0x0302 4 [] = true := by decide
theorem test_B5_bmi :
    ends (flat [0x30, 0x80] [] 0x00 0x00 0x00 0xFD 0xA4 0x0200) 0x00 0x00 0x00 0xFD 0xA4 0x0182 4 [] = true := by decide
theorem test_B6_bvs :
    ends (flat [0x70, 0x10] [] 0x00 0x00 0x00 0xFD 0x24 0x0200) 0x00 0x00 0x00 0xFD 0x24 0x0202 2 [] = true := by decide
theorem test_B7_bpl :
    ends (flat [0x10, 0x00] [] 0x00 0x00 0x00 0xFD 0x24 0x0200) 0x00 0x00 0x00 0xFD 0x24 0x0202 3 [] = true := by decide
theorem test_J1_jmp :
    ends (flat [0x4C, 0x00, 0xC0] [] 0x00 0x00 0x00 0xFD 0x24 0x0200) 0x00 0x00 0x00 0xFD 0x24 0xC000 3 [] = true := by decide
theorem test_J3_jmp :
    ends (flat [0x6C, 0xFF, 0x30] [(0x30FF, 0x34), (0x3000, 0x12), (0x3100, 0x56)] 0x00 0x00 0x00 0xFD 0x24 0x0200) 0x00 0x00 0x00 0xFD 0x24 0x1234 5 [] = true := by decide
theorem test_J4_jsr :
    ends (flat [0x20, 0x00, 0x40] [] 0x00 0x00 0x00 0xFD 0x24 0x0200) 0x00 0x00 0x00 0xFB 0x24 0x4000 6 [(0x01FC, 0x02), (0x01FD, 0x02)] = true := by decide
theorem test_J5_rts :
    ends (flat [0x60] [(0x01FC, 0x02), (0x01FD, 0x40)] 0x00 0x00 0x00 0xFB 0x24 0x0200) 0x00 0x00 0x00 0xFD 0x24 0x4003 6 [] = true := by decide
theorem test_J6_rti :
    ends (flat [0x40] [(0x01FB, 0xFF), (0x01FC, 0x02), (0x01FD, 0x40)] 0x00 0x00 0x00 0xFA 0x24 0x0200) 0x00 0x00 0x00 0xFD 0xEF 0x4002 6 [] = true := by decide
theorem test_J7_brk :
    ends (flat [0x00, 0xFF] [(0xFFFE, 0x00), (0xFFFF, 0x90)] 0x00 0x00 0x00 0xFD 0xA5 0x0200) 0x00 0x00 0x00 0xFA 0xA5 0x9000 7 [(0x01FB, 0xB5), (0x01FC, 0x02), (0x01FD, 0x02)] = true := by decide
theorem test_F1_sec :
    ends (flat [0x38] [] 0x00 0x00 0x00 0xFD 0x24 0x0200) 0x00 0x00 0x00 0xFD 0x25 0x0201 2 [] = true := by decide
theorem test_F2_clc :
    ends (flat [0x18] [] 0x00 0x00 0x00 0xFD 0x25 0x0200) 0x00 0x00 0x00 0xFD 0x24 0x0201 2 [] = true := by decide
theorem test_F3_sei :
    ends (flat [0x78] [] 0x00 0x00 0x00 0xFD 0x20 0x0200) 0x00 0x00 0x00 0xFD 0x24 0x0201 2 [] = true := by decide
theorem test_F4_cli :
    ends (flat [0x58] [] 0x00 0x00 0x00 0xFD 0x24 0x0200) 0x00 0x00 0x00 0xFD 0x20 0x0201 2 [] = true := by decide
theorem test_F5_sed :
    ends (flat [0xF8] [] 0x00 0x00 0x00 0xFD 0x24 0x0200) 0x00 0x00 0x00 0xFD 0x2C 0x0201 2 [] = true := by decide
theorem test_F6_cld :
    ends (flat [0xD8] [] 0x00 0x00 0x00 0xFD 0x2C 0x0200) 0x00 0x00 0x00 0xFD 0x24 0x0201 2 [] = true := by decide
theorem test_F7_clv :
    ends (flat [0xB8] [] 0x00 0x00 0x00 0xFD 0x64 0x0200) 0x00 0x00 0x00 0xFD 0x24 0x0201 2 [] = true := by decide
theorem test_F8_nop :
    ends (flat [0xEA] [] 0x00 0x00 0x00 0xFD 0x24 0x0200) 0x00 0x00 0x00 0xFD 0x24 0x0201 2 [] = true := by decide
theorem test_U1_slo :
    ends (flat [0x07, 0x10] [(0x0010, 0x81)] 0x01 0x00 0x00 0xFD 0x24 0x0200) 0x03 0x00 0x00 0xFD 0x25 0x0202 5 [(0x0010, 0x02)] = true := by decide
theorem test_U2_rla :
    ends (flat [0x27, 0x10] [(0x0010, 0x40)] 0xFF 0x00 0x00 0xFD 0x25 0x0200) 0x81 0x00 0x00 0xFD 0xA4 0x0202 5 [(0x0010, 0x81)] = true := by decide
theorem test_U3_sre :
    ends (flat [0x47, 0x10] [(0x0010, 0x03)] 0x0F 0x00 0x00 0xFD 0x24 0x0200) 0x0E 0x00 0x00 0xFD 0x25 0x0202 5 [(0x0010, 0x01)] = true := by decide
theorem test_U4_rra :
    ends (flat [0x67, 0x10] [(0x0010, 0x03)] 0x10 0x00 0x00 0xFD 0x24 0x0200) 0x12 0x00 0x00 0xFD 0x24 0x0202 5 [(0x0010, 0x01)] = true := by decide
theorem test_U5_dcp :
    ends (flat [0xC7, 0x10] [(0x0010, 0x42)] 0x41 0x00 0x00 0xFD 0x24 0x0200) 0x41 0x00 0x00 0xFD 0x27 0x0202 5 [(0x0010, 0x41)] = true := by decide
theorem test_U29_dcp :
    ends (flat [0xDF, 0xFF, 0x30] [(0x3100, 0x00)] 0x00 0x01 0x00 0xFD 0x24 0x0200) 0x00 0x01 0x00 0xFD 0x24 0x0203 7 [(0x3100, 0xFF)] = true := by decide
theorem test_U6_isc :
    ends (flat [0xE7, 0x10] [(0x0010, 0x0F)] 0x10 0x00 0x00 0xFD 0x25 0x0200) 0x00 0x00 0x00 0xFD 0x27 0x0202 5 [(0x0010, 0x10)] = true := by decide
theorem test_U7_sax :
    ends (flat [0x87, 0x10] [] 0xF0 0x3C 0x00 0xFD 0x24 0x0200) 0xF0 0x3C 0x00 0xFD 0x24 0x0202 3 [(0x0010, 0x30)] = true := by decide
theorem test_U8_lax :
    ends (flat [0xA7, 0x10] [(0x0010, 0x80)] 0x00 0x00 0x00 0xFD 0x24 0x0200) 0x80 0x80 0x00 0xFD 0xA4 0x0202 3 [] = true := by decide
theorem test_U9_lax :
    ends (flat [0xB3, 0x20] [(0x0020, 0xF8), (0x0021, 0x40), (0x4108, 0x00)] 0x00 0x00 0x10 0xFD 0x24 0x0200) 0x00 0x00 0x10 0xFD 0x26 0x0202 6 [] = true := by decide
theorem test_U10_las :
    ends (flat [0xBB, 0x00, 0x30] [(0x3000, 0x3F)] 0x00 0x00 0x00 0xF0 0x24 0x0200) 0x30 0x30 0x00 0x30 0x24 0x0203 4 [] = true := by decide
theorem test_U11_anc :
    ends (flat [0x0B, 0x80] [] 0xFF 0x00 0x00 0xFD 0x24 0x0200) 0x80 0x00 0x00 0xFD 0xA5 0x0202 2 [] = true := by decide
theorem test_U12_alr :
    ends (flat [0x4B, 0x03] [] 0xFF 0x00 0x00 0xFD 0x24 0x0200) 0x01 0x00 0x00 0xFD 0x25 0x0202 2 [] = true := by decide
theorem test_U13_arr :
    ends (flat [0x6B, 0xFF] [] 0xC0 0x00 0x00 0xFD 0x25 0x0200) 0xE0 0x00 0x00 0xFD 0xA5 0x0202 2 [] = true := by decide
theorem test_U14_ane :
    ends (flat [0x8B, 0xFF] [] 0x00 0xFF 0x00 0xFD 0x24 0x0200) 0xEE 0xFF 0x00 0xFD 0xA4 0x0202 2 [] = true := by decide
theorem test_U15_lxa :
    ends (flat [0xAB, 0xFF] [] 0x01 0x00 0x00 0xFD 0x24 0x0200) 0xEF 0xEF 0x00 0xFD 0xA4 0x0202 2 [] = true := by decide
theorem test_U16_sbx :
    ends (flat [0xCB, 0x02] [] 0x0F 0xF3 0x00 0xFD 0x24 0x0200) 0x0F 0x01 0x00 0xFD 0x25 0x0202 2 [] = true := by decide
theorem test_U17_sbx :
    ends (flat [0xCB, 0x05] [] 0x0F 0xF3 0x00 0xFD 0x24 0x0200) 0x0F 0xFE 0x00 0xFD 0xA4 0x0202 2 [] = true := by decide
theorem test_U18_usbc :
    ends (flat [0xEB, 0x10] [] 0x50 0x00 0x00 0xFD 0x25 0x0200) 0x40 0x00 0x00 0xFD 0x25 0x0202 2 [] = true := by decide
theorem test_U19_sha :
    ends (flat [0x9F, 0x00, 0x30] [] 0xFF 0xFF 0x10 0xFD 0x24 0x0200) 0xFF 0xFF 0x10 0xFD 0x24 0x0203 5 [(0x3010, 0x31)] = true := by decide
theorem test_U23_sha :
    ends (flat [0x93, 0x20] [(0x0020, 0x00), (0x0021, 0x30)] 0x0F 0xFF 0x01 0xFD 0x24 0x0200) 0x0F 0xFF 0x01 0xFD 0x24 0x0202 6 [(0x3001, 0x01)] = true := by decide
theorem test_U20_shx :
    ends (flat [0x9E, 0xF0, 0x30] [] 0x00 0x0F 0x20 0xFD 0x24 0x0200) 0x00 0x0F 0x20 0xFD 0x24 0x0203 5 [(0x0110, 0x01)] = true := by decide
theorem test_U21_shy :
    ends (flat [0x9C, 0x00, 0x12] [] 0x00 0x01 0xFF 0xFD 0x24 0x0200) 0x00 0x01 0xFF 0xFD 0x24 0x0203 5 [(0x1201, 0x13)] = true := by decide
theorem test_U22_tas :
    ends (flat [0x9B, 0x00, 0x30] [] 0xF3 0x3F 0x01 0xFD 0x24 0x0200) 0xF3 0x3F 0x01 0x33 0x24 0x0203 5 [(0x3001, 0x31)] = true := by decide
theorem test_U24_nopU :
    ends (flat [0x04, 0x10] [(0x0010, 0x55)] 0x00 0x00 0x00 0xFD 0x24 0x0200) 0x00 0x00 0x00 0xFD 0x24 0x0202 3 [] = true := by decide
theorem test_U25_nopU :
    ends (flat [0x1C, 0xFF, 0x30] [] 0x00 0x01 0x00 0xFD 0x24 0x0200) 0x00 0x01 0x00 0xFD 0x24 0x0203 5 [] = true := by decide
theorem test_U28_jam :
    ends (flat [0x02] [] 0x00 0x00 0x00 0xFD 0x24 0x0200) 0x00 0x00 0x00 0xFD 0x24 0x0200 2 [] = true := by decide

/-! Single instructions without a row there, worked out by hand from the rule in the name. -/

theorem test_sty_R151 :
    ends (flat [0x84, 0x10] [] 0x00 0x00 0x5A 0xFD 0x24 0x0200) 0x00 0x00 0x5A 0xFD 0x24 0x0202 3 [(0x0010, 0x5A)] = true := by decide
theorem test_tay_R153 :
    ends (flat [0xA8] [] 0x00 0x00 0x07 0xFD 0x24 0x0200) 0x00 0x00 0x00 0xFD 0x26 0x0201 2 [] = true := by decide
theorem test_txa_R154 :
    ends (flat [0x8A] [] 0x00 0x80 0x00 0xFD 0x24 0x0200) 0x80 0x80 0x00 0xFD 0xA4 0x0201 2 [] = true := by decide
theorem test_iny_R192 :
    ends (flat [0xC8] [] 0x00 0x00 0x7F 0xFD 0x24 0x0200) 0x00 0x00 0x80 0xFD 0xA4 0x0201 2 [] = true := by decide
theorem test_dex_R193 :
    ends (flat [0xCA] [] 0x00 0x01 0x00 0xFD 0x25 0x0200) 0x00 0x00 0x00 0xFD 0x27 0x0201 2 [] = true := by decide
theorem test_bvc_R213 :
    ends (flat [0x50, 0x10] [] 0x00 0x00 0x00 0xFD 0x64 0x0200) 0x00 0x00 0x00 0xFD 0x64 0x0202 2 [] = true := by decide
theorem test_bcs_R216 :
    ends (flat [0xB0, 0xF0] [] 0x00 0x00 0x00 0xFD 0x25 0x0220) 0x00 0x00 0x00 0xFD 0x25 0x0212 3 [] = true := by decide

/-! Effective addresses: W9, W10, and rows A7, A8, A10, A11. -/

theorem test_W9_zeroPageX : (resolve (.zpX 0xF0) (flat [] [] 0 0x20 0 0xFD 0x24 0x0200)).ea = 0x0010 := by decide
theorem test_W9_zeroPageY : (resolve (.zpY 0xFF) (flat [] [] 0 0 2 0xFD 0x24 0x0200)).ea = 0x0001 := by decide
theorem test_A7_absoluteY : (resolve (.absY 0xFFFF) (flat [] [] 0 0 2 0xFD 0x24 0x0200)).ea = 0x0001 := by decide
theorem test_A8_indirectX : (resolve (.indX 0xFE) (flat [] [(0x0000, 0x30), (0x00FF, 0x00)] 0 1 0 0xFD 0x24 0x0200)).ea = 0x3000 := by
  decide
theorem test_A10_indirectY : (resolve (.indY 0x20) (flat [] [(0x0020, 0xF8), (0x0021, 0x40)] 0 0 0x10 0xFD 0x24 0x0200)).ea = 0x4108 ∧
    (resolve (.indY 0x20) (flat [] [(0x0020, 0xF8), (0x0021, 0x40)] 0 0 0x10 0xFD 0x24 0x0200)).crossed = true := by decide
theorem test_A11_indirectY : (resolve (.indY 0xFF) (flat [] [(0x0000, 0x12), (0x00FF, 0x34)] 0 0 0 0xFD 0x24 0x0200)).ea = 0x1234 := by
  decide

/-! The status byte and words: W2, W3. -/

theorem test_W2_writeWord : readWord 0x0010 (writeWord 0x0010 0xBEEF (nes [] 0)) =
    (0xBEEF, writeWord 0x0010 0xBEEF (nes [] 0)) := by decide
theorem test_W2_writeWord_mirror : (writeWord 0x07FF 0x1234 (nes [] 0)).ram = [(0x000, 0x12), (0x7FF, 0x34)] := by decide
theorem test_W3_bits : (setBit 0x24 .c, clearBit 0x25 .i, setBitTo 0x21 .n true, setBitTo 0xA1 .z false) =
    ((0x25, 0x21, 0xA1, 0xA1) : Byte × Byte × Byte × Byte) := by decide

/-! Interrupts: IV1, IV3, IV4, IV5. -/

/-- The machine of IV1. -/
def iv1 : State :=
  placeBytes 0xFFFA [0x00, 0x90] (placeBytes 0x9000 [0xA9, 0x07] { State.powerOn (RunConfig.ofCart Cart.blank) with
    pc := 0x8000, p := 0xE1, ppu := { Ppu.powerOn with nmiPending := true } })

theorem test_IV1_registers : after iv1 (fun t => decide ((t.a, t.sp, t.p, t.pc, t.tickCycles) = (0x07, 0xFA, 0x65, 0x9002, 2))) = true := by
  decide
theorem test_IV1_stack_and_ppu : after iv1 (fun t => decide (t.ram = [(0x1FB, 0xE1), (0x1FC, 0x00), (0x1FD, 0x80)]) &&
    decide ((t.ppu.scanline, t.ppu.cycle, t.ppu.nmiPending) = (0, 27, false))) = true := by decide

/-- `STA $2000` in VBlank with a value of Control. -/
def iv3 (ctrl : Byte) : State :=
  let s := nes [0x8D, 0x00, 0x20] 0x80
  s.setPpu { s.ppu with ctrl := ctrl, vblank := true }

theorem test_IV3_edge : after (iv3 0x00) (fun t => t.ppu.nmiPending) = true := by decide
theorem test_IV4_no_edge : after (iv3 0x80) (fun t => !t.ppu.nmiPending) = true := by decide
theorem test_IV5_not_withdrawn : (controlWrite 0x00 iv1).ppu.nmiPending = true := by decide

/-! PPU time: PV1, PV2, PV3, PV4, PV5, PV6. -/

/-- A PPU at a scanline and cycle. -/
def atDot (scanline cycle : Nat) (f : Ppu → Ppu) : State :=
  let s := nes [] 0
  s.setPpu (f { s.ppu with scanline := scanline, cycle := cycle })

theorem test_PV1 : let t := ppuTick 2 (atDot 240 336 fun p => { p with ctrl := 0x80, spriteHitZero := true })
    (t.ppu.scanline, t.ppu.cycle, t.ppu.vblank, t.ppu.spriteHitZero, t.ppu.nmiPending) = (241, 1, true, false, true) := by decide
theorem test_PV2 : let t := ppuTick 2 (atDot 240 336 id)
    (t.ppu.scanline, t.ppu.vblank, t.ppu.nmiPending) = (241, true, false) := by decide
theorem test_PV3 : let t := ppuTick 1 (atDot 261 340 fun p => { p with vblank := true, spriteHitZero := true, nmiPending := true })
    (t.ppu.scanline, t.ppu.cycle, t.ppu.vblank, t.ppu.spriteHitZero, t.ppu.nmiPending, frameCount t.events) =
      (0, 2, false, false, false, 1) := by decide
theorem test_PV4 : let t := ppuTick 517 (atDot 0 0 id)
    (t.ppu.scanline, t.ppu.cycle) = (4, 187) := by decide
theorem test_PV5_PV6 : ((ppuTick 1 (atDot 5 340 fun p => { p with mask := 0x10, oam := [(0, 5)] })).ppu.spriteHitZero,
    (ppuTick 1 (atDot 5 340 fun p => { p with mask := 0x00, oam := [(0, 5)] })).ppu.spriteHitZero) = (true, false) := by decide

/-! PPU registers: W5, W7, W8, PR1 to PR3, PR5 to PR13. -/

/-- Writes to a machine just reset. -/
def ppuAfter (l : List (Word × Byte)) : State := writes l (nes [] 0)

theorem test_W5 : let t := ppuAfter [(0x2006, 0x23), (0x2006, 0x05), (0x2007, 0x66)]
    t.ppu.vram = [(0x305, 0x66)] ∧ t.ppu.v = 0x2306 ∧ t.ppu.addrLatch = .high := by decide
theorem test_W6_horizontal : let t := ppuAfter [(0x2006, 0x24), (0x2006, 0x05), (0x2007, 0x77)]
    ppuRead 0x2005 t = 0x77 ∧ ntIndex .horizontal 0x2805 = 0x405 ∧ ntIndex .vertical 0x2405 = 0x405 := by decide
theorem test_W7 : let s := (nes [] 0).setPpu { Ppu.powerOn with vblank := true, addrLatch := .low, scrollLatch := .second }
    (statusByte s.ppu 0x1F).getLsbD 7 = true ∧
      (memRead 0x2002 s).2.ppu = { Ppu.powerOn with vblank := false, addrLatch := .high, scrollLatch := .first } := by
  exact ⟨by decide, rfl⟩
theorem test_W8 : let t := ppuAfter [(0x2003, 0x05), (0x2004, 0xAB), (0x2003, 0x05)]
    memRead 0x2004 t = (0xAB, t) ∧ t.ppu.oamAddr = 0x05 := by decide
theorem test_PR1_PR2_PR3 : (ppuAfter [(0x2006, 0x3F), (0x2006, 0x00), (0x2007, 0x0F)]).ppu.palette = [(0, 0x0F)] ∧
    (ppuAfter [(0x2006, 0x3F), (0x2006, 0x10), (0x2007, 0x2C)]).ppu.palette = [(0, 0x2C)] ∧
    (ppuAfter [(0x2006, 0x3F), (0x2006, 0x25), (0x2007, 0x11)]).ppu.palette = [(5, 0x11)] := by decide
theorem test_PR4 : let t := ppuAfter [(0x2006, 0x3F), (0x2006, 0x00), (0x2007, 0x0F), (0x2006, 0x3F), (0x2006, 0x00)]
    (memRead 0x2007 t).1 = 0x0F ∧ (memRead 0x2007 t).2.ppu.buffer = 0 ∧ (memRead 0x2007 t).2.ppu.v = 0x3F01 := by decide
theorem test_PR5 : let t := ppuAfter [(0x2006, 0x23), (0x2006, 0x05), (0x2007, 0x66), (0x2006, 0x23), (0x2006, 0x05)]
    (memRead 0x2007 t).1 = 0 ∧ (memRead 0x2007 (memRead 0x2007 t).2).1 = 0x66 ∧
      (memRead 0x2007 (memRead 0x2007 t).2).2.ppu.v = 0x2307 := by decide
theorem test_PR6 : let t := ppuAfter [(0x2000, 0x04), (0x2006, 0x20), (0x2006, 0x00), (0x2007, 1), (0x2007, 2)]
    t.ppu.vram = [(0x000, 1), (0x020, 2)] ∧ t.ppu.v = 0x2040 := by decide
theorem test_PR7 : let t := ppuAfter [(0x2006, 0x3F), (0x2006, 0xFF), (0x2007, 0x01)]
    t.ppu.palette = [(0x1F, 1)] ∧ t.ppu.v = 0 := by decide
theorem test_PR8 : (ppuAfter [(0x2006, 0x7F), (0x2006, 0xFF)]).ppu.v = 0x3FFF := by decide
theorem test_PR9 : (writes [(0x2006, 0x22), (0x2006, 0x00)] (memRead 0x2002 (ppuAfter [(0x2006, 0x21)])).2).ppu.v = 0x2200 := by
  decide
theorem test_PR10 : let t := ppuAfter [(0x2005, 0x10), (0x2006, 0x20), (0x2006, 0x10)]
    t.ppu.scrollX = 0x10 ∧ t.ppu.v = 0x2010 := by decide
theorem test_PR11 : let t := ppuAfter [(0x2006, 0x01), (0x2006, 0x23), (0x2007, 0x55)]
    t.events = [.diag .romWrite 0x0123] ∧ t.ppu.v = 0x0124 := by decide
theorem test_PR12 : (ppuAfter [(0x3456, 0x80)]).ppu.addrLatch = .low := by decide
theorem test_PR13 : (ppuAfter [(0x2006, 0x30), (0x2006, 0x05), (0x2007, 0x44)]).ppu.vram = [(0x005, 0x44)] := by decide

/-! Rendering: RV1. -/

/-- The machine of RV1, with the palette and VRAM bytes and the sprites that its pixels need. -/
def rv1 : State :=
  let cart : Cart := { Cart.blank with chr := [(0x10, 0xC0), (0x18, 0x40), (0x20, 0x01)] }
  let s := State.powerOn (RunConfig.ofCart cart)
  s.setPpu { s.ppu with
    palette := [(0, 0x0F), (1, 0x11), (3, 0x13), (5, 0x21), (7, 0x23), (0x11, 0x30), (0x15, 0x2A)]
    vram := [(0x000, 1), (0x002, 1), (0x020, 0), (0x3C0, 0xE4)]
    oam := [(0, 0x08), (1, 0x02), (2, 0x40), (3, 0x00), (4, 0x08), (5, 0x02), (6, 0x41), (7, 0x00)] ++
      (List.range 62).map fun k => (8 + 4 * k, 0xF0) }

theorem test_RV1_background : (pixel rv1 0 0, pixel rv1 0 1, pixel rv1 0 2) = ((0x11, 0x13, 0x0F) : BitVec 6 × BitVec 6 × BitVec 6) := by
  decide
theorem test_RV1_quadrant : (pixel rv1 0 16, pixel rv1 0 17, pixel rv1 1 0) = ((0x21, 0x23, 0x0F) : BitVec 6 × BitVec 6 × BitVec 6) := by
  decide
theorem test_RV1_sprites : (pixel rv1 8 0, pixel rv1 8 7) = ((0x30, 0x0F) : BitVec 6 × BitVec 6) := by decide

/-! The bus and the ports: DV3, DV4, MV1, MV3, MV4, MV5, W14. -/

theorem test_DV1_dma_byte : let s := (nes [] 0).setPpu { Ppu.powerOn with oamAddr := 0x10 }
    (oamDmaByte 0x03 (memWrite 0x03F5 0x0A s) 0xF5).ppu.oam = [(0x05, 0x0A)] := by decide
theorem test_DV3 : (memRead 0x4014 (nes [] 0)).2.events = [.portRead 0x4014 (memRead 0x4014 (nes [] 0)).1] := rfl
theorem test_DV4 : after (nes [0x8D, 0x00, 0x40] 0x3F) (fun t => decide (t.events = [.portWrite 0x4000 0x3F])) = true := by decide
theorem test_MV1 : (memRead 0x1805 (memWrite 0x0005 0x42 (nes [] 0))).1 = 0x42 := by decide
theorem test_MV3 : (memRead 0x6000 (memWrite 0x6000 0x42 (nes [] 0))).1 = 0x42 := by decide
theorem test_MV4 : after (nes [0x8D, 0x00, 0x80] 0x3F) (fun t => decide (t.events = [.diag .romWrite 0x8000])) = true := by decide
theorem test_MV5 : after (nes [0xAD, 0x18, 0x40] 0x3F) (fun t => decide ((t.a, isBitSet t.p .z) = (0, true)) &&
    decide (t.events = [.diag (.unmapped .read) 0x4018])) = true := by decide
theorem test_W14_write : after (nes [0x8D, 0x20, 0x40] 0x3F) (fun t => decide (t.events = [.diag (.unmapped .write) 0x4020])) = true := by
  decide

/-! The cartridge: W1 and the headers of section 2.8. -/

theorem test_W1_single : let cart : Cart := { Cart.blank with banks := .single, prg := [(0x0123, 0xA5), (0x3FFC, 0x77)] }
    (readPrg cart 0x8123, readPrg cart 0xC123, readPrg cart 0xFFFC) = ((0xA5, 0xA5, 0x77) : Byte × Byte × Byte) := by decide
theorem test_W1_dual : let cart : Cart := { Cart.blank with prg := [(0x0123, 0xA5), (0x4123, 0x5A)] }
    (readPrg cart 0xC123, readPrg cart 0x8123) = ((0x5A, 0xA5) : Byte × Byte) := by decide

/-- An image that is a header and one byte, whose fifth to eighth bytes are given. -/
def header (b4 b5 b6 b7 : Byte) : List Byte := [0x4E, 0x45, 0x53, 0x1A, b4, b5, b6, b7, 0, 0, 0, 0, 0, 0, 0, 0, 0]

/-- The image is refused for a reason. -/
def refusedAs (image : List Byte) (kind : RomFormat) : Bool :=
  match loadImage image with
  | .ok _ => false
  | .error k => decide (k = kind)

theorem test_CV5_CV6 : (refusedAs (0x4D :: (header 2 1 1 0).drop 1) .badHeader && refusedAs ((header 2 1 1 0).take 15) .badHeader) = true := by
  decide
theorem test_CV7_CV8_CV11 : (refusedAs (header 2 1 0x05 0) .trainer && refusedAs (header 2 1 1 0x08) .nes20 &&
    refusedAs (header 2 1 1 0x48) .nes20) = true := by decide
theorem test_CV10 : refusedAs (header 2 1 0x11 0) (.unsupportedMapper 1) = true := by decide
theorem test_CV12_CV13 : (refusedAs (header 3 1 1 0) .sizeValidation && refusedAs (header 2 0 1 0) .sizeValidation) = true := by decide
theorem test_CV14_CV15 : (refusedAs (header 2 1 0x09 0) .fourScreen && refusedAs (header 2 1 1 0) .truncated &&
    refusedAs (header 2 1 1 0x0C) .truncated) = true := by decide

/-! Re-configuring the region list (R78): without its first region, RAM is unmapped below 0x0800 and its mirrors remain. -/

theorem test_removeMemoryRegion : let rest := removeMemoryRegion nesMapRegions ⟨⟨0x0000, 0x07FF⟩, .ram⟩
    findRegion rest 0x07FF = none ∧ findRegion rest 0x0800 = some ⟨⟨0x0800, 0x1FFF⟩, .ram⟩ := by decide
theorem test_clearMemoryRegions : findRegion (clearMemoryRegions nesMapRegions) 0x0800 = none := by decide

/-! Reset and the placing of code. -/

theorem test_reset_registers : (State.reset.sp, State.reset.p, State.reset.pc) = ((0xFD, 0x24, 0) : Byte × Byte × Word) := by decide
theorem test_withFetchWord : after (State.reset.withFetchWord 16 0x80A9) (fun t => decide (t.a = 0x80)) = true := by decide
theorem test_withFetchWord_jump : after (State.reset.withFetchWord 24 0x12344C) (fun t => decide (t.pc = 0x1234)) = true := by decide

/-! Spelling (R109), and a branch offset at each end of its range. -/

theorem test_listing : listing 0x8000 (.lda (.mem (.indX 0xFE))) = "LDA ($FE,X)".toList ∧
    listing 0x800A (.bne 0xF8) = "BNE $8004".toList ∧ listing 0 (.jmp (.ind 0x30FF)) = "JMP ($30FF)".toList ∧
    listing 0 (.asl .acc) = "ASL A".toList ∧ listing 0 (.lda (.imm 0x0A)) = "LDA #$0A".toList := by decide
theorem test_branchOffset : branchOffset 0x8000 0x8081 = some 0x7F ∧ branchOffset 0x8000 0x7F82 = some 0x80 ∧
    branchOffset 0x8000 0x8082 = none ∧ branchOffset 0x8000 0x7F81 = none := by decide

/-! Witnesses. For each obligation with hypotheses, a concrete case that meets all of them together, one for each clause, at
a boundary value where a clause has a range. -/

theorem witness_FlagOperationsConsistent : Flag.n ≠ Flag.c := by decide
/-- Every state takes a step. -/
theorem steps (s : State) : ∃ t, step s = .next t := by
  obtain ⟨_, _, _, _, _, h⟩ := step_eq s
  exact ⟨_, h⟩

theorem witness_StepKeepsInvariant : Inv (nes [0xEA] 0) ∧ ∃ t, step (nes [0xEA] 0) = .next t := by
  refine ⟨⟨?_, ?_, ?_, ?_, ?_, ?_, ?_, ?_, ?_, ?_, ?_, ?_⟩, steps _⟩ <;> decide
/-- The last PPU cycle of a frame, in VBlank with an NMI waiting: the edge of the invariant's ranges. -/
theorem witness_StepKeepsInvariant_edge :
    let s := atDot 261 340 fun p => { p with v := 0x3FFF, vblank := true, nmiPending := true }
    Inv s ∧ ∃ t, step s = .next t := by
  refine ⟨⟨?_, ?_, ?_, ?_, ?_, ?_, ?_, ?_, ?_, ?_, ?_, ?_⟩, steps _⟩ <;> decide
theorem witness_DecodeOfEncode : (Instr.sta (.indY 0xFF)).wellFormed = true ∧ (Instr.nopU 0xFC (.mem (.absX 0xFFFF))).wellFormed = true := by
  decide
theorem witness_EncodeOfDecode : decode [0xBD, 0xFF, 0xFF, 0x00] = .ok (.lda (.mem (.absX 0xFFFF)), [0x00]) ∧
    decode [0x02] = .ok (.jam 0x02, []) := ⟨rfl, rfl⟩
theorem witness_LengthIsFixedByOpcode : opcodeOf (.jmp (.ind 0xFFFF)) = some 0x6C ∧
    ([0xFF] : List Byte).length < operandCount 0x6C ∧ decode [0x6C, 0xFF] = .error (.truncated 0x6C) ∧
    decode [0x6C, 0xFF, 0xFF, 0x01] = .ok (.jmp (.ind 0xFFFF), [0x01]) := ⟨rfl, by decide, rfl, rfl⟩
theorem witness_BaseCyclesFollowTheModeTable : opcodeOf (.isc (.indY 0xFF)) = some 0xF3 := rfl
/-- The bytes of an instruction at the end of the address space, its operand at 0x0000 (20_memory.md R61). -/
theorem witness_StepRunsDecodedInstruction :
    let s := flat [0xA5, 0x10] [(0x0010, 0x42)] 0 0 0 0xFD 0x24 0xFFFF
    opcodeOf (.lda (.mem (.zp 0x10))) = some 0xA5 ∧ s.ppu.nmiPending = false ∧ s.irqLine = false ∧
      ∀ (k : Nat) (b : Byte), (encode (.lda (.mem (.zp 0x10))))[k]? = some b →
        peek ((tickStart s).pc + BitVec.ofNat 16 k) (tickStart s) = some b := by
  refine ⟨rfl, rfl, rfl, fun k b h => ?_⟩
  match k, h with
  | 0, h => exact h
  | 1, h => exact h
theorem witness_EveryTickCompletes : (Instr.las 0xFFFF).wellFormed = true ∧ (Instr.sta (.zpY 0)).wellFormed = false := by decide
theorem witness_PpuTimeIsConserved : (atDot 261 340 id).ppu.scanline < 262 ∧ ∃ t, step (atDot 261 340 id) = .next t :=
  ⟨by decide, steps _⟩
theorem witness_StepKeepsConfigurationAndHistory : ∃ t, step State.reset = .next t := steps _
theorem witness_ScanlineLoop : (atDot 0 340 id).ppu.cycle + 3 * 0 < 341 ∧ 341 ≤ (atDot 0 338 id).ppu.cycle + 3 * 1 ∧
    (∃ t, step ((nes [0xEA] 0).setCfg { (nes [0xEA] 0).cfg with sprite0HitPolicy := .never }) = .next t) ∧
    (nes [0xEA] 0).ppu.spriteHitZero = false := ⟨by decide, by decide, steps _, rfl⟩
theorem witness_ScanlineEvents : (atDot 240 0 id).ppu.scanline = 240 ∧ (atDot 261 0 id).ppu.scanline = 261 ∧
    (atDot 0 0 id).ppu.scanline ≠ 240 ∧ (atDot 0 0 id).ppu.scanline ≠ 261 ∧ (atDot 241 0 id).ppu.scanline ≠ 240 ∧
    (atDot 241 0 id).ppu.scanline ≠ 261 := by decide
theorem witness_FramePixelPriority : 0 < 240 ∧ 239 < 240 ∧ 0 < 256 ∧ 255 < 256 := by decide
theorem witness_TileAndAttributeBits : (0x1000 = 0 ∨ 0x1000 = 0x1000) ∧ 7 < 8 ∧ 0x2C00 ∈ [0x2000, 0x2400, 0x2800, 0x2C00] ∧
    29 < 30 ∧ 31 < 32 := by decide
/-- Two states that differ in the scroll, the mask, the sprite-size bit and A. -/
theorem witness_FrameDependsOnPpuMemoryOnly :
    let t := (rv1.setPpu { rv1.ppu with ctrl := 0x20, mask := 0x1E, scrollX := 8 }).setA 1
    PpuMemoryKept rv1 t ∧ t.cfg.cart = rv1.cfg.cart ∧
      ∀ k, k = 0 ∨ k = 1 ∨ k = 3 ∨ k = 4 → t.ppu.ctrl.getLsbD k = rv1.ppu.ctrl.getLsbD k := by
  refine ⟨⟨rfl, rfl, rfl⟩, rfl, fun k h => ?_⟩
  rcases h with rfl | rfl | rfl | rfl <;> rfl
theorem witness_InterruptPollOrder : iv1.ppu.nmiPending = true ∧
    (let s := ((nes [] 0).setIrqLine true).setP 0x20
     s.ppu.nmiPending = false ∧ s.irqLine = true ∧ isBitSet s.p .i = false) ∧
    (let s := (nes [] 0).setIrqLine true
     s.ppu.nmiPending = false ∧ isBitSet s.p .i = true) ∧
    (nes [] 0).ppu.nmiPending = false ∧ (nes [] 0).irqLine = false := by decide
theorem witness_CallAndReturn : ∃ t, exec (.jsr 0xFFFF) (flat [] [] 0 0 0 0x00 0x24 0x0000) = .next t := ⟨_, rfl⟩
/-- A branch of the list, with its flag at the tested value, and one with its flag at the other. -/
theorem witness_BranchEffect :
    (Instr.bpl, 0x10, Flag.n, false) ∈ ([(.bpl, 0x10, .n, false)] : List ((Byte → Instr) × Byte × Flag × Bool)) ∧
    isBitSet (nes [] 0).p .n = false ∧ isBitSet (nes [] 0).p .z ≠ true := ⟨by simp, by decide, by decide⟩
theorem witness_FlagInstructionEffect : (Instr.clv, 0xB8, Flag.v, false) ∈
    ([(.sed, 0xF8, .d, true), (.clv, 0xB8, .v, false)] : List (Instr × Byte × Flag × Bool)) := by decide
theorem witness_NopEffect : (0xFA : Byte) ∈ ([0x1A, 0x3A, 0x5A, 0x7A, 0xDA, 0xFA] : List Byte) ∧
    (0xE2 : Byte) ∈ ([0x80, 0x82, 0x89, 0xC2, 0xE2] : List Byte) ∧
    ((0xFC : Byte), (MemOperand.absX 0xFFFF).mode) ∈ ([(0x1C, .absX), (0xFC, .absX)] : List (Byte × MemMode)) := by decide
theorem witness_JamEffect : let s := flat [0xF2] [] 0 0 0 0xFD 0x24 0xFFFF
    s.ppu.nmiPending = false ∧ s.irqLine = false ∧ s.dmaStall = 0 ∧ peek s.pc s = some 0xF2 := by decide
theorem witness_LoadEffect : (Instr.lda (.mem (.indY 0xFF))).wellFormed = true ∧ (Instr.ldx (.mem (.absY 0xFFFF))).wellFormed = true ∧
    (Instr.ldy (.imm 0)).wellFormed = true ∧ (Instr.lax (.indX 0xFF)).wellFormed = true := by decide
theorem witness_StoreEffect : (Instr.sta (.indY 0xFF)).wellFormed = true ∧ (Instr.stx (.zpY 0xFF)).wellFormed = true ∧
    (Instr.sty (.abs 0xFFFF)).wellFormed = true ∧ (Instr.sax (.indX 0)).wellFormed = true := by decide
theorem witness_AddSubtractEffect : (Instr.adc (.mem (.indX 0xFF))).wellFormed = true ∧ (Instr.sbc (.imm 0)).wellFormed = true ∧
    (Instr.usbc 0xFF).wellFormed = true := by decide
theorem witness_LogicEffect : (Instr.and (.imm 0)).wellFormed = true ∧ (Instr.ora (.mem (.zp 0xFF))).wellFormed = true ∧
    (Instr.eor (.mem (.absX 0xFFFF))).wellFormed = true ∧ (Instr.bit (.abs 0xFFFF)).wellFormed = true := by decide
theorem witness_CompareEffect : ∃ (make : ReadOperand → Instr) (reg : State → Byte),
    ((make = .cmp ∧ reg = State.a) ∨ (make = .cpx ∧ reg = State.x) ∨ (make = .cpy ∧ reg = State.y)) ∧
      (make (.mem (.abs 0xFFFF))).wellFormed = true := ⟨.cpx, State.x, .inr (.inl ⟨rfl, rfl⟩), rfl⟩
theorem witness_IncDecEffect : (Instr.inc (.absX 0xFFFF)).wellFormed = true ∧ (Instr.dec (.zpX 0xFF)).wellFormed = true := by decide
theorem witness_ShiftEffect : ∃ (make : ShiftOperand → Instr) (result : Nat → Nat → Nat) (out : Nat),
    (make, result, out) = (Instr.ror, fun m c => m / 2 + 128 * c, 0) ∧ (make (.mem (.absX 0xFFFF))).wellFormed = true :=
  ⟨.ror, _, 0, rfl, rfl⟩
theorem witness_ShiftCombinationEffect :
    ∃ (make : MemOperand → Instr) (result : Nat → Nat → Nat) (out : Nat) (combine : Byte → Byte → Byte),
      (make, result, out, combine) = (Instr.rla, fun m c => 2 * m + c, 7, fun a r => a &&& r) ∧
        (make (.absY 0xFFFF)).wellFormed = true := ⟨.rla, _, 7, _, rfl, rfl⟩
theorem witness_ArithmeticCombinationEffect : (Instr.dcp (.absY 0xFFFF)).wellFormed = true ∧
    (Instr.isc (.indX 0xFF)).wellFormed = true ∧ (Instr.rra (.indY 0)).wellFormed = true := by decide
theorem witness_ImmediateCombinationEffect : ((0x2B : Byte) = 0x0B ∨ (0x2B : Byte) = 0x2B) ∧ (Instr.anc 0x2B 0xFF).wellFormed = true := by
  decide
/-- A crossing at the page's end, one that does not cross, and one through a pointer. -/
theorem witness_PageCrossCycle : hiByte 0x12FF ≠ hiByte (0x12FF + zext16 1) ∧ hiByte 0x12FE = hiByte (0x12FE + zext16 1) ∧
    (let s := flat [] [(0x0000, 0x40), (0x00FF, 0xF8)] 0 0 0x10 0xFD 0x24 0x0200
     peek (zext16 0xFF) s = some (loByte 0x40F8) ∧ peek (zext16 (0xFF + 1)) s = some (hiByte 0x40F8)) ∧
    (MemOperand.indX 0).mode ∈ [MemMode.zp, .zpX, .zpY, .abs, .indX] ∧
    (∃ t, exec (.sta (.absX 0x12FF)) (nes [] 0) = .next t) ∧ (∃ t, exec (.tas 0x12FF) (nes [] 0) = .next t) :=
  ⟨by decide, by decide, by decide, by decide, ⟨_, rfl⟩, ⟨_, rfl⟩⟩
theorem witness_RamMirrors : (nes [] 0).cfg.bus = .nesMap ∧ (0x1FFF : Word).toNat ≤ 0x1FFF ∧
    (0x07FF : Word).toNat % 0x800 = (0x1FFF : Word).toNat % 0x800 ∧
    ¬((0x2000 : Word).toNat ≤ 0x1FFF ∧ (0x2000 : Word).toNat % 0x800 = (0x1FFF : Word).toNat % 0x800) := by decide
theorem witness_ReadSeesLastWrite : cellOf .nesMap 0x1FFF = some (.ram, 0x7FF) ∧ cellOf .nesMap 0x07FF = some (.ram, 0x7FF) ∧
    cellOf .nesMap 0x7FFF = some (.wram, 0x1FFF) ∧ cellOf .flatRam 0xFFFF = some (.flat, 0xFFFF) ∧
    cellOf .flatRam (0xFFFF + 1) = some (.flat, 0x0000) := by decide
/-- The first and last address of each clause; no address falls under two of them. -/
theorem witness_ReadSideEffects : (nes [] 0).cfg.bus = .nesMap ∧
    (0x2002 : Word).toNat % 8 = 2 ∧ (0x3FFA : Word).toNat % 8 = 2 ∧ (0x3FFF : Word).toNat % 8 = 7 ∧ (0x2004 : Word).toNat % 8 = 4 ∧
    (0x2000 : Word).toNat % 8 ∈ [0, 1, 3, 5, 6] ∧ (0x3FFE : Word).toNat % 8 ∈ [0, 1, 3, 5, 6] ∧ 0x4017 ≤ 0x4017 ∧
    0x4018 ≤ (0x4018 : Word).toNat ∧ (0x5FFF : Word).toNat ≤ 0x5FFF ∧ (0x1FFF : Word).toNat ≤ 0x1FFF ∧
    0x6000 ≤ (0x6000 : Word).toNat := by decide
theorem witness_UnmappedAccess : ownerOf (nes [] 0).cfg.bus 0x4018 = none ∧ ownerOf (nes [] 0).cfg.bus 0x5FFF = none ∧
    ((nes [] 0).setPc 0x5FFF).pc = 0x5FFF := by decide
theorem witness_MemoryMap : let r : Region := ⟨⟨5, 9⟩, .apu⟩
    (∀ q ∈ [(⟨⟨0, 4⟩, .ram⟩ : Region)], q.range.contains (9 : Word).toNat = false) ∧ r.range.contains (9 : Word).toNat = true ∧
    findRegion nesMapRegions 0x800 ≠ some ⟨⟨0x0000, 0x07FF⟩, .ram⟩ ∧ findRegion nesMapRegions 0x7FF = some ⟨⟨0x0000, 0x07FF⟩, .ram⟩ := by
  decide
theorem witness_PrgAndChrAreReadOnly : (nes [] 0).cfg.bus = .nesMap ∧ 0x8000 ≤ (0x8000 : Word).toNat ∧ 0x8000 ≤ (0xFFFF : Word).toNat ∧
    (0xBFFF : Word).toNat < 0xC000 ∧ (nes [] 0).cfg.cart.banks = .dual ∧
    ((nes [] 0).setCfg { (nes [] 0).cfg with cart := { Cart.blank with banks := .single } }).cfg.cart.banks = .single ∧
    (0x1FFF : Word).toNat ≤ 0x1FFF := by decide
theorem witness_OamDmaAndPortWrites : (nes [] 0).cfg.bus = .nesMap ∧ (0x1F : Byte).toNat < 0x20 ∧ 0x60 ≤ (0x60 : Byte).toNat ∧
    0x4000 ≤ (0x4013 : Word).toNat ∧ (0x4017 : Word).toNat ≤ 0x4017 ∧ (0x4015 : Word).toNat ≠ 0x4014 := by decide
theorem witness_PpuRegisterWrites : (nes [] 0).cfg.bus = .nesMap ∧ ∀ k, k < 7 →
    0x2000 ≤ (BitVec.ofNat 16 (0x3FF8 + k)).toNat ∧ (BitVec.ofNat 16 (0x3FF8 + k)).toNat ≤ 0x3FFF ∧
      (BitVec.ofNat 16 (0x3FF8 + k)).toNat % 8 = k := by decide
theorem witness_DataReadIsBuffered : (nes [] 0).cfg.bus = .nesMap ∧ (0x3FFF : Word).toNat % 8 = 7 ∧ (0x2007 : Word).toNat % 8 = 7 ∧
    ((nes [] 0).setPpu { Ppu.powerOn with v := 0x3EFE }).ppu.v.toNat < 0x3F00 ∧
    0x3F00 ≤ ((nes [] 0).setPpu { Ppu.powerOn with v := 0x3F00 }).ppu.v.toNat := by decide
theorem witness_DataWriteReachesPpuSpace : (nes [] 0).cfg.bus = .nesMap ∧ (nes [] 0).ppu.addrLatch = .high ∧
    (nes [] 0).ppu.ctrl.getLsbD 2 = false ∧ (0x3FFF : Word).toNat % 8 = 7 ∧ (0x1FFF : Word).toNat ≤ 0x1FFF ∧
    0x2000 ≤ (0x2000 : Word).toNat ∧ (0x3EFF : Word).toNat ≤ 0x3EFF ∧ 0x3F00 ≤ (0x3F00 : Word).toNat := by decide
/-- Two addresses of one VRAM byte and two of different ones, at the ends of the range, under each mirroring. -/
theorem witness_NametableMirroring : let table := fun w : Word => (w.toNat - 0x2000) % 0x1000 / 0x400
    (table 0x3EFF / 2 = table 0x2AFF / 2 ∧ table 0x3EFF % 2 = table 0x26FF % 2 ∧
      (0x3EFF : Word).toNat % 0x400 = (0x2AFF : Word).toNat % 0x400 ∧ (0x3EFF : Word).toNat % 0x400 = (0x26FF : Word).toNat % 0x400) ∧
    table 0x2000 / 2 ≠ table 0x2800 / 2 ∧ table 0x2000 % 2 ≠ table 0x2400 % 2 ∧
    ((nes [] 0).setCfg { (nes [] 0).cfg with cart := { Cart.blank with mirroring := .vertical } }).cfg.cart.mirroring = .vertical := by
  decide
theorem witness_PaletteMirrors : 0x3F00 ≤ (0x3F00 : Word).toNat ∧ (0x3FFF : Word).toNat ≤ 0x3FFF ∧
    (0x3F10 : Word).toNat % 32 ∈ [0x10, 0x14, 0x18, 0x1C] ∧ (0x3F10 : Word).toNat % 32 - 0x10 = (0x3FE0 : Word).toNat % 32 ∧
    (0x3F11 : Word).toNat % 32 ≠ (0x3F01 : Word).toNat % 32 := by decide
/-- The bytes of an image of exactly the declared length. -/
def smallestImage : List Byte :=
  [0x4E, 0x45, 0x53, 0x1A, 1, 1, 0, 0, 0, 0, 0, 0, 0, 0, 0, 0] ++ List.replicate 24576 0
theorem witness_ImageValidation : let b := fun i => (smallestImage.getD i 0).toNat
    (16 ≤ smallestImage.length ∧ b 0 = 0x4E ∧ b 1 = 0x45 ∧ b 2 = 0x53 ∧ b 6 / 4 % 2 = 0 ∧ b 7 / 4 % 4 ≠ 2 ∧ b 7 / 16 = 0 ∧
      b 6 / 16 = 0 ∧ (b 4 = 1 ∨ b 4 = 2) ∧ b 5 = 1 ∧ b 6 / 8 % 2 = 0 ∧ 16 + 16384 * b 4 + 8192 * b 5 ≤ smallestImage.length) ∧
    ¬(16 ≤ (smallestImage.take 15).length) := by
  have h : smallestImage.length = 24592 := by
    rw [smallestImage, List.length_append, List.length_replicate]
    rfl
  refine ⟨⟨by omega, rfl, rfl, rfl, rfl, by decide, rfl, rfl, .inl rfl, rfl, rfl, ?_⟩, ?_⟩
  · exact Nat.le_of_eq h.symm
  · rw [List.length_take, h]
    decide

end Sys2Proof.Tests
end

section
/-! PROOFS of the statements about the state (10_state.md): the flag operations, what a step keeps and appends, the
invariant. -/

namespace Sys2Proof.Machine

open Sys2Proof.Laws

/-! The invariant. -/

/-- Settles O4: the poll keeps the invariant without the tick's accounts, the fetch and the instruction keep it since they
are quiet, and the end of the tick pays the accounts. -/
theorem stepKeepsInvariant : Obligations.StepKeepsInvariant := by
  intro s t hs hstep
  obtain ⟨base, u, quiet, rfl⟩ := step_next hstep
  exact (hs.mid.tickStart.quiet quiet).endTick base

/-! What is fixed for a run, and the history that only grows (10_state.md R51, R54). -/

/-- Between two states of a run: the configuration and the IRQ line are as before, and the history is only appended to. -/
structure RunKept (s t : State) : Prop where
  cfg     : t.cfg = s.cfg
  irqLine : t.irqLine = s.irqLine
  history : s.events <+: t.events

theorem RunKept.refl (s : State) : RunKept s s := ⟨rfl, rfl, [], List.append_nil _⟩

theorem RunKept.trans {s t u : State} (h₁ : RunKept s t) (h₂ : RunKept t u) : RunKept s u :=
  ⟨h₂.cfg.trans h₁.cfg, h₂.irqLine.trans h₁.irqLine, h₁.history.trans h₂.history⟩

theorem Quiet.runKept {s t : State} (h : Quiet s t) : RunKept s t := by
  obtain ⟨l, hl, -⟩ := h.history
  exact ⟨h.cfg, h.irq, l, hl.symm⟩

theorem setPpu_runKept (q : Ppu) (s : State) : RunKept s (s.setPpu q) :=
  ⟨rfl, rfl, (RunKept.refl s).history⟩

theorem advanceScanline_runKept (s : State) : RunKept s (advanceScanline s) := by
  obtain ⟨l, hl, -⟩ := advanceScanline_events s
  have time := advanceScanline_time s
  exact ⟨by rw [time], by rw [time], l, hl.symm⟩

theorem advanceScanlines_runKept (n : Nat) (s : State) : RunKept s (advanceScanlines n s) := by
  induction n generalizing s with
  | zero => exact .refl s
  | succ n ih => exact (advanceScanline_runKept s).trans (ih _)

theorem ppuTick_runKept (n : Nat) (s : State) : RunKept s (ppuTick n s) :=
  (setPpu_runKept _ s).trans (advanceScanlines_runKept _ _)

theorem pollInterrupts_runKept (s : State) : RunKept s (pollInterrupts s) := by
  have entry (r : Word) (status : Byte) (vector : Word) (u : State) : RunKept u (enterInterrupt r status vector u) :=
    ((Quiet.refl u).enterInterrupt r status vector).runKept
  unfold pollInterrupts
  split
  · exact ((setPpu_runKept _ s).trans (entry _ _ _ _)).trans (ppuTick_runKept _ _)
  · split
    · exact (entry _ _ _ s).trans (ppuTick_runKept _ _)
    · exact .refl s

theorem tickStart_runKept (s : State) : RunKept s (tickStart s) :=
  (pollInterrupts_runKept s).trans ((Quiet.refl _).setExtra 0).runKept

theorem endTick_runKept (base : Nat) (s : State) : RunKept s (endTick base s) :=
  ((((Quiet.refl s).setExtra 0).setDmaStall 0).setTickCycles _).runKept.trans (ppuTick_runKept _ _)

@[simp] theorem endTick_dmaStall (base : Nat) (s : State) : (endTick base s).dmaStall = 0 :=
  congrArg State.dmaStall (ppuTick_time _ _)

@[simp] theorem endTick_extra (base : Nat) (s : State) : (endTick base s).extra = 0 :=
  congrArg State.extra (ppuTick_time _ _)

/-- Settles O14: the start of a tick, its quiet middle and its end each keep what is fixed and append to the history; its
end clears the accounts. -/
theorem stepKeepsConfigurationAndHistory : Obligations.StepKeepsConfigurationAndHistory := by
  intro s t hstep
  obtain ⟨base, u, quiet, rfl⟩ := step_next hstep
  have kept : RunKept s (endTick base u) :=
    ((tickStart_runKept s).trans quiet.runKept).trans (endTick_runKept base u)
  exact ⟨kept.cfg, kept.irqLine, kept.history, endTick_dmaStall base u, endTick_extra base u⟩

/-! The flag operations (R35). -/

/-- Settles O1: what each operation writes to each flag is in `isBitSet_setBit`, `isBitSet_clearBit` and
`isBitSet_setBitTo`; the combined value is P itself. -/
theorem flagOperationsConsistent : Obligations.FlagOperationsConsistent := by
  refine ⟨rfl, fun p f b => ⟨?_, ?_, ?_, fun g hg => ⟨?_, ?_, ?_⟩⟩, fun s v f => ⟨rfl, rfl, rfl⟩⟩
  · simp [isBitSet_setBit]
  · simp [isBitSet_clearBit]
  · simp
  · simp [isBitSet_setBit, hg]
  · simp [isBitSet_clearBit, hg]
  · simp [hg]

end Sys2Proof.Machine
end

section
/-! PROOFS of the statements about memory (20_memory.md): the map of regions, RAM and its mirrors, read after write, and what a
read changes. -/

namespace Sys2Proof.Machine

open Sys2Proof.Laws

/-! The owner of each range of `NesMap` (R66). -/

theorem ownerOf_nesMap_ram {a : Word} (h : a.toNat ≤ 0x1FFF) : ownerOf .nesMap a = some .ram := by
  rw [ownerOf_nesMap, if_pos h]

theorem ownerOf_nesMap_eq_ram {a : Word} : ownerOf .nesMap a = some .ram ↔ a.toNat ≤ 0x1FFF := by
  refine ⟨fun h => ?_, ownerOf_nesMap_ram⟩
  rw [ownerOf_nesMap] at h
  split at h
  next hle => exact hle
  · repeat' split at h
    all_goals cases h

theorem ownerOf_nesMap_ppu {a : Word} (h : 0x2000 ≤ a.toNat ∧ a.toNat ≤ 0x3FFF) : ownerOf .nesMap a = some .ppu := by
  rw [ownerOf_nesMap, if_neg (by omega), if_pos h.2]

theorem ownerOf_nesMap_apu {a : Word} (h : (0x4000 ≤ a.toNat ∧ a.toNat ≤ 0x4013) ∨ a.toNat = 0x4015) :
    ownerOf .nesMap a = some .apu := by
  rw [ownerOf_nesMap]
  iterate 2 rw [if_neg (by omega)]
  rcases h with h | h
  · rw [if_pos h.2]
  · rw [h]
    rfl

theorem ownerOf_nesMap_oamDma {a : Word} (h : a.toNat = 0x4014) : ownerOf .nesMap a = some .oamDma := by
  rw [ownerOf_nesMap, h]
  rfl

theorem ownerOf_nesMap_joypad {a : Word} (h : a.toNat = 0x4016 ∨ a.toNat = 0x4017) :
    ownerOf .nesMap a = some .joypad := by
  rw [ownerOf_nesMap]
  iterate 5 rw [if_neg (by omega)]
  rw [if_pos (by omega)]

theorem ownerOf_nesMap_unmapped {a : Word} (h : 0x4018 ≤ a.toNat ∧ a.toNat ≤ 0x5FFF) : ownerOf .nesMap a = none := by
  rw [ownerOf_nesMap]
  iterate 6 rw [if_neg (by omega)]
  rw [if_pos h.2]

theorem ownerOf_nesMap_wram {a : Word} (h : 0x6000 ≤ a.toNat ∧ a.toNat ≤ 0x7FFF) : ownerOf .nesMap a = some .wram := by
  rw [ownerOf_nesMap]
  iterate 7 rw [if_neg (by omega)]
  rw [if_pos h.2]

theorem ownerOf_nesMap_prg {a : Word} (h : 0x8000 ≤ a.toNat) : ownerOf .nesMap a = some .prg := by
  rw [ownerOf_nesMap]
  iterate 8 rw [if_neg (by omega)]

/-! Region lists: the first region that contains an address, after adding and removing (R64, R78). -/

theorem findRegion_cons_pos {r : Region} {a : Word} (rest : List Region) (h : r.range.contains a.toNat = true) :
    findRegion (r :: rest) a = some r :=
  List.find?_cons_of_pos h

theorem findRegion_cons_neg {r : Region} {a : Word} (rest : List Region) (h : ¬ r.range.contains a.toNat = true) :
    findRegion (r :: rest) a = findRegion rest a :=
  List.find?_cons_of_neg h

/-- Two lists registered one after the other: the second is asked only where the first finds nothing. -/
theorem findRegion_append (first second : List Region) (a : Word) :
    findRegion (first ++ second) a = (findRegion first a).or (findRegion second a) :=
  List.find?_append

theorem findRegion_eq_none {regions : List Region} {a : Word} (h : ∀ q ∈ regions, q.range.contains a.toNat = false) :
    findRegion regions a = none := by
  simpa [findRegion] using h

theorem findRegion_first {before : List Region} {r : Region} {a : Word} (after : List Region)
    (hbefore : ∀ q ∈ before, q.range.contains a.toNat = false) (hr : r.range.contains a.toNat = true) :
    findRegion (before ++ r :: after) a = some r := by
  rw [findRegion_append, findRegion_eq_none hbefore, findRegion_cons_pos after hr, Option.none_or]

theorem findRegion_addMemoryRegion (regions : List Region) (r : Region) (a : Word) :
    findRegion (addMemoryRegion regions r) a =
      (findRegion regions a).or (if r.range.contains a.toNat = true then some r else none) := by
  rw [addMemoryRegion, findRegion_append]
  congr 1
  split
  · next h => exact findRegion_cons_pos [] h
  · next h => exact findRegion_cons_neg [] h

theorem findRegion_removeMemoryRegion_ne (regions : List Region) (r : Region) (a : Word) :
    findRegion (removeMemoryRegion regions r) a ≠ some r := by
  intro h
  have hmem : r ∈ removeMemoryRegion regions r := List.mem_of_find?_eq_some h
  simp [removeMemoryRegion] at hmem

/-- Where another region, or none, was found, taking a region out changes nothing. -/
theorem findRegion_removeMemoryRegion_eq {regions : List Region} {r : Region} {a : Word}
    (h : findRegion regions a ≠ some r) : findRegion (removeMemoryRegion regions r) a = findRegion regions a := by
  induction regions with
  | nil => rfl
  | cons q rest ih =>
    by_cases hq : q.range.contains a.toNat = true
    · rw [findRegion_cons_pos rest hq] at h ⊢
      have keep : removeMemoryRegion (q :: rest) r = q :: removeMemoryRegion rest r :=
        List.filter_cons_of_pos (by simpa using h)
      rw [keep, findRegion_cons_pos _ hq]
    · rw [findRegion_cons_neg rest hq] at h ⊢
      rw [← ih h]
      by_cases hr : q = r
      · exact congrArg (findRegion · a) (List.filter_cons_of_neg (by simpa using hr))
      · have keep : removeMemoryRegion (q :: rest) r = q :: removeMemoryRegion rest r :=
          List.filter_cons_of_pos (by simpa using hr)
        rw [keep, findRegion_cons_neg _ hq]

/-- Settles O52: the owners are the lemmas of the ranges, and each law of a region list is a lemma about `findRegion`. -/
theorem memoryMap : Obligations.MemoryMap := by
  refine ⟨fun a => ⟨ownerOf_nesMap_ram, ownerOf_nesMap_ppu, ownerOf_nesMap_apu, ownerOf_nesMap_oamDma,
      ownerOf_nesMap_joypad, ownerOf_nesMap_unmapped, ownerOf_nesMap_wram, ownerOf_nesMap_prg, ownerOf_flatRam a⟩,
    by decide, by decide, fun _ after _ _ => findRegion_first after, fun regions r a => ?_,
    fun regions r a => ⟨findRegion_removeMemoryRegion_ne regions r a, findRegion_removeMemoryRegion_eq⟩,
    fun _ _ => rfl, ⟨_, rfl⟩⟩
  rw [findRegion_addMemoryRegion]
  cases findRegion regions a <;> rfl

/-! One access, by the owner of its address (R64, R65). -/

theorem memRead_ram {a : Word} {s : State} (h : ownerOf s.cfg.bus a = some .ram) :
    memRead a s = (s.ram.read .ram (ramIndex a), s) := by
  simp only [memRead, h]

theorem memRead_ppu {a : Word} {s : State} (h : ownerOf s.cfg.bus a = some .ppu) : memRead a s = ppuRegRead a s := by
  simp only [memRead, h]

theorem memRead_unmapped {a : Word} {s : State} (h : ownerOf s.cfg.bus a = none) :
    memRead a s = (0, s.emit (.diag (.unmapped .read) a)) := by
  simp only [memRead, h]

theorem memWrite_ram {a : Word} {s : State} (v : Byte) (h : ownerOf s.cfg.bus a = some .ram) :
    memWrite a v s = s.setRam (s.ram.set (ramIndex a) v) := by
  simp only [memWrite, h]

theorem memWrite_unmapped {a : Word} {s : State} (v : Byte) (h : ownerOf s.cfg.bus a = none) :
    memWrite a v s = s.emit (.diag (.unmapped .write) a) := by
  simp only [memWrite, h]

@[simp] theorem memWrite_cfg (a : Word) (v : Byte) (s : State) : (memWrite a v s).cfg = s.cfg :=
  (memWrite_effect a v s).cfg

/-- The ports (62_devices.md R374, R375): every read from 0x4000 to 0x4017 is an external one. -/
theorem memRead_port {a : Word} {s : State} (hbus : s.cfg.bus = .nesMap) (h : 0x4000 ≤ a.toNat ∧ a.toNat ≤ 0x4017) :
    memRead a s = externalRead a s := by
  have ports : ((0x4000 ≤ a.toNat ∧ a.toNat ≤ 0x4013) ∨ a.toNat = 0x4015) ∨ a.toNat = 0x4014 ∨
      a.toNat = 0x4016 ∨ a.toNat = 0x4017 := by omega
  rcases ports with apu | dma | joypad
  · simp only [memRead, hbus, ownerOf_nesMap_apu apu]
  · simp only [memRead, hbus, ownerOf_nesMap_oamDma dma]
  · simp only [memRead, hbus, ownerOf_nesMap_joypad joypad]

/-- The opcode byte 0x00 is BRK, without operand bytes (30_encoding.md R103). -/
theorem fetchInstr_brk {s t : State} (h : fetch s = (0, t)) : fetchInstr s = (0, .ok (.brk, []), t) := by
  have noOperands : operandCount 0 = 0 := rfl
  simp only [fetchInstr, h, noOperands, fetchBytes]
  rfl

/-- Settles O51: the byte fetched at an unmapped address is 0x00, the opcode of BRK. -/
theorem unmappedAccess : Obligations.UnmappedAccess := by
  intro s a ha
  refine ⟨memRead_unmapped ha, fun v => memWrite_unmapped v ha, fun hpc => ?_⟩
  subst hpc
  have hfetch : fetch s = (0, (s.emit (.diag (.unmapped .read) s.pc)).setPc (s.pc + 1)) := by
    rw [fetch, memRead_unmapped ha]
  rw [fetchInstr_brk hfetch]
  exact ⟨rfl, rfl⟩

/-! The byte of memory behind an address. -/

/-- The mask of R67 is the remainder by the size of RAM. -/
theorem ramIndex_eq_mod (a : Word) : ramIndex a = a.toNat % 0x800 := by
  rw [ramIndex, BitVec.toNat_and]
  exact Nat.and_two_pow_sub_one_eq_mod _ 11

/-- The addresses that reach a byte of RAM: up to 0x1FFF, and equal to its index modulo 0x800. -/
theorem cellOf_nesMap_ram {a : Word} {i : Nat} :
    cellOf .nesMap a = some (.ram, i) ↔ a.toNat ≤ 0x1FFF ∧ a.toNat % 0x800 = i := by
  constructor
  · intro h
    unfold cellOf at h
    split at h <;> cases h
    next howner => exact ⟨ownerOf_nesMap_eq_ram.1 howner, (ramIndex_eq_mod a).symm⟩
  · rintro ⟨ha, rfl⟩
    rw [cellOf, ownerOf_nesMap_ram ha, ← ramIndex_eq_mod]

/-- The value of a byte of a writable memory. -/
def cellByte (s : State) : Store × Nat → Byte
  | (.ram, i) => s.ram.read .ram i
  | (.wram, i) => s.wram.read .wram i
  | (.flat, i) => s.flat.read .flat i
  | (.vram, i) => vramByte s i
  | (.oam, i) => oamByte s i
  | (.palette, i) => paletteByte s i

/-- An address that reaches a byte of memory shows that byte, whichever of its mirrors it is. -/
theorem peek_of_cellOf {a : Word} {s : State} {c : Store × Nat} (h : cellOf s.cfg.bus a = some c) :
    peek a s = some (cellByte s c) := by
  unfold cellOf at h
  unfold peek
  split at h <;> cases h <;> simp_all [cellByte]

/-- A write is seen at every address that reaches the same byte of memory (R62, R67). -/
theorem peek_memWrite_mirror {a b : Word} {s : State} {c : Store × Nat} (v : Byte) (ha : cellOf s.cfg.bus a = some c)
    (hb : cellOf s.cfg.bus b = some c) : peek b (memWrite a v s) = some v := by
  have hb' : cellOf (memWrite a v s).cfg.bus b = some c := by rwa [memWrite_cfg]
  have ha' : cellOf (memWrite a v s).cfg.bus a = some c := by rwa [memWrite_cfg]
  rw [peek_of_cellOf hb', ← peek_of_cellOf ha', peek_memWrite v ha]

/-- Settles O48: an address below 0x2000 is a cell of RAM, so a read after a write and the frame are those of a cell. -/
theorem ramMirrors : Obligations.RamMirrors := by
  intro s a v hbus ha
  have howner : ownerOf s.cfg.bus a = some .ram := by rw [hbus, ownerOf_nesMap_ram ha]
  have hcell : cellOf s.cfg.bus a = some (.ram, a.toNat % 0x800) := by rw [hbus]; exact cellOf_nesMap_ram.2 ⟨ha, rfl⟩
  refine ⟨?_, ?_, fun b hb hmirror => ?_, fun b hother => memWrite_memory a v s b (.inr fun h => hother ?_)⟩
  · rw [memRead_ram howner, ramIndex_eq_mod]
  · rw [memWrite_ram v howner]
    rfl
  · have hcellb : cellOf s.cfg.bus b = some (.ram, a.toNat % 0x800) := by
      rw [hbus]
      exact cellOf_nesMap_ram.2 ⟨hb, hmirror⟩
    exact memRead_of_peek (peek_memWrite_mirror v hcell hcellb)
  · rw [hcell, hbus] at h
    exact cellOf_nesMap_ram.1 h

/-! Fetches and words. -/

@[simp] theorem mkWord_hiByte_loByte (w : Word) : mkWord (hiByte w) (loByte w) = w := by
  rw [mkWord, hiByte, loByte, BitVec.extractLsb'_append_extractLsb'_eq_extractLsb' (by rfl), BitVec.extractLsb'_eq_self]

/-- A fetch from a byte of memory gives that byte and moves PC past it, with no other effect (R90). -/
theorem fetch_of_peek {a : Word} {s : State} {b : Byte} (h : peek a s = some b) :
    fetch (s.setPc a) = (b, s.setPc (a + 1)) := by
  have hread : memRead a (s.setPc a) = (b, s.setPc a) := memRead_of_peek h
  rw [fetch, setPc_pc, hread]
  rfl

/-- Two bytes of memory hold the word written at them. -/
theorem peek_writeWord {a : Word} {s : State} {c d : Store × Nat} (w : Word) (hc : cellOf s.cfg.bus a = some c)
    (hd : cellOf s.cfg.bus (a + 1) = some d) (hne : c ≠ d) :
    peek a (writeWord a w s) = some (loByte w) ∧ peek (a + 1) (writeWord a w s) = some (hiByte w) := by
  constructor
  · have hkept : peek a (writeWord a w s) = peek a (memWrite a (loByte w) s) :=
      memWrite_memory (a + 1) (hiByte w) _ a (.inr (by rwa [memWrite_cfg, hc, hd, ne_eq, Option.some.injEq]))
    rw [hkept, peek_memWrite _ hc]
  · exact peek_memWrite _ (by rw [memWrite_cfg, hd])

/-- Settles O49: a read, a fetch and a word's read see the byte that `peek` shows, and `peek` shows the last write. -/
theorem readSeesLastWrite : Obligations.ReadSeesLastWrite := by
  refine ⟨fun s a b v c ha hb => ?_, fun s a v => memWrite_memory a v s, fun s a w c d hc hd hne => ?_⟩
  · have hseen := peek_memWrite_mirror v ha hb
    exact ⟨memRead_of_peek hseen, fetch_of_peek hseen⟩
  · obtain ⟨hlo, hhi⟩ := peek_writeWord w hc hd hne
    exact ⟨by rw [readWord_of_peek hlo hhi, mkWord_hiByte_loByte], hlo, hhi⟩

/-! The reads of the PPU's registers (61_ppu.md R311). -/

theorem ppuRegRead_status {a : Word} (s : State) (h : a.toNat % 8 = 2) : ppuRegRead a s = statusRead a s := by
  simp only [ppuRegRead, ppuReg, h]

theorem ppuRegRead_oamData {a : Word} (s : State) (h : a.toNat % 8 = 4) :
    ppuRegRead a s = (oamByte s s.ppu.oamAddr.toNat, s) := by
  simp only [ppuRegRead, ppuReg, h]

theorem ppuRegRead_data {a : Word} (s : State) (h : a.toNat % 8 = 7) : ppuRegRead a s = dataRead s := by
  simp only [ppuRegRead, ppuReg, h]

/-- The write-only registers (R322). -/
theorem ppuRegRead_writeOnly {a : Word} (s : State) (h : a.toNat % 8 ∈ [0, 1, 3, 5, 6]) :
    ppuRegRead a s = externalRead a s := by
  simp only [List.mem_cons, List.not_mem_nil, or_false] at h
  rcases h with h | h | h | h | h <;> simp only [ppuRegRead, ppuReg, h]

/-- A Data read changes `PPU.v` and at most the read buffer (R317). -/
theorem dataRead_state (s : State) :
    (dataRead s).2 = { s with ppu := { s.ppu with v := (dataRead s).2.ppu.v, buffer := (dataRead s).2.ppu.buffer } } := by
  unfold dataRead
  split <;> rfl

/-! The byte of a Status read (R313): three stored bits over the low five of another byte. -/

theorem getLsbD_bitByte (b : Bool) (i : Nat) : (bitByte b).getLsbD i = (decide (i = 0) && b) := by
  cases b <;> simp [bitByte]

/-- A flag shifted to bit `k` of a byte is that bit and no other. -/
theorem getLsbD_bitByte_shiftLeft (b : Bool) (k : Nat) {i : Nat} (hi : i < 8) :
    (bitByte b <<< k).getLsbD i = (decide (i = k) && b) := by
  rw [BitVec.getLsbD_shiftLeft, getLsbD_bitByte, decide_eq_true hi, Bool.true_and]
  by_cases hik : i < k
  · rw [decide_eq_true hik, decide_eq_false (Nat.ne_of_lt hik)]
    rfl
  · have same : decide (i - k = 0) = decide (i = k) := decide_eq_decide.2 (by omega)
    rw [decide_eq_false hik, same]
    rfl

theorem getLsbD_lowFive (b : Byte) (i : Nat) : (b &&& 0x1F).getLsbD i = (decide (i < 5) && b.getLsbD i) := by
  have mask : (0x1F : Byte) = (BitVec.allOnes 5).setWidth 8 := rfl
  rw [mask, BitVec.getLsbD_and, BitVec.getLsbD_setWidth, BitVec.getLsbD_allOnes]
  rcases Nat.lt_or_ge i 5 with h | h
  · simp [h, Nat.lt_trans h]
  · simp [Nat.not_lt.2 h]

theorem getLsbD_statusByte (ppu : Ppu) (low : Byte) {i : Nat} (hi : i < 8) : (statusByte ppu low).getLsbD i =
    ((decide (i = 7) && ppu.vblank) || (decide (i = 6) && ppu.spriteHitZero) ||
      (decide (i = 5) && ppu.spriteOverflow) || low.getLsbD i) := by
  simp only [statusByte, BitVec.getLsbD_or, getLsbD_bitByte_shiftLeft _ _ hi]

theorem getLsbD_statusByte_low (ppu : Ppu) (low : Byte) {i : Nat} (hi : i < 5) :
    (statusByte ppu low).getLsbD i = low.getLsbD i := by
  rw [getLsbD_statusByte ppu low (by omega), decide_eq_false (by omega), decide_eq_false (by omega),
    decide_eq_false (by omega)]
  simp only [Bool.false_and, Bool.false_or]

theorem statusByte_lowFive (ppu : Ppu) (low : Byte) : statusByte ppu low &&& 0x1F = low &&& 0x1F := by
  apply BitVec.eq_of_getLsbD_eq
  intro i _
  rw [getLsbD_lowFive, getLsbD_lowFive]
  by_cases hi : i < 5
  · rw [getLsbD_statusByte_low ppu low hi]
  · rw [decide_eq_false hi, Bool.false_and, Bool.false_and]

/-- The byte a Status read gives (R313, D20): the three stored bits over five bits of the oracle. -/
theorem statusRead_value (a : Word) (s : State) :
    (statusRead a s).1.getLsbD 7 = s.ppu.vblank ∧ (statusRead a s).1.getLsbD 6 = s.ppu.spriteHitZero ∧
      (statusRead a s).1.getLsbD 5 = s.ppu.spriteOverflow ∧
      ∀ i, i < 5 → (statusRead a s).1.getLsbD i = (externalByte a s).getLsbD i := by
  rw [statusRead]
  refine ⟨?_, ?_, ?_, fun i hi => ?_⟩
  · rw [getLsbD_statusByte _ _ (by decide), getLsbD_lowFive]
    simp
  · rw [getLsbD_statusByte _ _ (by decide), getLsbD_lowFive]
    simp
  · rw [getLsbD_statusByte _ _ (by decide), getLsbD_lowFive]
    simp
  · rw [getLsbD_statusByte_low _ _ hi, getLsbD_lowFive, decide_eq_true hi, Bool.true_and]

/-- What a Status read changes (R313, D46): it logs the five low bits of the byte it gives. -/
theorem statusRead_state (a : Word) (s : State) :
    (statusRead a s).2 = ((s.setReads (s.reads + 1)).emit (.portRead a ((statusRead a s).1 &&& 0x1F))).setPpu
      { s.ppu with vblank := false, addrLatch := .high, scrollLatch := .first } := by
  have hlow : (statusRead a s).1 &&& 0x1F = externalByte a s &&& 0x1F := by
    rw [statusRead, statusByte_lowFive, BitVec.and_assoc, BitVec.and_self]
  rw [hlow]
  rfl

/-- Settles O50: the address selects an owner and, in the PPU's range, a register; each clause is the lemma of that read. -/
theorem readSideEffects : Obligations.ReadSideEffects := by
  intro s a hbus v t inPpu
  have hppu : inPpu → memRead a s = ppuRegRead a s := fun h => memRead_ppu (by rw [hbus, ownerOf_nesMap_ppu h])
  refine ⟨fun ⟨h, hreg⟩ => ?_, fun ⟨h, hreg⟩ => ?_, fun ⟨h, hreg⟩ => ?_, fun h => ?_, fun h => ?_, fun h => ?_⟩
  · have hread : memRead a s = statusRead a s := (hppu h).trans (ppuRegRead_status s hreg)
    obtain ⟨hvblank, hhit, hoverflow, hlow⟩ := statusRead_value a s
    simp only [v, t, hread]
    exact ⟨hvblank, hhit, hoverflow, hlow, statusRead_state a s⟩
  · have hread : memRead a s = dataRead s := (hppu h).trans (ppuRegRead_data s hreg)
    simp only [t, hread]
    exact dataRead_state s
  · exact (hppu h).trans (ppuRegRead_oamData s hreg)
  · rcases h with ⟨h, hreg⟩ | h
    · exact (hppu h).trans (ppuRegRead_writeOnly s hreg)
    · exact memRead_port hbus h
  · exact memRead_unmapped (by rw [hbus, ownerOf_nesMap_unmapped h])
  · exact (peek_memRead (placeable_of_range s.cfg.bus a h)).symm

end Sys2Proof.Machine
end

section
/-! PROOFS of the statements about the encoding (30_encoding.md): the opcode map against the rules' "Encoding" lists, decode and
encode, lengths, base costs, and the step as fetch, decode and execution. -/

namespace Sys2Proof.Machine

open Sys2Proof.Laws

/-! Words and their two bytes. -/

@[simp] theorem loByte_mkWord (hi lo : Byte) : loByte (mkWord hi lo) = lo := BitVec.extractLsb'_append_eq_right

@[simp] theorem hiByte_mkWord (hi lo : Byte) : hiByte (mkWord hi lo) = hi := BitVec.extractLsb'_append_eq_left

/-! From the map to the rules: what a row builds has the row's opcode byte, operand bytes and cost (R103). -/

/-- The operand bytes of a mode (R100) made from bytes 1 and 2, through the operand that R102 assembles from them. -/
def modeBytes (b1 b2 : Byte) : Mode → List Byte
  | .implied => []
  | .accumulator => []
  | .immediate => [b1]
  | .mem m => (m.operand b1 b2).bytes
  | .relative => [b1]
  | .jumpIndirect => (JumpOperand.ind (mkWord b2 b1)).bytes

/-- Assembling an operand from its bytes and taking it apart again gives as many of them as the mode has. -/
theorem modeBytes_eq_take (b1 b2 : Byte) (mode : Mode) : modeBytes b1 b2 mode = [b1, b2].take mode.operandBytes := by
  cases mode with
  | mem m => cases m <;> simp [modeBytes, MemMode.operand, MemOperand.bytes, Mode.operandBytes, MemMode.operandBytes]
  | jumpIndirect => simp [modeBytes, JumpOperand.bytes, Mode.operandBytes]
  | _ => rfl

/-- The map against the rules' lists, cell by cell: what row `high` and column `low` build has the opcode byte `high:low`. -/
theorem opcodeMap_opcodes (b1 b2 : Byte) :
    opcodeMap.map (·.map fun row => opcodeOf (row.build b1 b2)) =
      (List.range 16).map fun high => (List.range 16).map fun low => some (BitVec.ofNat 8 (16 * high + low)) := rfl

theorem opcodeMap_operands (b1 b2 : Byte) :
    opcodeMap.map (·.map fun row => operandBytesOf (row.build b1 b2)) =
      opcodeMap.map (·.map fun row => modeBytes b1 b2 row.mode) := rfl

/-- The map against the cost table of R410, cell by cell. -/
theorem opcodeMap_costs (b1 b2 : Byte) :
    opcodeMap.map (·.map fun row => tableCost (row.build b1 b2)) = opcodeMap.map (·.map fun row => row.cycles) := rfl

/-- A property of the whole map, read at the cell of an opcode byte. -/
theorem opcodeRow_map {α : Type} (f : Row → α) (op : Byte) :
    (opcodeRow op).map f = (opcodeMap.map (·.map f))[op.toNat / 16]?.bind (·[op.toNat % 16]?) := by
  rw [opcodeRow, List.getElem?_map]
  cases opcodeMap[op.toNat / 16]? with
  | none => rfl
  | some cells => exact List.getElem?_map.symm

theorem map_opcodeRow_congr {α : Type} {f g : Row → α} (h : opcodeMap.map (·.map f) = opcodeMap.map (·.map g)) {op : Byte}
    {row : Row} (hrow : opcodeRow op = some row) : f row = g row := by
  have hcell : (opcodeRow op).map f = (opcodeRow op).map g := by rw [opcodeRow_map, opcodeRow_map, h]
  rw [hrow] at hcell
  exact Option.some.inj hcell

section
variable {op : Byte} {row : Row} (hrow : opcodeRow op = some row) (b1 b2 : Byte)
include hrow

theorem opcodeOf_build : opcodeOf (row.build b1 b2) = some op := by
  have hlt : op.toNat / 16 < 16 := by have := op.isLt; omega
  have hnibbles : 16 * (op.toNat / 16) + op.toNat % 16 = op.toNat := Nat.div_add_mod _ _
  have hcell := opcodeRow_map (fun row => opcodeOf (row.build b1 b2)) op
  rw [opcodeMap_opcodes, List.getElem?_map, List.getElem?_range hlt, Option.map_some, Option.bind_some, List.getElem?_map,
    List.getElem?_range (Nat.mod_lt _ (by decide)), Option.map_some, hnibbles, BitVec.ofNat_toNat, BitVec.setWidth_eq,
    hrow] at hcell
  exact Option.some.inj hcell

theorem operandBytesOf_build : operandBytesOf (row.build b1 b2) = [b1, b2].take row.mode.operandBytes :=
  (map_opcodeRow_congr (opcodeMap_operands b1 b2) hrow).trans (modeBytes_eq_take b1 b2 row.mode)

theorem tableCost_build : tableCost (row.build b1 b2) = row.cycles :=
  map_opcodeRow_congr (opcodeMap_costs b1 b2) hrow

end

/-! The instruction a row makes from a list of operand bytes. -/

/-- The instruction of a row and its operand bytes; a byte the mode has not is 0, and the row does not look at it. -/
def instrOf (row : Row) (operands : List Byte) : Instr := row.build (operands.getD 0 0) (operands.getD 1 0)

/-- At most two bytes are the ones at places 0 and 1. -/
theorem take_getD_eq {operands : List Byte} (h : operands.length ≤ 2) :
    [operands.getD 0 0, operands.getD 1 0].take operands.length = operands :=
  match operands, h with
  | [], _ => rfl
  | [_], _ => rfl
  | [_, _], _ => rfl

section
variable {op : Byte} {row : Row} {operands : List Byte} (hrow : opcodeRow op = some row)
  (hlen : operands.length = row.mode.operandBytes)
include hrow

theorem operandCount_eq : operandCount op = row.mode.operandBytes := by rw [operandCount, hrow]

theorem baseCycles_eq : baseCycles op = row.cycles := by rw [baseCycles, hrow]

include hlen

theorem operandBytesOf_instrOf : operandBytesOf (instrOf row operands) = operands := by
  rw [instrOf, operandBytesOf_build hrow, ← hlen]
  exact take_getD_eq (hlen ▸ operandBytes_le row.mode)

theorem encode_instrOf : encode (instrOf row operands) = op :: operands := by
  have hop : opcodeOf (instrOf row operands) = some op := opcodeOf_build hrow _ _
  rw [encode, hop, operandBytesOf_instrOf hrow hlen]

theorem decode_instrOf (rest : List Byte) :
    decode (op :: (operands ++ rest)) = .ok (instrOf row operands, rest) := by
  have hle := operandBytes_le row.mode
  simp only [decode, hrow, ← hlen] at hle ⊢
  match operands, hle with
  | [], _ => rfl
  | [_], _ => rfl
  | [_, _], _ => rfl

end

/-- Too few bytes after the opcode byte do not decode. -/
theorem decode_of_lt {op : Byte} {bytes : List Byte} (h : bytes.length < operandCount op) :
    decode (op :: bytes) = .error (.truncated op) := by
  obtain ⟨row, hrow⟩ := opcodeRow_total op
  have hle := operandBytes_le row.mode
  rw [operandCount_eq hrow] at h
  simp only [decode, hrow]
  generalize row.mode.operandBytes = n at h hle ⊢
  match n, bytes, h, hle with
  | 1, [], _, _ => rfl
  | 2, [], _, _ => rfl
  | 2, [_], _, _ => rfl

/-- Enough bytes after the opcode byte decode: the first ones are the operand, the others are left (R101). -/
theorem decode_of_le {op : Byte} {bytes : List Byte} (h : operandCount op ≤ bytes.length) :
    ∃ row, opcodeRow op = some row ∧ (bytes.take (operandCount op)).length = row.mode.operandBytes ∧
      decode (op :: bytes) = .ok (instrOf row (bytes.take (operandCount op)), bytes.drop (operandCount op)) := by
  obtain ⟨row, hrow⟩ := opcodeRow_total op
  have hlen : (bytes.take (operandCount op)).length = row.mode.operandBytes := by
    rw [List.length_take, Nat.min_eq_left h, operandCount_eq hrow]
  refine ⟨row, hrow, hlen, ?_⟩
  rw [← decode_instrOf hrow hlen, List.take_append_drop]

/-- The one way to decode: by the row of the first byte, with as many operand bytes as its mode has. -/
theorem decode_ok {op : Byte} {bytes rest : List Byte} {i : Instr} (h : decode (op :: bytes) = .ok (i, rest)) :
    ∃ row, opcodeRow op = some row ∧ (bytes.take (operandCount op)).length = row.mode.operandBytes ∧
      i = instrOf row (bytes.take (operandCount op)) ∧ rest = bytes.drop (operandCount op) := by
  rcases Nat.lt_or_ge bytes.length (operandCount op) with hlt | hle
  · rw [decode_of_lt hlt] at h
    cases h
  · obtain ⟨row, hrow, hlen, hdecode⟩ := decode_of_le hle
    rw [hdecode] at h
    cases h
    exact ⟨row, hrow, hlen, rfl, rfl⟩

/-- Settles O6: what is decoded is what a row makes from the bytes read, and such an instruction encodes as the row's opcode
byte and those bytes. -/
theorem encodeOfDecode : Obligations.EncodeOfDecode := by
  intro bytes i rest h
  refine ⟨decode_formed h, ?_⟩
  cases bytes with
  | nil => cases h
  | cons op bytes =>
    obtain ⟨row, hrow, hlen, rfl, rfl⟩ := decode_ok h
    rw [encode_instrOf hrow hlen, List.cons_append, List.take_append_drop]

/-! From the rules to the map: the row of an instruction's opcode byte makes it from its operand bytes. -/

/-- The row of an opcode byte makes the instruction from the instruction's own operand bytes. -/
def RowMakes (op : Byte) (i : Instr) : Prop := (opcodeRow op).map (instrOf · (operandBytesOf i)) = some i

/-- A memory operand is what its mode assembles from its bytes (R102). -/
theorem operand_bytes (m : MemOperand) : m.mode.operand (m.bytes.getD 0 0) (m.bytes.getD 1 0) = m := by
  cases m <;> simp [MemOperand.mode, MemMode.operand, MemOperand.bytes]

/-- A row makes what its cell builds from the instruction's own bytes. -/
theorem rowMakes_of_build {op : Byte} {i : Instr} {build : Byte → Byte → Instr}
    (hbuild : (opcodeRow op).map Row.build = some build)
    (hmade : build ((operandBytesOf i).getD 0 0) ((operandBytesOf i).getD 1 0) = i) : RowMakes op i := by
  obtain ⟨row, hrow, rfl⟩ := Option.map_eq_some_iff.1 hbuild
  rw [RowMakes, hrow]
  exact congrArg some hmade

/-- The cell of each byte of a list, from the cells of the whole list. -/
theorem build_of_mem {opcodes : List Byte} {build : Byte → Byte → Byte → Instr} {op : Byte}
    (hmap : opcodes.map (fun op => (opcodeRow op).map Row.build) = opcodes.map fun op => some (build op))
    (hop : op ∈ opcodes) : (opcodeRow op).map Row.build = some (build op) :=
  List.map_inj_left.1 hmap op hop

/-- An operation with a list of encodings: if the map builds it at each byte of the list, with the mode listed beside the
byte, then the row of its opcode byte makes it. -/
theorem rowMakes_mem {f : MemOperand → Instr} {encodings : List (MemMode × Byte)} {m : MemOperand} {op : Byte}
    (h : opcodeIn encodings m.mode = some op) (hbytes : operandBytesOf (f m) = m.bytes)
    (hmap : encodings.map (fun e => (opcodeRow e.2).map Row.build) =
      encodings.map fun e => some fun b1 b2 => f (e.1.operand b1 b2)) : RowMakes op (f m) := by
  have hmem : (m.mode, op) ∈ encodings := by
    obtain ⟨before, after, rfl, -⟩ := List.lookup_eq_some_iff.1 h
    exact List.mem_append_cons_self
  refine rowMakes_of_build (List.map_inj_left.1 hmap _ hmem) ?_
  rw [hbytes, operand_bytes]

/-- An operation with an immediate form and a list of encodings. -/
theorem rowMakes_read {f : ReadOperand → Instr} {opImm : Byte} {encodings : List (MemMode × Byte)} {o : ReadOperand}
    {op : Byte} (h : opcodeOf (f o) = some op) (himm : ∀ b, opcodeOf (f (.imm b)) = some opImm)
    (hmem : ∀ m, opcodeOf (f (.mem m)) = opcodeIn encodings m.mode) (hbytes : operandBytesOf (f o) = o.bytes)
    (hrow : (opcodeRow opImm).map Row.build = some fun b1 _ => f (.imm b1))
    (hmap : encodings.map (fun e => (opcodeRow e.2).map Row.build) =
      encodings.map fun e => some fun b1 b2 => f (.mem (e.1.operand b1 b2))) : RowMakes op (f o) := by
  cases o with
  | imm b =>
    obtain rfl : opImm = op := Option.some.inj ((himm b).symm.trans h)
    refine rowMakes_of_build hrow ?_
    rw [hbytes]
    rfl
  | mem m => exact rowMakes_mem (f := fun m => f (.mem m)) ((hmem m).symm.trans h) hbytes hmap

/-- An operation with an accumulator form and a list of encodings. -/
theorem rowMakes_shift {f : ShiftOperand → Instr} {opAcc : Byte} {encodings : List (MemMode × Byte)} {o : ShiftOperand}
    {op : Byte} (h : opcodeOf (f o) = some op) (hacc : opcodeOf (f .acc) = some opAcc)
    (hmem : ∀ m, opcodeOf (f (.mem m)) = opcodeIn encodings m.mode) (hbytes : operandBytesOf (f o) = o.bytes)
    (hrow : (opcodeRow opAcc).map Row.build = some fun _ _ => f .acc)
    (hmap : encodings.map (fun e => (opcodeRow e.2).map Row.build) =
      encodings.map fun e => some fun b1 b2 => f (.mem (e.1.operand b1 b2))) : RowMakes op (f o) := by
  cases o with
  | acc =>
    obtain rfl : opAcc = op := Option.some.inj (hacc.symm.trans h)
    exact rowMakes_of_build hrow rfl
  | mem m => exact rowMakes_mem (f := fun m => f (.mem m)) ((hmem m).symm.trans h) hbytes hmap

/-- An operation whose operand is a 16-bit address. -/
theorem rowMakes_word {f : Word → Instr} {w : Word} {op : Byte} (hbytes : operandBytesOf (f w) = [loByte w, hiByte w])
    (hrow : (opcodeRow op).map Row.build = some fun b1 b2 => f (mkWord b2 b1)) : RowMakes op (f w) := by
  refine rowMakes_of_build hrow ?_
  rw [hbytes]
  exact congrArg f (mkWord_hiByte_loByte w)

theorem rowMakes_anc {op : Byte} (b : Byte) (h : op = 0x0B ∨ op = 0x2B) : RowMakes op (.anc op b) := by
  rcases h with rfl | rfl <;> rfl

theorem rowMakes_jam {op : Byte} (h : op ∈ jamOpcodes) : RowMakes op (.jam op) :=
  rowMakes_of_build (build := fun _ _ => .jam op) (build_of_mem (build := fun op _ _ => .jam op) rfl h) rfl

theorem rowMakes_nopU {op : Byte} {o : NopOperand} (h : op ∈ nopOpcodes o) : RowMakes op (.nopU op o) := by
  cases o with
  | implied => exact rowMakes_of_build (build_of_mem (build := fun op _ _ => .nopU op .implied) rfl h) rfl
  | imm b => exact rowMakes_of_build (build_of_mem (build := fun op b1 _ => .nopU op (.imm b1)) rfl h) rfl
  | mem m =>
    have hbuild : (opcodeRow op).map Row.build = some fun b1 b2 => .nopU op (.mem (m.mode.operand b1 b2)) := by
      refine build_of_mem (build := fun op b1 b2 => .nopU op (.mem (m.mode.operand b1 b2))) ?_ h
      cases m <;> rfl
    exact rowMakes_of_build hbuild (congrArg (fun m => Instr.nopU op (.mem m)) (operand_bytes m))

/-- The rules' lists against the map: the row of the byte that an instruction's rule gives makes the instruction. The last
`rfl` of each case evaluates the map at the bytes of that rule's list. -/
theorem rowMakes_of_opcodeOf {i : Instr} {op : Byte} (h : opcodeOf i = some op) : RowMakes op i := by
  cases i with
  | jam op' =>
    obtain ⟨hop, heq⟩ := Option.ite_none_right_eq_some.1 h
    cases heq
    exact rowMakes_jam (List.contains_iff_mem.1 hop)
  | nopU op' o =>
    obtain ⟨hop, heq⟩ := Option.ite_none_right_eq_some.1 h
    cases heq
    exact rowMakes_nopU (List.contains_iff_mem.1 hop)
  | anc op' b =>
    obtain ⟨hop, heq⟩ := Option.ite_none_right_eq_some.1 h
    cases heq
    exact rowMakes_anc b (by simpa using hop)
  | jmp o =>
    cases o with
    | abs w => cases h; exact rowMakes_word (f := fun w => .jmp (.abs w)) rfl rfl
    | ind w => cases h; exact rowMakes_word (f := fun w => .jmp (.ind w)) rfl rfl
  | lda o => exact rowMakes_read h (fun _ => rfl) (fun _ => rfl) rfl rfl rfl
  | ldx o => exact rowMakes_read h (fun _ => rfl) (fun _ => rfl) rfl rfl rfl
  | ldy o => exact rowMakes_read h (fun _ => rfl) (fun _ => rfl) rfl rfl rfl
  | adc o => exact rowMakes_read h (fun _ => rfl) (fun _ => rfl) rfl rfl rfl
  | sbc o => exact rowMakes_read h (fun _ => rfl) (fun _ => rfl) rfl rfl rfl
  | and o => exact rowMakes_read h (fun _ => rfl) (fun _ => rfl) rfl rfl rfl
  | ora o => exact rowMakes_read h (fun _ => rfl) (fun _ => rfl) rfl rfl rfl
  | eor o => exact rowMakes_read h (fun _ => rfl) (fun _ => rfl) rfl rfl rfl
  | cmp o => exact rowMakes_read h (fun _ => rfl) (fun _ => rfl) rfl rfl rfl
  | cpx o => exact rowMakes_read h (fun _ => rfl) (fun _ => rfl) rfl rfl rfl
  | cpy o => exact rowMakes_read h (fun _ => rfl) (fun _ => rfl) rfl rfl rfl
  | asl o => exact rowMakes_shift h rfl (fun _ => rfl) rfl rfl rfl
  | lsr o => exact rowMakes_shift h rfl (fun _ => rfl) rfl rfl rfl
  | rol o => exact rowMakes_shift h rfl (fun _ => rfl) rfl rfl rfl
  | ror o => exact rowMakes_shift h rfl (fun _ => rfl) rfl rfl rfl
  | sta m => exact rowMakes_mem h rfl rfl
  | stx m => exact rowMakes_mem h rfl rfl
  | sty m => exact rowMakes_mem h rfl rfl
  | bit m => exact rowMakes_mem h rfl rfl
  | inc m => exact rowMakes_mem h rfl rfl
  | dec m => exact rowMakes_mem h rfl rfl
  | slo m => exact rowMakes_mem h rfl rfl
  | rla m => exact rowMakes_mem h rfl rfl
  | sre m => exact rowMakes_mem h rfl rfl
  | rra m => exact rowMakes_mem h rfl rfl
  | dcp m => exact rowMakes_mem h rfl rfl
  | isc m => exact rowMakes_mem h rfl rfl
  | sax m => exact rowMakes_mem h rfl rfl
  | lax m => exact rowMakes_mem h rfl rfl
  | sha m => exact rowMakes_mem h rfl rfl
  | jsr w => cases h; exact rowMakes_word rfl rfl
  | las w => cases h; exact rowMakes_word rfl rfl
  | shx w => cases h; exact rowMakes_word rfl rfl
  | shy w => cases h; exact rowMakes_word rfl rfl
  | tas w => cases h; exact rowMakes_word rfl rfl
  | _ => cases h; rfl

/-- Each well-formed instruction is made by one row, from as many operand bytes as the row's mode has. -/
theorem row_of_opcodeOf {i : Instr} {op : Byte} (h : opcodeOf i = some op) :
    ∃ row, opcodeRow op = some row ∧ (operandBytesOf i).length = row.mode.operandBytes ∧
      instrOf row (operandBytesOf i) = i := by
  obtain ⟨row, hrow, hmade⟩ := Option.map_eq_some_iff.1 (rowMakes_of_opcodeOf h)
  have hbytes := operandBytesOf_build hrow ((operandBytesOf i).getD 0 0) ((operandBytesOf i).getD 1 0)
  rw [← instrOf, hmade] at hbytes
  refine ⟨row, hrow, ?_, hmade⟩
  rw [hbytes, List.length_take]
  exact Nat.min_eq_left (operandBytes_le row.mode)

theorem encode_of_opcodeOf {i : Instr} {op : Byte} (h : opcodeOf i = some op) : encode i = op :: operandBytesOf i := by
  rw [encode, h]

theorem operandBytesOf_length {i : Instr} {op : Byte} (h : opcodeOf i = some op) :
    (operandBytesOf i).length = operandCount op := by
  obtain ⟨row, hrow, hlen, -⟩ := row_of_opcodeOf h
  rw [hlen, operandCount_eq hrow]

theorem decode_operandBytesOf {i : Instr} {op : Byte} (h : opcodeOf i = some op) (rest : List Byte) :
    decode (op :: (operandBytesOf i ++ rest)) = .ok (i, rest) := by
  obtain ⟨row, hrow, hlen, hmade⟩ := row_of_opcodeOf h
  rw [decode_instrOf hrow hlen, hmade]

/-- Settles O5: a well-formed instruction has an opcode byte, and the row of that byte makes it from its operand bytes. -/
theorem decodeOfEncode : Obligations.DecodeOfEncode := by
  intro i rest hformed
  obtain ⟨op, hop⟩ := Option.isSome_iff_exists.1 ((opcodeOf_isSome i).trans hformed)
  rw [encode_of_opcodeOf hop]
  exact decode_operandBytesOf hop rest

/-! Totality, lengths and costs. -/

theorem operandCount_le (op : Byte) : operandCount op ≤ 2 := by
  obtain ⟨row, hrow⟩ := opcodeRow_total op
  rw [operandCount_eq hrow]
  exact operandBytes_le row.mode

/-- Settles O7: two bytes are enough for every opcode byte; the classes are counted over the map. -/
theorem decodingIsTotal : Obligations.DecodingIsTotal := by
  refine ⟨fun op b1 b2 rest => ?_, rfl, rfl, rfl, rfl⟩
  have hle := operandCount_le op
  obtain ⟨row, -, -, hdecode⟩ :=
    decode_of_le (op := op) (bytes := [b1, b2] ++ rest) (Nat.le_trans hle (Nat.le_add_left 2 rest.length))
  rw [List.drop_append_of_le_length hle] at hdecode
  exact ⟨_, decode_formed hdecode, hdecode⟩

theorem operandCount_jam : ∀ op ∈ jamOpcodes, operandCount op = 0 := by decide

/-- Settles O9: the bytes read and the failure are those of `decode_of_le` and `decode_of_lt`, which ask for the opcode byte's
operand count only. -/
theorem lengthIsFixedByOpcode : Obligations.LengthIsFixedByOpcode := by
  refine ⟨fun i op hop => ?_, fun op bytes => ⟨fun hlt => ⟨_, decode_of_lt hlt⟩, fun ⟨e, herror⟩ => ?_⟩,
    fun op bytes i rest hdecode => ?_, fun op => ?_⟩
  · refine ⟨encode_of_opcodeOf hop, ?_, operandCount_le op⟩
    rw [encode_of_opcodeOf hop, List.length_cons, operandBytesOf_length hop, Nat.add_comm]
  · refine Nat.lt_of_not_le fun hle => ?_
    obtain ⟨row, -, -, hdecode⟩ := decode_of_le hle
    rw [herror] at hdecode
    cases hdecode
  · obtain ⟨row, -, -, -, hrest⟩ := decode_ok hdecode
    exact hrest
  · by_cases hjam : op ∈ jamOpcodes
    · exact .inl (operandCount_jam op hjam)
    · exact .inr hjam

/-- Settles O10: the row of the opcode byte makes the instruction, and each cell of the map has the table's cost. -/
theorem baseCyclesFollowTheModeTable : Obligations.BaseCyclesFollowTheModeTable := by
  intro i op hop
  obtain ⟨row, hrow, -, hmade⟩ := row_of_opcodeOf hop
  rw [baseCycles_eq hrow, ← hmade]
  exact (tableCost_build hrow _ _).symm

/-- Settles O8: each word is evaluated. -/
theorem sampleWordsDecode : Obligations.SampleWordsDecode :=
  ⟨rfl, rfl, rfl, rfl, rfl, rfl, rfl, rfl, rfl, rfl, rfl, rfl, rfl, rfl, rfl, rfl, rfl⟩

/-! The step (R112). -/

/-- Settles O12: a tick is made of parts that complete, and an instruction's outcome depends on its form only. -/
theorem everyTickCompletes : Obligations.EveryTickCompletes := by
  refine ⟨fun s => ?_, fun i s => ⟨fun h => exec_completes h s, fun h => exec_illFormed h s⟩⟩
  obtain ⟨i, t, -, -, -, hstep⟩ := step_eq s
  exact ⟨_, hstep⟩

/-- The bytes of memory from an address on, up to the end of the list. -/
def BytesAt (a : Word) (bytes : List Byte) (s : State) : Prop :=
  ∀ (k : Nat) (b : Byte), bytes[k]? = some b → peek (a + BitVec.ofNat 16 k) s = some b

theorem add_ofNat_succ (a : Word) (k : Nat) : a + BitVec.ofNat 16 (k + 1) = a + 1 + BitVec.ofNat 16 k := by
  rw [BitVec.ofNat_add, BitVec.add_comm (BitVec.ofNat 16 k), ← BitVec.add_assoc]
  rfl

theorem BytesAt.uncons {a : Word} {b : Byte} {bytes : List Byte} {s : State} (h : BytesAt a (b :: bytes) s) :
    peek a s = some b ∧ BytesAt (a + 1) bytes s := by
  refine ⟨?_, fun k c hc => ?_⟩
  · simpa using h 0 b rfl
  · rw [← add_ofNat_succ]
    exact h (k + 1) c hc

/-- Bytes of memory are fetched in order, and PC moves past them; nothing else changes (R90, R130). -/
theorem fetchBytes_of_bytesAt {a : Word} {bytes : List Byte} {s : State} (h : BytesAt a bytes s) :
    fetchBytes bytes.length (s.setPc a) = (bytes, s.setPc (a + BitVec.ofNat 16 bytes.length)) := by
  induction bytes generalizing a with
  | nil => simp [fetchBytes]
  | cons b bytes ih =>
    obtain ⟨hfirst, hrest⟩ := h.uncons
    simp only [List.length_cons, fetchBytes, fetch_of_peek hfirst, ih hrest, add_ofNat_succ]

/-- An instruction whose bytes lie in memory at PC is what is fetched there. -/
theorem fetchInstr_of_bytesAt {i : Instr} {op : Byte} {s : State} (hop : opcodeOf i = some op)
    (h : BytesAt s.pc (encode i) s) :
    fetchInstr s = (op, .ok (i, []), s.setPc (s.pc + BitVec.ofNat 16 (encode i).length)) := by
  rw [encode_of_opcodeOf hop] at h ⊢
  obtain ⟨hfirst, hrest⟩ := h.uncons
  have hfetch : fetch s = (op, s.setPc (s.pc + 1)) := fetch_of_peek hfirst
  have hdecode : decode (op :: operandBytesOf i) = .ok (i, []) := by
    rw [← decode_operandBytesOf hop, List.append_nil]
  simp only [fetchInstr, hfetch, ← operandBytesOf_length hop, fetchBytes_of_bytesAt hrest, hdecode, List.length_cons,
    add_ofNat_succ]

theorem pollInterrupts_idle {s : State} (hnmi : s.ppu.nmiPending = false) (hirq : s.irqLine = false) :
    pollInterrupts s = s := by
  simp [pollInterrupts, hnmi, hirq]

/-- Settles O11: the fetch gives the instruction at PC, and the tick executes it and pays its accounts. -/
theorem stepRunsDecodedInstruction : Obligations.StepRunsDecodedInstruction := by
  refine ⟨fun s i op hop hbytes => ?_, fun s hnmi hirq => by rw [tickStart, pollInterrupts_idle hnmi hirq]⟩
  simp only [step, fetchInstr_of_bytesAt hop hbytes, runFetched]
  cases exec i ((tickStart s).setPc ((tickStart s).pc + BitVec.ofNat 16 (encode i).length)) <;> rfl

end Sys2Proof.Machine
end

section
/-! PROOFS of the statements about addressing, loads, stores and transfers (40_addressing_load_store.md): effective addresses,
the page-cross cycle, and what each instruction writes. -/

namespace Sys2Proof.Machine

open Sys2Proof.Laws

/-! Effective addresses (R134 to R141). -/

/-- A zero-page address written as the number its byte has. -/
theorem zext16_eq_ofNat {b : Byte} {n : Nat} (h : b.toNat = n) : zext16 b = BitVec.ofNat 16 n := by
  rw [← h, BitVec.ofNat_toNat, zext16]

/-- A zero-page pointer is the word of two bytes of memory, the low byte first, the second one wrapped in page 0. -/
theorem zeroPagePointer_value (z : Byte) (s : State) :
    ∃ lo hi, peek (zext16 z) s = some lo ∧ peek (zext16 (z + 1)) s = some hi ∧
      (zeroPagePointer z s).1 = mkWord hi lo := by
  obtain ⟨hlo, -⟩ := peek_memRead (s := s) (placeable_zeroPage _ z)
  obtain ⟨hhi, -⟩ := peek_memRead (s := s) (placeable_zeroPage _ (z + 1))
  exact ⟨_, _, hlo, hhi, by rw [zeroPagePointer_of_peek hlo hhi]⟩

theorem mkWord_toNat (hi lo : Byte) : (mkWord hi lo).toNat = hi.toNat * 256 + lo.toNat := by
  rw [BitVec.toNat_append, ← Nat.shiftLeft_add_eq_or_of_lt lo.isLt, Nat.shiftLeft_eq]

/-- An indexed address is the sum modulo 2^16 (D12). -/
theorem indexed_ea_toNat (base : Word) (index : Byte) (s : State) :
    (indexed base index s).ea.toNat = (base.toNat + index.toNat) % 0x10000 := by
  rw [indexed, BitVec.toNat_add, zext16_toNat]

/-- Settles O46: the zero-page modes extend a byte, the indexed ones are `indexed_ea_toNat`, and the pointers lie in the zero
page, which is memory. -/
theorem effectiveAddresses : Obligations.EffectiveAddresses := by
  intro s z w
  refine ⟨zext16_toNat z, ?_, ?_, rfl, indexed_ea_toNat w s.x s, indexed_ea_toNat w s.y s, ?_, ?_,
    fun m => resolve_state m s⟩
  · exact (zext16_toNat _).trans (BitVec.toNat_add z s.x)
  · exact (zext16_toNat _).trans (BitVec.toNat_add z s.y)
  · obtain ⟨lo, hi, hlo, hhi, hptr⟩ := zeroPagePointer_value (z + s.x) s
    have second : (z + s.x + 1).toNat = (z.toNat + s.x.toNat + 1) % 256 := by simp [BitVec.toNat_add]
    exact ⟨lo, hi, zext16_eq_ofNat (BitVec.toNat_add z s.x) ▸ hlo, zext16_eq_ofNat second ▸ hhi, hptr⟩
  · obtain ⟨lo, hi, hlo, hhi, hptr⟩ := zeroPagePointer_value z s
    refine ⟨lo, hi, zext16_eq_ofNat rfl ▸ hlo, zext16_eq_ofNat (BitVec.toNat_add z 1) ▸ hhi, ?_⟩
    rw [← mkWord_toNat, ← hptr]
    exact indexed_ea_toNat _ s.y _

/-! The page-cross cycle (R144). -/

/-- The operand read of an indexed address: one more extra cycle if it lies on another page than its base. -/
theorem readMem_of_indexed {m : MemOperand} {s : State} {base : Word} {index : Byte}
    (h : resolve m s = indexed base index s) : readMem m s = memRead (base + zext16 index)
      (if hiByte base = hiByte (base + zext16 index) then s else { s with extra := s.extra + 1 }) := by
  rw [readMem, h, payCrossing]
  congr 1
  by_cases hpage : hiByte base = hiByte (base + zext16 index)
  · simp [indexed, pageCrossed, hpage]
  · simp [indexed, pageCrossed, hpage, State.setExtra]

/-- The operand read of an address that no indexing moves to another page pays nothing. -/
theorem readMem_of_not_crossed {m : MemOperand} {s : State} (h : (resolve m s).crossed = false) :
    readMem m s = memRead (resolve m s).ea s := by
  rw [readMem_eq, h]
  rfl

theorem resolve_indY_of_peek {z : Byte} {base : Word} {s : State} (hlo : peek (zext16 z) s = some (loByte base))
    (hhi : peek (zext16 (z + 1)) s = some (hiByte base)) : resolve (.indY z) s = indexed base s.y s := by
  rw [resolve, zeroPagePointer_of_peek hlo hhi, mkWord_hiByte_loByte]

@[simp] theorem shaBase_state (m : MemOperand) (s : State) : (shaBase m s).2 = s := by
  cases m with
  | indY z => exact zeroPagePointer_state z s
  | absY w => rfl
  | _ => exact resolve_state _ s

@[simp] theorem storeEA_extra (m : MemOperand) (v : Byte) (s : State) : (storeEA m v s).extra = s.extra :=
  (storeEA_effect m s v).extra

@[simp] theorem modifyMem_extra (m : MemOperand) (f : Byte → Byte) (s : State) : (modifyMem m f s).extra = s.extra :=
  (modifyMem_effect m s f).extra

@[simp] theorem unstableStore_extra (base : Word) (index value : Byte) (s : State) :
    (unstableStore base index value s).extra = s.extra :=
  (memWrite_effect _ _ s).extra

/-- The next state of an instruction with several forms has the extra cycles its meaning leaves. -/
theorem extra_of_ifFormed {i : Instr} {s n t : State} (h : ifFormed i s n = .next t) (hn : n.extra = s.extra) :
    t.extra = s.extra := by
  rw [← ifFormed_next h, hn]

/-- A store, or a read-modify-write of a memory operand, pays no cycle. -/
theorem memoryWrite_extra {i : Instr} {m : MemOperand} {s t : State}
    (hi : i ∈ [.sta m, .stx m, .sty m, .sax m, .sha m, .inc m, .dec m, .asl (.mem m), .lsr (.mem m), .rol (.mem m),
      .ror (.mem m), .slo m, .rla m, .sre m, .rra m, .dcp m, .isc m]) (h : exec i s = .next t) : t.extra = s.extra := by
  simp only [List.mem_cons, List.not_mem_nil, or_false] at hi
  rcases hi with rfl | rfl | rfl | rfl | rfl | rfl | rfl | rfl | rfl | rfl | rfl | rfl | rfl | rfl | rfl | rfl | rfl
  · exact extra_of_ifFormed h (storeEA_extra m _ s)
  · exact extra_of_ifFormed h (storeEA_extra m _ s)
  · exact extra_of_ifFormed h (storeEA_extra m _ s)
  · exact extra_of_ifFormed h (storeEA_extra m _ s)
  · exact extra_of_ifFormed h (by rw [unstableStore_extra, shaBase_state])
  all_goals exact extra_of_ifFormed h (modifyMem_extra m _ s)

/-- Settles O47: an indexed address is `indexed` of its base, every other mode crosses no page, and writes pay nothing. -/
theorem pageCrossCycle : Obligations.PageCrossCycle := by
  refine ⟨fun m s base index hm => readMem_of_indexed ?_, fun m s hmode => readMem_of_not_crossed ?_,
    fun i m s t hi h => memoryWrite_extra hi h, fun i w s t hi h => ?_⟩
  · rcases hm with ⟨rfl, rfl⟩ | ⟨rfl, rfl⟩ | ⟨z, rfl, rfl, hlo, hhi⟩
    · rfl
    · rfl
    · exact resolve_indY_of_peek hlo hhi
  · cases m with
    | absX w => simp [MemOperand.mode] at hmode
    | absY w => simp [MemOperand.mode] at hmode
    | indY z => simp [MemOperand.mode] at hmode
    | _ => rfl
  · simp only [List.mem_cons, List.not_mem_nil, or_false] at hi
    rcases hi with rfl | rfl | rfl <;> cases h <;> exact unstableStore_extra ..

/-! Encodings, from the rules' lists. -/

theorem encode_of_opcodeOf_none {i : Instr} (h : opcodeOf i = none) : encode i = [] := by
  rw [encode, h]

/-- An operation whose rule gives a memory operand the opcode byte of a list is encoded by exactly that list. -/
theorem encodesAs_of_opcodeIn {f : MemOperand → Instr} {encodings : List (MemMode × Byte)}
    (hop : ∀ m, opcodeOf (f m) = opcodeIn encodings m.mode) (hbytes : ∀ m, operandBytesOf (f m) = m.bytes) :
    EncodesAs f encodings := by
  intro m
  have hlookup : opcodeOf (f m) = encodings.lookup m.mode := hop m
  cases hm : encodings.lookup m.mode with
  | none => exact encode_of_opcodeOf_none (hlookup.trans hm)
  | some op => exact (encode_of_opcodeOf (hlookup.trans hm)).trans (congrArg (op :: ·) (hbytes m))

/-! Loads (R146 to R148, R248, R255). -/

/-- N and Z set after an operand read are over the flags before it, which the read keeps. -/
theorem setNZ_readM_from (v : Byte) (o : ReadOperand) (s : State) : NZFrom v s.p (setNZ v (readM o s).2.p) := by
  rw [readM_p]
  exact setNZ_from v s.p

/-- Settles O33: each load is its operand read, its destination and `setNZ`. -/
theorem loadEffect : Obligations.LoadEffect := by
  refine ⟨encodesAs_of_opcodeIn (fun _ => rfl) fun _ => rfl, encodesAs_of_opcodeIn (fun _ => rfl) fun _ => rfl,
    encodesAs_of_opcodeIn (fun _ => rfl) fun _ => rfl, encodesAs_of_opcodeIn (fun _ => rfl) fun _ => rfl,
    fun b => ⟨rfl, rfl, rfl⟩, fun w => rfl, rfl,
    fun o s => ⟨readM_kept o s, fun h => ?_, fun h => ?_, fun h => ?_⟩, fun m s h => ?_, fun w s => ?_⟩
  · exact ⟨_, ifFormed_of h _ _, setNZ_readM_from _ o s⟩
  · exact ⟨_, ifFormed_of h _ _, setNZ_readM_from _ o s⟩
  · exact ⟨_, ifFormed_of h _ _, setNZ_readM_from _ o s⟩
  · exact ⟨_, ifFormed_of h _ _, setNZ_readM_from _ (.mem m) s⟩
  · exact ⟨_, rfl, setNZ_readM_from _ (.mem (.absY w)) s⟩

/-! Stores (R149 to R151, R247). -/

/-- Settles O34: each store is `storeEA` of its register. -/
theorem storeEffect : Obligations.StoreEffect := by
  refine ⟨encodesAs_of_opcodeIn (fun _ => rfl) fun _ => rfl, encodesAs_of_opcodeIn (fun _ => rfl) fun _ => rfl,
    encodesAs_of_opcodeIn (fun _ => rfl) fun _ => rfl, encodesAs_of_opcodeIn (fun _ => rfl) fun _ => rfl,
    rfl, rfl, rfl, fun m s => ⟨fun h => ?_, fun h => ?_, fun h => ?_, fun h => ?_⟩⟩
  · exact ⟨_, ifFormed_of h _ _, storeEA_stored m s.a s⟩
  · exact ⟨_, ifFormed_of h _ _, storeEA_stored m s.x s⟩
  · exact ⟨_, ifFormed_of h _ _, storeEA_stored m s.y s⟩
  · exact ⟨_, ifFormed_of h _ _, storeEA_stored m (s.a &&& s.x) s⟩

/-! Transfers (R152 to R157). -/

/-- Settles O32: each transfer but TXS sets P by `setNZ` of the value it copies. -/
theorem transferEffect : Obligations.TransferEffect :=
  ⟨rfl, rfl, rfl, rfl, rfl, rfl, by decide, fun s => ⟨⟨_, rfl, setNZ_from s.a s.p⟩, ⟨_, rfl, setNZ_from s.a s.p⟩,
    ⟨_, rfl, setNZ_from s.x s.p⟩, ⟨_, rfl, setNZ_from s.y s.p⟩, ⟨_, rfl, setNZ_from s.sp s.p⟩, rfl⟩⟩

end Sys2Proof.Machine
end

