-- ==== Sys2Proof/Proofs/Stack.lean ====
section
/-! PROOFS of the statements about the stack (41_stack.md): the push and the pop, the word laws, and the four stack
instructions. -/

namespace Sys2Proof.Machine

open Sys2Proof.Laws

/-! Pushes and pops (R170 to R173). -/

/-- A push reaches the byte at its stack address only, so every other byte of the stack is as before. -/
theorem peek_push_other {sp : Byte} (v : Byte) {s : State} (h : sp ≠ s.sp) :
    peek (stackAddr sp) (push v s) = peek (stackAddr sp) s :=
  push_memory v s _ (.inr fun hcell => h (cellOf_stack_inj hcell))

/-- A further push adds the byte at its stack address to the bytes that may have changed. -/
theorem MemoryKeptButAll.after_push {ws : List Word} {s t : State} (hcfg : t.cfg = s.cfg) (h : MemoryKeptButAll ws s t)
    (v : Byte) : MemoryKeptButAll (ws ++ [stackAddr t.sp]) s (push v t) := by
  intro a ha
  have hpush : peek a (push v t) = peek a t := by
    apply push_memory v t
    rw [hcfg]
    exact ha.imp_right fun hall => hall _ (by simp)
  exact hpush.trans (h a (ha.imp_right fun hall w hw => hall w (by simp [hw])))

/-- A pop gives the byte above the stack pointer, and moves the stack pointer only. -/
theorem pop_peek (s : State) : ∃ b, peek (stackAddr (s.sp + 1)) s = some b ∧ pop s = (b, s.setSp (s.sp + 1)) :=
  ⟨_, pop_value s, pop_eq_of_peek (pop_value s)⟩

/-- A pop after a push gives the byte pushed, with the stack pointer as it was. -/
theorem pop_push (v : Byte) (s : State) : pop (push v s) = (v, (push v s).setSp s.sp) := by
  have hsp : (push v s).sp + 1 = s.sp := by rw [push_sp, BitVec.sub_add_cancel]
  have htop : peek (stackAddr ((push v s).sp + 1)) (push v s) = some v := by
    rw [hsp]
    exact peek_push v s
  rw [pop_eq_of_peek htop, hsp]

/-! Words on the stack (R172, R173, D42). -/

theorem pushWord_sp (w : Word) (s : State) : (pushWord w s).sp = s.sp - 1 - 1 := by
  rw [pushWord, push_sp, push_sp]

theorem peek_pushWord_low (w : Word) (s : State) : peek (stackAddr (s.sp - 1)) (pushWord w s) = some (loByte w) := by
  rw [pushWord, ← push_sp (hiByte w)]
  exact peek_push _ _

/-- The low byte's push leaves the high byte above it. -/
theorem peek_pushWord_high (w : Word) (s : State) : peek (stackAddr s.sp) (pushWord w s) = some (hiByte w) := by
  have hne : s.sp ≠ (push (hiByte w) s).sp := by
    rw [push_sp]
    bv_omega
  rw [pushWord, peek_push_other _ hne]
  exact peek_push _ _

theorem pushWord_memory (w : Word) (s : State) :
    MemoryKeptButAll [stackAddr s.sp, stackAddr (s.sp - 1)] s (pushWord w s) := by
  have none_pushed : MemoryKeptButAll [] s s := fun _ _ => rfl
  have high_pushed := none_pushed.after_push rfl (hiByte w)
  have both_pushed := high_pushed.after_push (push_cfg _ _) (loByte w)
  rw [push_sp] at both_pushed
  exact both_pushed

/-- A word popped after its push is that word, with the stack pointer as it was. -/
theorem popWord_pushWord (w : Word) (s : State) : popWord (pushWord w s) = (w, (pushWord w s).setSp s.sp) := by
  have hlow : (pushWord w s).sp + 1 = s.sp - 1 := by rw [pushWord_sp, BitVec.sub_add_cancel]
  have hhigh : (pushWord w s).sp + 2 = s.sp := by
    rw [pushWord_sp]
    bv_omega
  have hpop := popWord_eq_of_peek (s := pushWord w s) (hlow ▸ peek_pushWord_low w s) (hhigh ▸ peek_pushWord_high w s)
  rw [hpop, mkWord_hiByte_loByte, hhigh]

/-- Settles O30: `push_eq` with its two reads and frame, `pop_peek`, and the laws of a word, which is two pushes. -/
theorem stackPrimitives : Obligations.StackPrimitives :=
  ⟨fun v s => ⟨push_eq v s, peek_push v s, push_memory v s⟩, pop_peek,
    fun w s => ⟨peek_pushWord_high w s, peek_pushWord_low w s, pushWord_memory w s, popWord_pushWord w s⟩⟩

/-! The stack instructions (R174 to R177). -/

theorem exec_plp (s : State) : exec .plp s = .next ((pop s).2.setP (pulledStatus (pop s).1)) := rfl

theorem exec_pla (s : State) : exec .pla s = .next (setNZOf (pop s).1 ((pop s).2.setA (pop s).1)) := rfl

/-- B and U are written by the pull itself, so what the push made of them is lost. -/
theorem pulledStatus_softwareStatus (p : Byte) : pulledStatus (softwareStatus p) = pulledStatus p := by
  apply status_ext
  intro f
  cases f <;> simp

/-- Settles O31: PHA and PHP are a `push`, PLA and PLP are a `pop`, and PLP after PHP is `pop_push`. -/
theorem stackInstructionEffect : Obligations.StackInstructionEffect := by
  refine ⟨rfl, rfl, rfl, rfl, rfl, rfl, rfl, rfl,
    fun s => ⟨push s.a s, rfl, push_eq _ s, peek_push _ s, push_memory _ s⟩,
    fun s => ⟨push (softwareStatus s.p) s, rfl, push_eq _ s, peek_push _ s, push_memory _ s⟩,
    fun s => ?_, fun s => ?_, fun s => ⟨push (softwareStatus s.p) s, rfl, ?_⟩⟩
  · obtain ⟨b, hpeek, hpop⟩ := pop_peek s
    refine ⟨b, hpeek, ?_⟩
    rw [exec_plp, hpop]
    rfl
  · obtain ⟨b, hpeek, hpop⟩ := pop_peek s
    refine ⟨b, setNZ b s.p, hpeek, ?_, setNZ_from b s.p⟩
    rw [exec_pla, hpop]
    rfl
  · rw [exec_plp, pop_push, pulledStatus_softwareStatus]
    rfl

end Sys2Proof.Machine
end

