-- ==== Sys2Proof/Proofs/Alu.lean ====
section
/-! PROOFS of the statements about arithmetic, logic, compares, increments and shifts (42_alu.md): the arithmetic of each
operation as a fact about numbers, and the effect of each instruction. -/

namespace Sys2Proof.Machine

open Sys2Proof.Laws

/-! The sign bit of a byte (R8). -/

/-- Bit 7 of a byte says that its number is 128 or more. -/
theorem getLsbD_seven_eq_decide (b : Byte) : b.getLsbD 7 = decide (128 ≤ b.toNat) := by
  rw [← BitVec.msb_eq_getLsbD_last b, BitVec.msb_eq_decide]

/-- The two's-complement number of a byte, by its sign. -/
theorem byte_toInt_eq_cond (b : Byte) : b.toInt = if 128 ≤ b.toNat then (b.toNat : Int) - 256 else b.toNat := by
  rw [BitVec.toInt_eq_msb_cond, BitVec.msb_eq_decide]
  simp

theorem and_signBit_ne_zero (b : Byte) : b &&& 0x80 ≠ 0 ↔ b.getLsbD 7 = true := by
  have mask : (0x80 : Byte) = BitVec.twoPow 8 7 := rfl
  rw [mask, BitVec.and_twoPow]
  split <;> simp_all

/-! AddCore (R199). -/

theorem addResult_toNat (a m : Byte) (c : Bool) : (addResult a m c).toNat = (a.toNat + m.toNat + c.toNat) % 256 :=
  BitVec.toNat_ofNat _ _

/-- The rule of the sign bits: both summands have one sign and the result the other. -/
theorem addOverflow_iff_signs (a m r : Byte) :
    addOverflow a m r = true ↔ a.getLsbD 7 = m.getLsbD 7 ∧ r.getLsbD 7 ≠ a.getLsbD 7 := by
  rw [addOverflow, bne_iff_ne, and_signBit_ne_zero, BitVec.getLsbD_and, BitVec.getLsbD_xor, BitVec.getLsbD_xor]
  cases a.getLsbD 7 <;> cases m.getLsbD 7 <;> cases r.getLsbD 7 <;> decide

/-- The rule of the sign bits finds exactly the signed sums that do not fit a byte. -/
theorem addOverflow_iff_signedSum (a m : Byte) (c : Bool) :
    addOverflow a m (addResult a m c) = true ↔
      a.toInt + m.toInt + c.toNat < -128 ∨ 127 < a.toInt + m.toInt + c.toNat := by
  have ha := a.isLt
  have hm := m.isLt
  have hc := c.toNat_le
  rw [addOverflow_iff_signs, byte_toInt_eq_cond, byte_toInt_eq_cond]
  simp only [getLsbD_seven_eq_decide, addResult_toNat, decide_eq_decide, ne_eq]
  split <;> split <;> omega

theorem isBitSet_addFlags_v (a m p : Byte) (c : Bool) :
    isBitSet (addFlags a m c p) .v = addOverflow a m (addResult a m c) := isBitSet_addFlags a m p c .v

/-- Settles O36: the flags are those of `isBitSet_addFlags`, and V is the sign rule of `addOverflow`, which is the signed
overflow. -/
theorem addCoreIsBinaryAddition : Obligations.AddCoreIsBinaryAddition := by
  intro a m p c s r q
  refine ⟨addResult_toNat a m c, isBitSet_addFlags a m p c .c, ?_, ?_, ?_, isBitSet_addFlags a m p c .n,
    isBitSet_addFlags a m p c .z, fun f hf => ?_⟩
  · rw [isBitSet_addFlags_v, addOverflow, Bool.eq_iff_iff, bne_iff_ne, decide_eq_true_iff]
  · rw [isBitSet_addFlags_v, addOverflow_iff_signs]
  · rw [isBitSet_addFlags_v, addOverflow_iff_signedSum]
  · simp only [List.mem_cons, List.not_mem_nil, or_false, not_or] at hf
    simp [q, hf]

/-! ADC, SBC and USBC (R180, R181, R260). -/

/-- The flags of a sum, in the terms of R180: C the carry out, V the signed overflow, N and Z of the result. -/
theorem addFlags_from_sum (a m p : Byte) (c : Bool) :
    NZFrom (addResult a m c) (setBitTo (setBitTo p .c (decide (255 < a.toNat + m.toNat + c.toNat))) .v
      (decide (a.toInt + m.toInt + c.toNat < -128 ∨ 127 < a.toInt + m.toInt + c.toNat))) (addFlags a m c p) := by
  have hv : addOverflow a m (addResult a m c) =
      decide (a.toInt + m.toInt + c.toNat < -128 ∨ 127 < a.toInt + m.toInt + c.toNat) := by
    rw [Bool.eq_iff_iff, decide_eq_true_iff]
    exact addOverflow_iff_signedSum a m c
  rw [← hv]
  exact setNZ_from _ _

theorem byte_not_toNat (m : Byte) : (~~~m).toNat = 255 - m.toNat := BitVec.toNat_not

theorem byte_not_toInt (m : Byte) : (~~~m).toInt = -1 - m.toInt := by
  have hm := m.isLt
  rw [byte_toInt_eq_cond, byte_toInt_eq_cond, byte_not_toNat]
  split <;> split <;> omega

/-- The sum with the complement is 256 more than the difference A - M - (1 - C). -/
theorem sum_not_eq_difference (a m : Byte) (c : Bool) :
    ((a.toNat + (~~~m).toNat + c.toNat : Nat) : Int) = a.toNat - m.toNat - (1 - c.toNat) + 256 := by
  have hm := m.isLt
  rw [byte_not_toNat]
  omega

theorem addResult_not_toNat (a m : Byte) (c : Bool) :
    ((addResult a (~~~m) c).toNat : Int) = (a.toNat - m.toNat - (1 - c.toNat) : Int) % 256 := by
  rw [addResult_toNat, Int.natCast_emod, sum_not_eq_difference]
  exact Int.add_emod_right _ _

/-- The flags of a difference, in the terms of R181: C is 1 where nothing was borrowed, V the signed overflow. -/
theorem addFlags_from_difference (a m p : Byte) (c : Bool) :
    NZFrom (addResult a (~~~m) c)
      (setBitTo (setBitTo p .c (decide (0 ≤ (a.toNat - m.toNat - (1 - c.toNat) : Int)))) .v
        (decide (a.toInt - m.toInt - (1 - c.toNat) < -128 ∨ 127 < a.toInt - m.toInt - (1 - c.toNat))))
      (addFlags a (~~~m) c p) := by
  have hcarry : 255 < a.toNat + (~~~m).toNat + c.toNat ↔ 0 ≤ (a.toNat - m.toNat - (1 - c.toNat) : Int) := by
    have := sum_not_eq_difference a m c
    omega
  have hsigned : a.toInt + (~~~m).toInt + c.toNat = a.toInt - m.toInt - (1 - c.toNat) := by
    rw [byte_not_toInt]
    omega
  rw [← decide_eq_decide.2 hcarry, ← hsigned]
  exact addFlags_from_sum a (~~~m) p c

/-- AddCore after an operand read works on the A and P from before it, which the read keeps. -/
theorem addToA_readM (m : Byte) (o : ReadOperand) (s : State) :
    addToA m (readM o s).2 = { (readM o s).2 with
      a := addResult s.a m (isBitSet s.p .c), p := addFlags s.a m (isBitSet s.p .c) s.p } := by
  rw [addToA, getFlag, readM_a, readM_p]
  rfl

theorem exec_adc {o : ReadOperand} (s : State) (h : (Instr.adc o).wellFormed = true) :
    exec (.adc o) s = .next { (readM o s).2 with
      a := addResult s.a (readM o s).1 (isBitSet s.p .c), p := addFlags s.a (readM o s).1 (isBitSet s.p .c) s.p } := by
  rw [← addToA_readM]
  exact ifFormed_of h _ _

/-- SBC, and USBC on its immediate, add the complement of the operand. -/
theorem exec_subtract {i : Instr} {o : ReadOperand} (s : State) (hi : i = .sbc o ∨ ∃ b, i = .usbc b ∧ o = .imm b)
    (h : i.wellFormed = true) :
    exec i s = .next { (readM o s).2 with
      a := addResult s.a (~~~(readM o s).1) (isBitSet s.p .c)
      p := addFlags s.a (~~~(readM o s).1) (isBitSet s.p .c) s.p } := by
  rw [← addToA_readM]
  rcases hi with rfl | ⟨b, rfl, rfl⟩
  · exact ifFormed_of h _ _
  · rfl

/-- Settles O37: an addition is AddCore on the operand, a subtraction AddCore on its complement. -/
theorem addSubtractEffect : Obligations.AddSubtractEffect := by
  refine ⟨encodesAs_of_opcodeIn (fun _ => rfl) fun _ => rfl, encodesAs_of_opcodeIn (fun _ => rfl) fun _ => rfl,
    fun b => ⟨rfl, rfl, rfl⟩, fun o s h => ⟨readM_kept o s, _, _, exec_adc s h, ?_, ?_⟩,
    fun i o s hi h => ⟨readM_kept o s, _, _, exec_subtract s hi h, ?_, ?_⟩⟩
  · exact addResult_toNat _ _ _
  · exact addFlags_from_sum _ _ _ _
  · exact addResult_not_toNat _ _ _
  · exact addFlags_from_difference _ _ _ _

/-! AND, ORA, EOR and BIT (R182 to R185). -/

/-- BIT writes Z, N and V and no other flag. -/
@[simp] theorem isBitSet_bitFlags (a m p : Byte) (g : Flag) :
    isBitSet (bitFlags a m p) g =
      if g = .v then m.getLsbD 6 else if g = .n then m.getLsbD 7 else if g = .z then a &&& m == 0 else isBitSet p g := by
  simp [bitFlags]

/-- Settles O38: AND, ORA and EOR are their operand read, A and `setNZ`; BIT's flags are those of `isBitSet_bitFlags`. -/
theorem logicEffect : Obligations.LogicEffect := by
  refine ⟨encodesAs_of_opcodeIn (fun _ => rfl) fun _ => rfl, encodesAs_of_opcodeIn (fun _ => rfl) fun _ => rfl,
    encodesAs_of_opcodeIn (fun _ => rfl) fun _ => rfl, encodesAs_of_opcodeIn (fun _ => rfl) fun _ => rfl,
    fun b => ⟨rfl, rfl, rfl⟩, fun o s => ⟨readM_kept o s, fun h => ?_, fun h => ?_, fun h => ?_⟩, fun m s h => ?_⟩
  · exact ⟨_, ifFormed_of h _ _, setNZ_readM_from _ o s⟩
  · exact ⟨_, ifFormed_of h _ _, setNZ_readM_from _ o s⟩
  · exact ⟨_, ifFormed_of h _ _, setNZ_readM_from _ o s⟩
  · refine ⟨bitFlags s.a (readM (.mem m) s).1 s.p, ifFormed_of h _ _, isBitSet_bitFlags _ _ _ .z,
      isBitSet_bitFlags _ _ _ .n, isBitSet_bitFlags _ _ _ .v, fun f hf => ?_⟩
    simp only [List.mem_cons, List.not_mem_nil, or_false, not_or] at hf
    simp [hf]

/-! CMP, CPX and CPY (R186 to R188, R200). -/

/-- The flags of a comparison: C where the register is not below M, Z where they are equal, N bit 7 of the difference modulo 256. -/
theorem compareFlags_from (r m p : Byte) :
    isBitSet (compareFlags r m p) .c = decide (m.toNat ≤ r.toNat) ∧ isBitSet (compareFlags r m p) .z = decide (r = m) ∧
      isBitSet (compareFlags r m p) .n = decide (128 ≤ (r.toNat + 256 - m.toNat) % 256) ∧
      FlagsKept [.c, .z, .n] p (compareFlags r m p) := by
  refine ⟨isBitSet_compareFlags r m p .c, isBitSet_compareFlags r m p .z, ?_, fun f hf => ?_⟩
  · have hdifference : (r - m).toNat = (r.toNat + 256 - m.toNat) % 256 := by
      have hm := m.isLt
      rw [BitVec.toNat_sub]
      omega
    rw [← hdifference, ← getLsbD_seven_eq_decide]
    exact isBitSet_compareFlags r m p .n
  · simp only [List.mem_cons, List.not_mem_nil, or_false, not_or] at hf
    simp [hf]

/-- Settles O39: each compare is its operand read and `compareFlags` of its register. -/
theorem compareEffect : Obligations.CompareEffect := by
  refine ⟨encodesAs_of_opcodeIn (fun _ => rfl) fun _ => rfl, encodesAs_of_opcodeIn (fun _ => rfl) fun _ => rfl,
    encodesAs_of_opcodeIn (fun _ => rfl) fun _ => rfl, fun b => ⟨rfl, rfl, rfl⟩, fun make reg hmake o s h =>
      ⟨readM_kept o s, compareFlags (reg s) (readM o s).1 s.p, ?_, compareFlags_from _ _ _⟩⟩
  rcases hmake with ⟨rfl, rfl⟩ | ⟨rfl, rfl⟩ | ⟨rfl, rfl⟩
  · exact ifFormed_of h _ _
  · exact ifFormed_of h _ _
  · exact ifFormed_of h _ _

/-! Increments and decrements (R189 to R194). -/

theorem byte_add_one_eq_ofNat (b : Byte) : b + 1 = BitVec.ofNat 8 (b.toNat + 1) :=
  BitVec.eq_of_toNat_eq (BitVec.toNat_add b 1)

theorem byte_sub_one_eq_ofNat (b : Byte) : b - 1 = BitVec.ofNat 8 (b.toNat + 255) :=
  BitVec.eq_of_toNat_eq (BitVec.toNat_sub' b 1)

/-- N and Z set after a read-modify-write are over the flags before it, which the two accesses keep. -/
theorem setNZ_modifyMem_from (v : Byte) (m : MemOperand) (f : Byte → Byte) (s : State) :
    NZFrom v s.p (setNZ v (modifyMem m f s).p) := by
  rw [(modifyMem_effect m s f).p]
  exact setNZ_from v s.p

/-- A read-modify-write whose result sets N and Z. -/
theorem modifyNZ_effect {i : Instr} {m : MemOperand} {f : Byte → Byte} {s : State}
    (hexec : exec i s = .next (setNZOf (f (modifyRead m s).1) (modifyMem m f s))) :
    ∃ u q, exec i s = .next { u with p := q } ∧ ModifiedAt (resolve m s).ea f s u ∧
      NZFrom (f (memRead (resolve m s).ea s).1) s.p q := by
  rw [modifyRead_eq] at hexec
  exact ⟨_, _, hexec, modifyMem_modified m f s, setNZ_modifyMem_from _ m f s⟩

/-- Settles O40: INC and DEC are `modifyNZ_effect`, the four others a register and `setNZ`. -/
theorem incDecEffect : Obligations.IncDecEffect := by
  refine ⟨encodesAs_of_opcodeIn (fun _ => rfl) fun _ => rfl, encodesAs_of_opcodeIn (fun _ => rfl) fun _ => rfl,
    rfl, rfl, rfl, rfl, rfl, rfl, by decide, fun m s => ⟨fun h => ?_, fun h => ?_⟩, fun s => ?_⟩
  · simp only [← byte_add_one_eq_ofNat]
    exact modifyNZ_effect (f := (· + 1)) (ifFormed_of h _ _)
  · simp only [← byte_sub_one_eq_ofNat]
    exact modifyNZ_effect (f := (· - 1)) (ifFormed_of h _ _)
  · exact ⟨⟨_, _, rfl, BitVec.toNat_add s.x 1, setNZ_from _ s.p⟩,
      ⟨_, _, rfl, BitVec.toNat_add s.y 1, setNZ_from _ s.p⟩,
      ⟨_, _, rfl, BitVec.toNat_sub' s.x 1, setNZ_from _ s.p⟩,
      ⟨_, _, rfl, BitVec.toNat_sub' s.y 1, setNZ_from _ s.p⟩⟩

/-! Shifts and rotates (R195 to R198). -/

theorem aslByte_eq_ofNat (m : Byte) : aslByte m = BitVec.ofNat 8 (2 * m.toNat) := by
  apply BitVec.eq_of_toNat_eq
  rw [aslByte, BitVec.toNat_shiftLeft, BitVec.toNat_ofNat, Nat.shiftLeft_eq, Nat.mul_comm]

theorem lsrByte_eq_ofNat (m : Byte) : lsrByte m = BitVec.ofNat 8 (m.toNat / 2) := by
  apply BitVec.eq_of_toNat_eq
  have hm := m.isLt
  rw [lsrByte, BitVec.toNat_ushiftRight, BitVec.toNat_ofNat, Nat.shiftRight_eq_div_pow]
  omega

theorem bitByte_eq_ofNat (c : Bool) : bitByte c = BitVec.ofNat 8 c.toNat := by
  cases c <;> rfl

theorem bitByte_shiftLeft_seven_eq_ofNat (c : Bool) : bitByte c <<< 7 = BitVec.ofNat 8 (128 * c.toNat) := by
  cases c <;> rfl

/-- The carry goes into bit 0, which the shift has cleared: the OR is a sum. -/
theorem rolByte_eq_ofNat (c : Bool) (m : Byte) : rolByte c m = BitVec.ofNat 8 (2 * m.toNat + c.toNat) := by
  have disjoint := Nat.two_pow_add_eq_or_of_lt (i := 1) c.toNat_lt m.toNat
  rw [rolByte, ← aslByte, aslByte_eq_ofNat, bitByte_eq_ofNat, ← BitVec.ofNat_or]
  exact congrArg (BitVec.ofNat 8) disjoint.symm

/-- The carry goes into bit 7, which the shift has cleared: the OR is a sum. -/
theorem rorByte_eq_ofNat (c : Bool) (m : Byte) : rorByte c m = BitVec.ofNat 8 (m.toNat / 2 + 128 * c.toNat) := by
  have hhalf : m.toNat / 2 < 2 ^ 7 := by have := m.isLt; omega
  have disjoint := Nat.two_pow_add_eq_or_of_lt hhalf c.toNat
  rw [rorByte, ← lsrByte, lsrByte_eq_ofNat, bitByte_shiftLeft_seven_eq_ofNat, ← BitVec.ofNat_or, Nat.or_comm,
    Nat.add_comm]
  exact congrArg (BitVec.ofNat 8) disjoint.symm

/-- A shift or rotate by `f`, with bit `out` of its operand going to C: in A, and in memory. -/
theorem shiftOperand_effect {make : ShiftOperand → Instr} {f : Byte → Byte} {out : Nat} {s : State}
    (hexec : ∀ o, exec (make o) s = ifFormed (make o) s (shiftOperand o f out s))
    (hacc : (make .acc).wellFormed = true) :
    (∃ q, exec (make .acc) s = .next { s with a := f s.a, p := q } ∧ NZCFrom (f s.a) (s.a.getLsbD out) s.p q) ∧
      ∀ m : MemOperand, (make (.mem m)).wellFormed = true → ∃ u q,
        exec (make (.mem m)) s = .next { u with p := q } ∧ ModifiedAt (resolve m s).ea f s u ∧
        NZCFrom (f (memRead (resolve m s).ea s).1) ((memRead (resolve m s).ea s).1.getLsbD out) s.p q := by
  refine ⟨⟨_, (hexec .acc).trans (ifFormed_of hacc _ _), shiftFlags_from _ _ _⟩, fun m h =>
    ⟨_, _, (hexec (.mem m)).trans (ifFormed_of h _ _), modifyMem_modified m f s, ?_⟩⟩
  rw [modifyRead_eq]
  exact shiftFlags_from _ _ _

/-- Settles O41: each shift is `shiftOperand_effect` of its byte function, which is the rule's number modulo 256. -/
theorem shiftEffect : Obligations.ShiftEffect := by
  refine ⟨encodesAs_of_opcodeIn (fun _ => rfl) fun _ => rfl, encodesAs_of_opcodeIn (fun _ => rfl) fun _ => rfl,
    encodesAs_of_opcodeIn (fun _ => rfl) fun _ => rfl, encodesAs_of_opcodeIn (fun _ => rfl) fun _ => rfl,
    rfl, rfl, rfl, rfl, by decide, fun make result out hmake s => ?_⟩
  rcases hmake with h | h | h | h <;> cases h
  · simp only [← aslByte_eq_ofNat]
    exact shiftOperand_effect (f := aslByte) (fun _ => rfl) rfl
  · simp only [← lsrByte_eq_ofNat]
    exact shiftOperand_effect (f := lsrByte) (fun _ => rfl) rfl
  · simp only [← rolByte_eq_ofNat]
    exact shiftOperand_effect (f := rolByte (isBitSet s.p .c)) (fun _ => rfl) rfl
  · simp only [← rorByte_eq_ofNat]
    exact shiftOperand_effect (f := rorByte (isBitSet s.p .c)) (fun _ => rfl) rfl

end Sys2Proof.Machine
end

