-- ==== Sys2Proof/Proofs/Control.lean ====
section
/-! PROOFS of the statements about control transfer, the flag instructions and NOP (43_control.md): interrupt entry and
return, calls and jumps, branches, flags, and the NOPs. -/

namespace Sys2Proof.Machine

open Sys2Proof.Laws

/-! Words on the stack. -/

/-- A pushed word moves the stack pointer down by 2 and reaches the memory of the stack page only. -/
theorem pushWord_eq (w : Word) (s : State) :
    pushWord w s = { s with sp := s.sp - 2, ram := (pushWord w s).ram, flat := (pushWord w s).flat } := by
  have hsp : s.sp - 2 = s.sp - 1 - 1 := by bv_omega
  rw [hsp, pushWord, push_eq (loByte w), push_eq (hiByte w)]

theorem MemoryKeptButAll.trans_kept {ws : List Word} {s t u : State} (h : MemoryKeptButAll ws s t) (kept : MemoryKept t u) :
    MemoryKeptButAll ws s u :=
  fun a ha => (kept a).trans (h a ha)

/-- What is popped does not depend on PC, which the pop keeps. -/
theorem popWord_setPc (q : Word) (s : State) : popWord (s.setPc q) = ((popWord s).1, (popWord s).2.setPc q) := by
  obtain ⟨lo, hi, hlo, hhi, -⟩ := popWord_value s
  rw [popWord_eq_of_peek hlo hhi, popWord_eq_of_peek (s := s.setPc q) hlo hhi]
  rfl

/-! Interrupt entry and return (R222, R223; 60_exceptions.md R284, R286, R288). -/

/-- The state once an interrupt entry has pushed its three bytes. -/
def pushFrame (returnTo : Word) (status : Byte) (s : State) : State := push status (pushWord returnTo s)

section
variable (r : Word) (status : Byte) (s : State)

theorem pushFrame_eq : pushFrame r status s =
    { s with sp := s.sp - 3, ram := (pushFrame r status s).ram, flat := (pushFrame r status s).flat } := by
  have hsp : s.sp - 3 = s.sp - 2 - 1 := by bv_omega
  rw [hsp, pushFrame, push_eq status, pushWord_eq]

theorem peek_pushFrame_high : peek (stackAddr s.sp) (pushFrame r status s) = some (hiByte r) := by
  have hne : s.sp ≠ (pushWord r s).sp := by
    rw [pushWord_sp]
    bv_omega
  rw [pushFrame, peek_push_other _ hne, peek_pushWord_high]

theorem peek_pushFrame_low : peek (stackAddr (s.sp - 1)) (pushFrame r status s) = some (loByte r) := by
  have hne : s.sp - 1 ≠ (pushWord r s).sp := by
    rw [pushWord_sp]
    bv_omega
  rw [pushFrame, peek_push_other _ hne, peek_pushWord_low]

theorem peek_pushFrame_status : peek (stackAddr (s.sp - 2)) (pushFrame r status s) = some status := by
  have hsp : s.sp - 2 = (pushWord r s).sp := by rw [pushWord_eq]
  rw [pushFrame, hsp, peek_push]

theorem pushFrame_memory :
    MemoryKeptButAll [stackAddr s.sp, stackAddr (s.sp - 1), stackAddr (s.sp - 2)] s (pushFrame r status s) := by
  have hcfg : (pushWord r s).cfg = s.cfg := by rw [pushWord_eq]
  have hsp : (pushWord r s).sp = s.sp - 2 := by rw [pushWord_eq]
  have pushed := (pushWord_memory r s).after_push hcfg status
  rw [hsp] at pushed
  exact pushed

end

theorem exists_peek {a : Word} {s : State} (h : placeable s.cfg.bus a = true) : ∃ b, peek a s = some b :=
  ⟨_, (peek_memRead h).1⟩

/-- The vectors and the PRG above 0x8000 share no byte with the stack page. -/
theorem cellOf_ne_stack {a : Word} (h : 0x8000 ≤ a.toNat) (bus : BusConfig) (sp : Byte) :
    cellOf bus a ≠ cellOf bus (stackAddr sp) := by
  have hsp := sp.isLt
  rw [cellOf_stack]
  cases bus with
  | nesMap => simp [cellOf, ownerOf_nesMap_prg h]
  | flatRam =>
    simp only [cellOf, ownerOf_flatRam, ne_eq, Option.some.injEq, Prod.mk.injEq, true_and]
    omega

/-- The pushes of an interrupt entry leave the vectors as they are. -/
theorem peek_pushFrame_prg {a : Word} (h : 0x8000 ≤ a.toNat) (r : Word) (status : Byte) (s : State) :
    peek a (pushFrame r status s) = peek a s := by
  refine pushFrame_memory r status s a (.inr fun w hw => ?_)
  simp only [List.mem_cons, List.not_mem_nil, or_false] at hw
  rcases hw with rfl | rfl | rfl <;> exact cellOf_ne_stack h _ _

/-- An interrupt entry whose vector lies in PRG: the three pushes, I set, and PC the word at the vector. -/
theorem enterInterrupt_effect {vector : Word} {lo hi : Byte} {s : State} (r : Word) (status : Byte)
    (hfirst : 0x8000 ≤ vector.toNat) (hsecond : 0x8000 ≤ (vector + 1).toNat)
    (hlo : peek vector s = some lo) (hhi : peek (vector + 1) s = some hi) :
    let t := enterInterrupt r status vector s
    t = { s with sp := s.sp - 3, p := setBitTo s.p .i true, pc := mkWord hi lo, ram := t.ram, flat := t.flat } ∧
      MemoryKept (pushFrame r status s) t := by
  have hread : readWord vector (putFlag .i true (pushFrame r status s)) =
      (mkWord hi lo, putFlag .i true (pushFrame r status s)) :=
    readWord_of_peek ((peek_pushFrame_prg hfirst r status s).trans hlo) ((peek_pushFrame_prg hsecond r status s).trans hhi)
  have hentry : enterInterrupt r status vector s = (putFlag .i true (pushFrame r status s)).setPc (mkWord hi lo) := by
    rw [enterInterrupt, ← pushFrame, hread]
  rw [hentry]
  refine ⟨?_, .of_fields rfl rfl rfl rfl⟩
  rw [pushFrame_eq]
  rfl

theorem flagsKept_setBitTo (f : Flag) (value : Bool) (p : Byte) : FlagsKept [f] p (setBitTo p f value) := by
  intro g hg
  rw [isBitSet_setBitTo, if_neg (by simpa using hg)]

/-- A return from an interrupt, by the three bytes above the stack pointer. -/
theorem returnFromInterrupt_of_peek {v lo hi : Byte} {s : State} (hv : peek (stackAddr (s.sp + 1)) s = some v)
    (hlo : peek (stackAddr (s.sp + 2)) s = some lo) (hhi : peek (stackAddr (s.sp + 3)) s = some hi) :
    returnFromInterrupt s = { s with sp := s.sp + 3, p := pulledStatus v, pc := mkWord hi lo } := by
  have htwo : s.sp + 1 + 1 = s.sp + 2 := by bv_omega
  have hthree : s.sp + 1 + 2 = s.sp + 3 := by bv_omega
  have hword := popWord_eq_of_peek (s := (s.setSp (s.sp + 1)).setP (pulledStatus v)) (lo := lo) (hi := hi)
    (by rw [setP_sp, setSp_sp, htwo]; exact hlo) (by rw [setP_sp, setSp_sp, hthree]; exact hhi)
  simp only [returnFromInterrupt, pop_eq_of_peek hv, hword]
  rw [setP_sp, setSp_sp, hthree]
  rfl

/-- Settles O23: BRK is an interrupt entry by the vector 0xFFFE, which the pushes cannot reach; RTI is
`returnFromInterrupt_of_peek`. -/
theorem brkAndRtiEffect : Obligations.BrkAndRtiEffect := by
  refine ⟨⟨rfl, rfl, rfl, fun s => ?_⟩, rfl, rfl, rfl, fun s => ?_⟩
  · obtain ⟨lo, hlo⟩ := exists_peek (placeable_of_range s.cfg.bus 0xFFFE (.inr (by decide)))
    obtain ⟨hi, hhi⟩ := exists_peek (placeable_of_range s.cfg.bus 0xFFFF (.inr (by decide)))
    obtain ⟨hstate, kept⟩ := enterInterrupt_effect (vector := irqVector) (s.pc + 1) (softwareStatus s.p) (by decide)
      (by decide) hlo hhi
    exact ⟨_, setBitTo s.p .i true, lo, hi, rfl, hlo, hhi, hstate, by simp, flagsKept_setBitTo .i true s.p,
      (kept _).trans (peek_pushFrame_high _ _ s), (kept _).trans (peek_pushFrame_low _ _ s),
      (kept _).trans (peek_pushFrame_status _ _ s), (pushFrame_memory _ _ s).trans_kept kept⟩
  · obtain ⟨v, hv⟩ := exists_peek (placeable_stack s.cfg.bus (s.sp + 1))
    obtain ⟨lo, hlo⟩ := exists_peek (placeable_stack s.cfg.bus (s.sp + 2))
    obtain ⟨hi, hhi⟩ := exists_peek (placeable_stack s.cfg.bus (s.sp + 3))
    exact ⟨v, lo, hi, hv, hlo, hhi, congrArg Host.Outcome.next (returnFromInterrupt_of_peek hv hlo hhi)⟩

/-! Calls and jumps (R219 to R221, R143). -/

theorem exec_rts (s : State) : exec .rts s = .next ((popWord s).2.setPc ((popWord s).1 + 1)) := rfl

/-- Settles O25: JSR is a push of PC - 1 and RTS a pop plus 1, so RTS after JSR is `popWord_pushWord`. -/
theorem callAndReturn : Obligations.CallAndReturn := by
  refine ⟨fun w => rfl, rfl, rfl, rfl, fun s w => ?_, fun s => ?_, fun s t w q hjsr => ?_⟩
  · refine ⟨(pushWord (s.pc - 1) s).setPc w, rfl, ?_, peek_pushWord_high _ s, peek_pushWord_low _ s, pushWord_memory _ s⟩
    rw [pushWord_eq]
    rfl
  · obtain ⟨lo, hi, hlo, hhi, -⟩ := popWord_value s
    refine ⟨lo, hi, hlo, hhi, ?_⟩
    rw [exec_rts, popWord_eq_of_peek hlo hhi]
    rfl
  · cases hjsr
    rw [exec_rts, popWord_setPc, popWord_setPc, popWord_pushWord, BitVec.sub_add_cancel]
    rfl

/-- The address of a JMP pointer's high byte, as a number: the pointer's page, and its low byte plus 1 modulo 256. -/
theorem jumpPointer_high_address (ptr : Word) : mkWord (hiByte ptr) (loByte ptr + 1) =
    BitVec.ofNat 16 (ptr.toNat / 256 * 256 + (ptr.toNat % 256 + 1) % 256) := by
  have hptr : ptr.toNat = (hiByte ptr).toNat * 256 + (loByte ptr).toNat := by
    rw [← mkWord_toNat, mkWord_hiByte_loByte]
  have hlow := (loByte ptr).isLt
  have hhigh := (hiByte ptr).isLt
  have hnext : (loByte ptr + 1).toNat = ((loByte ptr).toNat + 1) % 256 := BitVec.toNat_add _ 1
  apply BitVec.eq_of_toNat_eq
  rw [mkWord_toNat, hnext, BitVec.toNat_ofNat, hptr]
  omega

/-- Settles O24: JMP indirect is two bus reads, each within what a read may change. -/
theorem jumpEffect : Obligations.JumpEffect := by
  refine ⟨fun w => ⟨rfl, rfl⟩, rfl, rfl, fun s w => rfl, fun s ptr => ?_⟩
  rw [← jumpPointer_high_address]
  intro lo hi
  have reads : ReadEffect s hi.2 := (memRead_effect ptr s).trans (memRead_effect _ lo.2)
  exact ⟨rfl, reads, reads.memory, reads.ppuMemory⟩

/-! Branches (R210 to R218). -/

theorem branch_not_taken (rel8 : Byte) (s : State) : branch rel8 false s = s := rfl

theorem branch_taken (rel8 : Byte) (s : State) :
    let target := s.pc + BitVec.ofInt 16 rel8.toInt
    branch rel8 true s =
      { s with pc := target, extra := s.extra + (if hiByte s.pc = hiByte target then 1 else 2) } := by
  intro target
  have hcycles : s.extra + 1 + (pageCrossed s.pc target).toNat =
      s.extra + (if hiByte s.pc = hiByte target then 1 else 2) := by
    by_cases hpage : hiByte s.pc = hiByte target
    · simp [pageCrossed, hpage]
    · simp [pageCrossed, hpage, bne_iff_ne.2 hpage]
  rw [← hcycles]
  rfl

/-- An instruction that branches if a flag has a value. -/
theorem branchInstruction_effect {i : Instr} {f : Flag} {value taken : Bool} {rel8 : Byte} {s : State}
    (hexec : exec i s = .next (branch rel8 taken s)) (htaken : taken = true ↔ isBitSet s.p f = value) :
    let target := s.pc + BitVec.ofInt 16 rel8.toInt
    (isBitSet s.p f = value → exec i s = .next { s with
      pc := target, extra := s.extra + (if hiByte s.pc = hiByte target then 1 else 2) }) ∧
    (isBitSet s.p f ≠ value → exec i s = .next s) := by
  refine ⟨fun hflag => ?_, fun hflag => ?_⟩
  · rw [hexec, htaken.2 hflag, branch_taken]
  · rw [hexec, Bool.eq_false_iff.2 (mt htaken.1 hflag), branch_not_taken]

theorem not_getFlag_iff {f : Flag} {s : State} : (!getFlag f s) = true ↔ isBitSet s.p f = false :=
  .of_eq (Bool.not_eq_true' _)

/-- Settles O26: each branch is `branchInstruction_effect`, taken if its flag is set or if its flag is clear. -/
theorem branchEffect : Obligations.BranchEffect := by
  intro make op f value hmem
  simp only [List.mem_cons, List.not_mem_nil, or_false] at hmem
  rcases hmem with h | h | h | h | h | h | h | h <;> cases h
  all_goals refine ⟨rfl, fun rel8 s => ⟨rfl, branchInstruction_effect rfl ?_⟩⟩
  · exact not_getFlag_iff
  · exact .rfl
  · exact not_getFlag_iff
  · exact .rfl
  · exact not_getFlag_iff
  · exact .rfl
  · exact not_getFlag_iff
  · exact .rfl

/-! Flag instructions (R224 to R230). -/

/-- Settles O27: each flag instruction is `putFlag`, so `setBitTo` of its flag. -/
theorem flagInstructionEffect : Obligations.FlagInstructionEffect := by
  intro i op f value hmem
  have one_flag (s : State) : isBitSet (setBitTo s.p f value) f = value ∧ FlagsKept [f] s.p (setBitTo s.p f value) :=
    ⟨by simp, flagsKept_setBitTo f value s.p⟩
  simp only [List.mem_cons, List.not_mem_nil, or_false] at hmem
  rcases hmem with h | h | h | h | h | h | h <;> cases h <;> exact ⟨rfl, rfl, fun s => ⟨_, rfl, one_flag s⟩⟩

/-! NOPs (R231, R261). -/

/-- An undocumented NOP with a byte of its form's list: that byte and the operand encode it, and `nopEffect` is what it does. -/
theorem nopU_effect {op : Byte} {o : NopOperand} (h : op ∈ nopOpcodes o) (s : State) :
    encode (.nopU op o) = op :: o.bytes ∧ exec (.nopU op o) s = .next (nopEffect o s) := by
  have hform : (Instr.nopU op o).wellFormed = true := List.contains_iff_mem.2 h
  exact ⟨encode_of_opcodeOf (if_pos hform), ifFormed_of hform _ _⟩

/-- Settles O28: the official NOP by evaluation, the undocumented ones by `nopU_effect`; the statement's table of the memory
forms lists the bytes of `nopOpcodes`. -/
theorem nopInstructionEffect : Obligations.NopEffect := by
  refine ⟨rfl, rfl, fun s => rfl, fun op s h => nopU_effect (o := .implied) h s,
    fun op b s h => nopU_effect (o := .imm b) h s, fun op m s h => ?_⟩
  have hop : op ∈ nopOpcodes (.mem m) := by
    cases m
    case zp | zpX | abs | absX => simpa [MemOperand.mode, nopOpcodes] using h
    all_goals simp [MemOperand.mode] at h
  obtain ⟨hencode, hexec⟩ := nopU_effect hop s
  exact ⟨hencode, hexec, readM_kept (.mem m) s⟩

end Sys2Proof.Machine
end

