-- ==== Sys2Proof/Proofs/Undocumented.lean ====
section
/-! PROOFS of the statements about the undocumented opcodes and JAM (44_undocumented.md): the read-modify-write combinations,
the immediate combinations, the unstable stores, and the lock-up. -/

namespace Sys2Proof.Machine

open Sys2Proof.Laws

/-! SLO, RLA and SRE (R241 to R243). -/

/-- A shift of a memory operand by `f`, with bit `out` of the operand going to C, whose result is combined into A: A and P are
those from before the two accesses, which keep them. -/
theorem shiftCombination_effect {i : Instr} {m : MemOperand} {f : Byte → Byte} {out : Nat} {combine : Byte → Byte → Byte}
    {s : State} (hexec : exec i s = .next (resultToA (combine s.a (f (modifyRead m s).1))
      (putFlag .c ((modifyRead m s).1.getLsbD out) (modifyMem m f s)))) :
    ∃ u q, exec i s = .next { u with a := combine s.a (f (memRead (resolve m s).ea s).1), p := q } ∧
      ModifiedAt (resolve m s).ea f s u ∧
      NZCFrom (combine s.a (f (memRead (resolve m s).ea s).1)) ((memRead (resolve m s).ea s).1.getLsbD out) s.p q := by
  rw [modifyRead_eq] at hexec
  refine ⟨modifyMem m f s, _, hexec, modifyMem_modified m f s, ?_⟩
  rw [setA_p, putFlag_eq, setP_p, (modifyMem_effect m s f).p]
  exact shiftFlags_from _ _ _

/-- Settles O42: each is `shiftCombination_effect` of its byte function, which is the rule's number modulo 256. -/
theorem shiftCombinationEffect : Obligations.ShiftCombinationEffect := by
  refine ⟨encodesAs_of_opcodeIn (fun _ => rfl) fun _ => rfl, encodesAs_of_opcodeIn (fun _ => rfl) fun _ => rfl,
    encodesAs_of_opcodeIn (fun _ => rfl) fun _ => rfl, fun make result out combine hmake m s hformed => ?_⟩
  rcases hmake with h | h | h <;> cases h
  · simp only [← aslByte_eq_ofNat]
    exact shiftCombination_effect (combine := (· ||| ·)) (ifFormed_of hformed _ _)
  · simp only [← rolByte_eq_ofNat]
    exact shiftCombination_effect (combine := (· &&& ·)) (ifFormed_of hformed _ _)
  · simp only [← lsrByte_eq_ofNat]
    exact shiftCombination_effect (combine := (· ^^^ ·)) (ifFormed_of hformed _ _)

/-! DCP, ISC and RRA (R244 to R246). -/

/-- The flags of AddCore do not depend on the C that was in P, since the carry in is given apart. -/
theorem addFlags_setBitTo_c (a m p : Byte) (c old : Bool) : addFlags a m c (setBitTo p .c old) = addFlags a m c p := by
  apply status_ext
  intro f
  by_cases hc : f = .c <;> simp [hc]

section
variable {s t : State} (kept : WriteEffect s t) (v : Byte)
include kept

/-- AddCore after bus accesses works on the A and P from before them, which they keep. -/
theorem addToA_of_writeEffect : addToA v t =
    { t with a := addResult s.a v (isBitSet s.p .c), p := addFlags s.a v (isBitSet s.p .c) s.p } := by
  rw [addToA, getFlag, kept.a, kept.p]
  rfl

/-- AddCore with a carry in that is put in C after the bus accesses. -/
theorem addToA_putFlag_c_of_writeEffect (carry : Bool) : addToA v (putFlag .c carry t) =
    { t with a := addResult s.a v carry, p := addFlags s.a v carry s.p } := by
  have hcarry : getFlag .c (putFlag .c carry t) = carry := by simp [getFlag]
  rw [addToA, hcarry, putFlag_eq, setP_a, setP_p, addFlags_setBitTo_c, kept.a, kept.p]
  rfl

end

/-- Settles O43: each is its byte function in memory, then a comparison or an AddCore on that byte. -/
theorem arithmeticCombinationEffect : Obligations.ArithmeticCombinationEffect := by
  refine ⟨encodesAs_of_opcodeIn (fun _ => rfl) fun _ => rfl, encodesAs_of_opcodeIn (fun _ => rfl) fun _ => rfl,
    encodesAs_of_opcodeIn (fun _ => rfl) fun _ => rfl, fun m s => ⟨fun h => ?_, fun h => ?_, fun h => ?_⟩⟩
  · simp only [← byte_sub_one_eq_ofNat]
    obtain ⟨hc, hz, -, kept⟩ := compareFlags_from s.a ((memRead (resolve m s).ea s).1 - 1) s.p
    refine ⟨modifyMem m (· - 1) s, _, ?_, modifyMem_modified m _ s, hc, hz, isBitSet_compareFlags _ _ _ .n, kept⟩
    rw [← modifyRead_eq]
    exact ifFormed_of h _ _
  · simp only [← byte_add_one_eq_ofNat]
    refine ⟨modifyMem m (· + 1) s, ?_, modifyMem_modified m _ s⟩
    rw [← addToA_of_writeEffect (modifyMem_effect m s _), ← modifyRead_eq]
    exact ifFormed_of h _ _
  · simp only [← rorByte_eq_ofNat]
    refine ⟨modifyMem m (rorByte (isBitSet s.p .c)) s, ?_, modifyMem_modified m _ s⟩
    rw [← addToA_putFlag_c_of_writeEffect (modifyMem_effect m s _), ← modifyRead_eq]
    exact ifFormed_of h _ _

/-! ANC, ALR and SBX (R249, R250, R254). -/

/-- Setting C after N and Z leaves the flags of a shift, which sets C first. -/
theorem setBitTo_c_setNZ (v p : Byte) (c : Bool) : setBitTo (setNZ v p) .c c = shiftFlags c v p := by
  apply status_ext
  intro f
  by_cases hc : f = .c <;> simp [hc]

theorem lsrByte_toNat (v : Byte) : (lsrByte v).toNat = v.toNat / 2 := by
  rw [lsrByte, BitVec.toNat_ushiftRight, Nat.shiftRight_eq_div_pow]

/-- A right shift clears the sign bit. -/
theorem lsrByte_getLsbD_seven (v : Byte) : (lsrByte v).getLsbD 7 = false := by
  have hv := v.isLt
  rw [getLsbD_seven_eq_decide, lsrByte_toNat, decide_eq_false_iff_not]
  omega

theorem byte_sub_toNat (v m : Byte) : (v - m).toNat = (v.toNat + 256 - m.toNat) % 256 := by
  have hm := m.isLt
  rw [BitVec.toNat_sub']
  omega

theorem exec_anc {op : Byte} (h : op = 0x0B ∨ op = 0x2B) (b : Byte) (s : State) :
    exec (.anc op b) s =
      .next { s with a := s.a &&& b, p := shiftFlags ((s.a &&& b).getLsbD 7) (s.a &&& b) s.p } := by
  have hformed : (Instr.anc op b).wellFormed = true := by simpa [Instr.wellFormed] using h
  rw [← setBitTo_c_setNZ]
  exact ifFormed_of hformed _ _

/-- Settles O44: each sets P as a shift does, with its own C. -/
theorem immediateCombinationEffect : Obligations.ImmediateCombinationEffect := by
  refine ⟨fun b => ⟨rfl, rfl, rfl, rfl⟩, fun b s => ⟨fun op hop => ⟨_, exec_anc hop b s, ?_⟩,
    ⟨_, _, rfl, lsrByte_toNat _, ?_, shiftFlags_from _ _ _⟩, _, _, rfl, byte_sub_toNat _ _, shiftFlags_from _ _ _⟩⟩
  · have hn : isBitSet (shiftFlags ((s.a &&& b).getLsbD 7) (s.a &&& b) s.p) .n = (s.a &&& b).getLsbD 7 :=
      isBitSet_shiftFlags _ _ _ .n
    rw [hn]
    exact shiftFlags_from _ _ _
  · exact (isBitSet_shiftFlags _ _ _ .n).trans (lsrByte_getLsbD_seven _)

/-! ARR, ANE and LXA (R251 to R253). -/

theorem rorByte_toNat (c : Bool) (v : Byte) : (rorByte c v).toNat = v.toNat / 2 + 128 * c.toNat := by
  have hv := v.isLt
  have hc := c.toNat_le
  rw [rorByte_eq_ofNat, BitVec.toNat_ofNat, Nat.mod_eq_of_lt (by omega)]

/-- P after ARR with the result `r` (R251). -/
def arrFlags (r p : Byte) : Byte :=
  setBitTo (setBitTo (setNZ r p) .c (r.getLsbD 6)) .v (r.getLsbD 6 ^^ r.getLsbD 5)

theorem exec_arr (b : Byte) (s : State) :
    exec (.arr b) s = .next { s with a := arrByte b s, p := arrFlags (arrByte b s) s.p } := rfl

/-- ARR writes N, Z, C and V and no other flag. -/
@[simp] theorem isBitSet_arrFlags (r p : Byte) (g : Flag) :
    isBitSet (arrFlags r p) g =
      if g = .v then (r.getLsbD 6 ^^ r.getLsbD 5)
      else if g = .c then r.getLsbD 6
      else if g = .n then r.getLsbD 7
      else if g = .z then r == 0
      else isBitSet p g := by
  simp [arrFlags]

/-- Settles O45: ARR is a rotate of A AND M with `arrFlags`, ANE and LXA a value and `setNZ`. -/
theorem decidedImmediateEffect : Obligations.DecidedImmediateEffect := by
  refine ⟨fun b => ⟨rfl, rfl, rfl⟩, fun b s => ⟨⟨_, _, exec_arr b s, rorByte_toNat _ _, ?_, ?_, ?_, ?_, fun f hf => ?_⟩,
    ⟨_, rfl, setNZ_from _ _⟩, ⟨_, rfl, setNZ_from _ _⟩⟩⟩
  · exact isBitSet_arrFlags _ _ .n
  · exact isBitSet_arrFlags _ _ .z
  · exact isBitSet_arrFlags _ _ .c
  · exact isBitSet_arrFlags _ _ .v
  · simp only [List.mem_cons, List.not_mem_nil, or_false, not_or] at hf
    simp [hf]

/-! SHA, SHX, SHY and TAS (R256 to R259, R262). -/

theorem exec_sha {m : MemOperand} {base : Word} {s : State} (hformed : (Instr.sha m).wellFormed = true)
    (hbase : shaBase m s = (base, s)) :
    exec (.sha m) s = .next (unstableStore base s.y (s.a &&& s.x) s) := by
  have h : exec (.sha m) s = .next (unstableStore (shaBase m s).1 s.y (s.a &&& s.x) (shaBase m s).2) :=
    ifFormed_of hformed _ _
  rw [h, hbase]

/-- Settles O35: each is `unstableStore` of its base, index and value; SHA's pointer lies in the zero page, which is
memory. -/
theorem unstableStoreEffect : Obligations.UnstableStoreEffect := by
  refine ⟨fun w => ⟨rfl, rfl, rfl, rfl⟩, fun z => rfl, rfl, by decide, fun w s =>
    ⟨⟨_, exec_sha rfl rfl, unstableStore_stored _ _ _ _⟩, ⟨_, rfl, unstableStore_stored _ _ _ _⟩,
      ⟨_, rfl, unstableStore_stored _ _ _ _⟩, _, rfl, unstableStore_stored _ _ _ _⟩, fun z s => ?_⟩
  obtain ⟨lo, hlo⟩ := exists_peek (placeable_zeroPage s.cfg.bus z)
  obtain ⟨hi, hhi⟩ := exists_peek (placeable_zeroPage s.cfg.bus (z + 1))
  exact ⟨_, lo, hi, hlo, hhi, exec_sha rfl (zeroPagePointer_of_peek hlo hhi), unstableStore_stored _ _ _ _⟩

/-! JAM (R270). -/

theorem opcodeOf_jam {op : Byte} (h : op ∈ jamOpcodes) : opcodeOf (.jam op) = some op :=
  if_pos (List.contains_iff_mem.2 h)

theorem baseCycles_jam : ∀ op ∈ jamOpcodes, baseCycles op = 2 := by decide

theorem exec_jam {op : Byte} (h : op ∈ jamOpcodes) (s : State) : exec (.jam op) s = .next (s.setPc (s.pc - 1)) :=
  ifFormed_of (i := .jam op) (List.contains_iff_mem.2 h) _ _

/-- JAM undoes the move of PC past its byte. -/
theorem exec_jam_after_fetch {op : Byte} (h : op ∈ jamOpcodes) (s : State) :
    exec (.jam op) (s.setPc (s.pc + BitVec.ofNat 16 [op].length)) = .next s := by
  have hback : s.pc + BitVec.ofNat 16 [op].length - 1 = s.pc := BitVec.add_sub_cancel s.pc 1
  rw [exec_jam h, setPc_pc, hback]
  rfl

/-- One byte of memory is the list of that byte there. -/
theorem bytesAt_singleton {a : Word} {b : Byte} {s : State} (h : peek a s = some b) : BytesAt a [b] s := by
  intro k c hc
  obtain ⟨rfl, rfl⟩ : k = 0 ∧ b = c := by simpa [List.getElem?_singleton] using hc
  rw [BitVec.add_zero]
  exact h

/-- The passing of PPU time changes no byte of memory. -/
theorem TimeEffect.memory {s t : State} (h : TimeEffect s t) : MemoryKept s t :=
  .of_fields (by rw [h]) (by rw [h]) (by rw [h]) (by rw [h])

/-- A tick that fetches a JAM byte of memory with nothing waiting: PC moves past the byte and back, and two cycles pass. -/
theorem step_jam {op : Byte} {s : State} (hop : op ∈ jamOpcodes) (hnmi : s.ppu.nmiPending = false)
    (hirq : s.irqLine = false) (hstall : s.dmaStall = 0) (hpeek : peek s.pc s = some op) :
    step s = .next (ppuTick 2 { s with extra := 0, tickCycles := 2 }) := by
  obtain ⟨hrun, hidle⟩ := stepRunsDecodedInstruction
  have hencode : encode (.jam op) = [op] := encode_of_opcodeOf (opcodeOf_jam hop)
  have hbytes : BytesAt s.pc [op] (s.setExtra 0) := bytesAt_singleton hpeek
  have hstep := hrun s (.jam op) op (opcodeOf_jam hop) (by rw [hencode, hidle s hnmi hirq]; exact hbytes)
  rw [hidle s hnmi hirq, hencode, exec_jam_after_fetch hop, baseCycles_jam op hop] at hstep
  calc step s
      = .next (ppuTick (2 + 0 + s.dmaStall) { s with extra := 0, dmaStall := 0, tickCycles := 2 + 0 + s.dmaStall }) := hstep
    _ = .next (ppuTick 2 { s with extra := 0, tickCycles := 2 }) := by rw [hstall]

/-- Settles O29: `exec_jam` moves PC back, so a tick is `step_jam`, and the passing of PPU time keeps PC and the byte there. -/
theorem jamEffect : Obligations.JamEffect := by
  intro op hop
  refine ⟨encode_of_opcodeOf (opcodeOf_jam hop), baseCycles_jam op hop, exec_jam hop, fun s hnmi hirq hstall hpeek => ?_⟩
  have time := ppuTick_time 2 { s with extra := 0, tickCycles := 2 }
  have hpc : (ppuTick 2 { s with extra := 0, tickCycles := 2 }).pc = s.pc := by rw [time]
  refine ⟨_, step_jam hop hnmi hirq hstall hpeek, rfl, hpc, ?_, time⟩
  rw [hpc, time.memory s.pc]
  exact hpeek

end Sys2Proof.Machine
end

