-- ==== Sys2Proof/Proofs/Exceptions.lean ====
section
/-! PROOFS of the statements about exceptions (60_exceptions.md): the NMI entry, the poll that begins a tick, and the return
that undoes an entry. -/

namespace Sys2Proof.Machine

open Sys2Proof.Laws

/-! Entry (R284, R286, R287). -/

/-- An interrupt entry as the pushed frame with I set, so that entries by two vectors differ in PC only. -/
theorem enterInterrupt_eq {vector : Word} (hfirst : 0x8000 ≤ vector.toNat) (hsecond : 0x8000 ≤ (vector + 1).toNat)
    (r : Word) (status : Byte) (s : State) :
    ∃ lo hi, peek vector s = some lo ∧ peek (vector + 1) s = some hi ∧
      enterInterrupt r status vector s = (putFlag .i true (pushFrame r status s)).setPc (mkWord hi lo) := by
  obtain ⟨lo, hlo⟩ := exists_peek (placeable_of_range s.cfg.bus vector (.inr (by omega)))
  obtain ⟨hi, hhi⟩ := exists_peek (placeable_of_range s.cfg.bus (vector + 1) (.inr (by omega)))
  have hread : readWord vector (putFlag .i true (pushFrame r status s)) =
      (mkWord hi lo, putFlag .i true (pushFrame r status s)) :=
    readWord_of_peek ((peek_pushFrame_prg hfirst r status s).trans hlo) ((peek_pushFrame_prg hsecond r status s).trans hhi)
  refine ⟨lo, hi, hlo, hhi, ?_⟩
  rw [enterInterrupt, ← pushFrame, hread]

theorem nmiEntry_eq (s : State) : ∃ lo hi, peek 0xFFFA s = some lo ∧ peek 0xFFFB s = some hi ∧
    nmiEntry s = (putFlag .i true (pushFrame s.pc (hardwareStatus s.p) s)).setPc (mkWord hi lo) :=
  enterInterrupt_eq (vector := nmiVector) (by decide) (by decide) _ _ s

/-- Settles O20: the NMI entry is `enterInterrupt_effect` with the vector 0xFFFA, over the three bytes of `pushFrame`. -/
theorem nmiEntryEffect : Obligations.NmiEntryEffect := by
  intro s
  obtain ⟨lo, hi, hlo, hhi, -⟩ := nmiEntry_eq s
  obtain ⟨hstate, kept⟩ := enterInterrupt_effect (vector := nmiVector) s.pc (hardwareStatus s.p) (by decide) (by decide)
    hlo hhi
  exact ⟨setBitTo s.p .i true, lo, hi, hlo, hhi, hstate, by simp, flagsKept_setBitTo .i true s.p,
    (kept _).trans (peek_pushFrame_high _ _ s), (kept _).trans (peek_pushFrame_low _ _ s),
    (kept _).trans (peek_pushFrame_status _ _ s), (pushFrame_memory _ _ s).trans_kept kept⟩

/-- The IRQ entry pushes and sets what the NMI entry does, and goes to its own vector (R286). -/
theorem irqEntry_eq (s : State) : ∃ lo hi, peek 0xFFFE s = some lo ∧ peek 0xFFFF s = some hi ∧
    irqEntry s = (nmiEntry s).setPc (mkWord hi lo) := by
  obtain ⟨lo, hi, hlo, hhi, hirq⟩ :=
    enterInterrupt_eq (vector := irqVector) (by decide) (by decide) s.pc (hardwareStatus s.p) s
  obtain ⟨_, _, -, -, hnmi⟩ := nmiEntry_eq s
  refine ⟨lo, hi, hlo, hhi, ?_⟩
  rw [irqEntry, hirq, hnmi]
  rfl

/-! The poll (R282, R283). -/

theorem pollInterrupts_nmi {s : State} (h : s.ppu.nmiPending = true) :
    pollInterrupts s = ppuTick s.cfg.nmiEntryCycles (nmiEntry (consumeNmi s)) := if_pos h

theorem pollInterrupts_irq {s : State} (hnmi : s.ppu.nmiPending = false) (hirq : s.irqLine = true)
    (hi : isBitSet s.p .i = false) : pollInterrupts s = ppuTick s.cfg.nmiEntryCycles (irqEntry s) := by
  simp [pollInterrupts, getFlag, hnmi, hirq, hi]

theorem pollInterrupts_masked {s : State} (hnmi : s.ppu.nmiPending = false) (hi : isBitSet s.p .i = true) :
    pollInterrupts s = s := by
  simp [pollInterrupts, getFlag, hnmi, hi]

/-- Settles O21: a tick starts with the poll, one case for each of its branches, and the IRQ entry is `irqEntry_eq`. -/
theorem interruptPollOrder : Obligations.InterruptPollOrder := by
  refine fun s => ⟨fun hnmi => ?_, fun hnmi hirq hi => ?_, fun hnmi hidle => ?_, irqEntry_eq s⟩
  · rw [tickStart, pollInterrupts_nmi hnmi, consumeNmi]
  · rw [tickStart, pollInterrupts_irq hnmi hirq hi]
  · rcases hidle with hirq | hi
    · rw [tickStart, pollInterrupts_idle hnmi hirq]
    · rw [tickStart, pollInterrupts_masked hnmi hi]

/-! Return (R288, R222, R223). -/

/-- A return right after an entry takes back the frame the entry pushed: PC is the return address and P the status byte as
pulled; the stack pointer and I are as before the entry. -/
theorem returnFromInterrupt_enterInterrupt {vector : Word} (hfirst : 0x8000 ≤ vector.toNat)
    (hsecond : 0x8000 ≤ (vector + 1).toNat) (r : Word) (status : Byte) (s : State) :
    let u := returnFromInterrupt (enterInterrupt r status vector s)
    u = { s with pc := r, p := pulledStatus status, ram := u.ram, flat := u.flat } ∧
      MemoryKeptButAll [stackAddr s.sp, stackAddr (s.sp - 1), stackAddr (s.sp - 2)] s u := by
  obtain ⟨lo, hi, -, -, hentry⟩ := enterInterrupt_eq hfirst hsecond r status s
  have hsp : (enterInterrupt r status vector s).sp = s.sp - 3 := by
    rw [hentry, putFlag_eq, setPc_sp, setP_sp, pushFrame_eq]
  have hstatus : (enterInterrupt r status vector s).sp + 1 = s.sp - 2 := by
    rw [hsp]
    bv_omega
  have hlow : (enterInterrupt r status vector s).sp + 2 = s.sp - 1 := by
    rw [hsp]
    bv_omega
  have hhigh : (enterInterrupt r status vector s).sp + 3 = s.sp := by
    rw [hsp]
    bv_omega
  have kept : MemoryKept (pushFrame r status s) (enterInterrupt r status vector s) := by
    rw [hentry]
    exact .of_fields rfl rfl rfl rfl
  have hreturn := returnFromInterrupt_of_peek
    (hstatus ▸ (kept _).trans (peek_pushFrame_status r status s))
    (hlow ▸ (kept _).trans (peek_pushFrame_low r status s))
    (hhigh ▸ (kept _).trans (peek_pushFrame_high r status s))
  rw [hreturn, mkWord_hiByte_loByte, hhigh, hentry]
  refine ⟨?_, (pushFrame_memory r status s).trans_kept (.of_fields rfl rfl rfl rfl)⟩
  rw [pushFrame_eq]
  rfl

/-- The status byte of a hardware entry has B clear and U set already, so the pull changes nothing of it. -/
theorem pulledStatus_hardwareStatus (p : Byte) : pulledStatus (hardwareStatus p) = pulledStatus p := by
  apply status_ext
  intro f
  cases f <;> simp

/-- Settles O22: the two entries push by `enterInterrupt`, and both status bytes are pulled as P with B clear and U set. -/
theorem returnUndoesEntry : Obligations.ReturnUndoesEntry := by
  refine ⟨fun s => ?_, fun s => ?_⟩
  · have undone := returnFromInterrupt_enterInterrupt (vector := nmiVector) (by decide) (by decide) s.pc
      (hardwareStatus s.p) s
    rw [pulledStatus_hardwareStatus] at undone
    exact ⟨_, rfl, undone⟩
  · have undone := returnFromInterrupt_enterInterrupt (vector := irqVector) (by decide) (by decide) (s.pc + 1)
      (softwareStatus s.p) s
    rw [pulledStatus_softwareStatus] at undone
    exact ⟨_, _, rfl, rfl, undone⟩

end Sys2Proof.Machine
end

