-- ==== Sys2Proof/Proofs/Ppu.lean ====
section
/-! PROOFS of the statements about the PPU (61_ppu.md): the passing of PPU time, the frame, the scanlines, the PPU's
address space, and the registers. -/

namespace Sys2Proof.Machine

open Sys2Proof.Laws

/-! The passing of PPU time (R340, R346). -/

/-- All PPU cycles on record: those of the frames in the history, and those since the current frame began. -/
def elapsedTime (s : State) : Nat := frameCount s.events * frameTime + ppuTime s

theorem Quiet.elapsedTime_eq {s t : State} (h : Quiet s t) : elapsedTime t = elapsedTime s := by
  obtain ⟨l, hl, noFrame⟩ := h.history
  rw [elapsedTime, elapsedTime, ppuTime, ppuTime, h.cycle, h.scanline, hl, frameCount_append, noFrame]
  rfl

/-- `PPU.tick(n)` turns 3n PPU cycles into frames and a place within the frame, and loses none (D14). -/
theorem ppuTick_elapsedTime (n : Nat) {s : State} (h : s.ppu.scanline < 262) :
    elapsedTime (ppuTick n s) = elapsedTime s + 3 * n := by
  obtain ⟨htime, l, hl, hframes⟩ := ppuTick_count n s h
  rw [elapsedTime, elapsedTime, htime, hl, frameCount_append, hframes, frameTime]
  omega

theorem ppuTick_scanline_lt (n : Nat) {s : State} (h : s.ppu.scanline < 262) : (ppuTick n s).ppu.scanline < 262 := by
  obtain ⟨hline, -⟩ := advanceScanlines_count ((s.ppu.cycle + 3 * n) / 341)
    (s.setPpu { s.ppu with cycle := (s.ppu.cycle + 3 * n) % 341 }) h
  rw [ppuTick, hline]
  exact Nat.mod_lt _ (by decide)

theorem consumeNmi_quiet (s : State) : Quiet s (consumeNmi s) := .ofPpu id rfl (by simp) rfl rfl rfl rfl id

/-- The poll charges its entry's cycles to the PPU, or does nothing at all. -/
theorem pollInterrupts_cases (s : State) :
    (∃ u, Quiet s u ∧ pollInterrupts s = ppuTick (entryCycles s) u) ∨ (entryCycles s = 0 ∧ pollInterrupts s = s) := by
  cases hnmi : s.ppu.nmiPending
  case true =>
    refine .inl ⟨nmiEntry (consumeNmi s), (consumeNmi_quiet s).enterInterrupt _ _ _, ?_⟩
    simp [pollInterrupts_nmi hnmi, entryCycles, hnmi]
  case false =>
    cases hirq : s.irqLine
    case false => exact .inr ⟨by simp [entryCycles, hnmi, hirq], pollInterrupts_idle hnmi hirq⟩
    case true =>
      cases hi : isBitSet s.p .i
      case true => exact .inr ⟨by simp [entryCycles, hnmi, hi], pollInterrupts_masked hnmi hi⟩
      case false =>
        refine .inl ⟨irqEntry s, (Quiet.refl s).enterInterrupt _ _ _, ?_⟩
        simp [pollInterrupts_irq hnmi hirq hi, entryCycles, hnmi, hirq, hi]

theorem pollInterrupts_elapsedTime {s : State} (h : s.ppu.scanline < 262) :
    elapsedTime (pollInterrupts s) = elapsedTime s + 3 * entryCycles s ∧ (pollInterrupts s).ppu.scanline < 262 := by
  rcases pollInterrupts_cases s with ⟨u, quiet, hpoll⟩ | ⟨hfree, hpoll⟩
  · have hline : u.ppu.scanline < 262 := by rw [quiet.scanline]; exact h
    rw [hpoll]
    exact ⟨by rw [ppuTick_elapsedTime _ hline, quiet.elapsedTime_eq], ppuTick_scanline_lt _ hline⟩
  · rw [hpoll, hfree]
    exact ⟨(Nat.add_zero _).symm, h⟩

/-- The end of a tick passes the time of the cycles that the tick returns. -/
theorem endTick_elapsedTime (base : Nat) {s : State} (h : s.ppu.scanline < 262) :
    elapsedTime (endTick base s) = elapsedTime s + 3 * (endTick base s).tickCycles := by
  have hcycles : (endTick base s).tickCycles = base + s.extra + s.dmaStall := congrArg State.tickCycles (ppuTick_time _ _)
  rw [hcycles]
  exact ppuTick_elapsedTime _ (s := ((s.setExtra 0).setDmaStall 0).setTickCycles (base + s.extra + s.dmaStall)) h

/-- Within a tick, time passes in the poll and at the end, and nowhere between. -/
theorem step_elapsedTime {s t : State} (h : s.ppu.scanline < 262) (hstep : step s = .next t) :
    elapsedTime t = elapsedTime s + 3 * (entryCycles s + t.tickCycles) ∧ t.ppu.cycle < 341 ∧ t.ppu.scanline < 262 := by
  obtain ⟨base, u, quiet, rfl⟩ := step_next hstep
  obtain ⟨hpoll, hpollLine⟩ := pollInterrupts_elapsedTime h
  have between : Quiet (pollInterrupts s) u := ((Quiet.refl _).setExtra 0).trans quiet
  have hline : u.ppu.scanline < 262 := by rw [between.scanline]; exact hpollLine
  refine ⟨?_, ?_, ppuTick_scanline_lt _ hline⟩
  · rw [endTick_elapsedTime base hline, between.elapsedTime_eq, hpoll, Nat.mul_add, Nat.add_assoc]
  · rw [endTick, ppuTick_cycle]
    exact Nat.mod_lt _ (by decide)

/-- Settles O13: `step_elapsedTime`, divided by the length of a frame. -/
theorem ppuTimeIsConserved : Obligations.PpuTimeIsConserved := by
  intro s t h hstep
  obtain ⟨helapsed, hcycle, hline⟩ := step_elapsedTime h hstep
  have hplace : ppuTime t < 262 * 341 := by
    rw [ppuTime]
    omega
  simp only [elapsedTime, frameTime] at helapsed ⊢
  exact ⟨by omega, hcycle, by omega⟩

/-! The frame (R350 to R356). -/

/-- The bit of a byte as a digit of its number. -/
theorem getLsbD_toNat (b : Byte) (i : Nat) : (b.getLsbD i).toNat = b.toNat / 2 ^ i % 2 := Nat.toNat_testBit _ _

/-- Two neighbouring bits of a byte as a digit to base 4. -/
theorem byte_two_bits (b : Byte) (i : Nat) :
    b.toNat / 2 ^ i % 4 = (b.getLsbD i).toNat + 2 * (b.getLsbD (i + 1)).toNat := by
  rw [getLsbD_toNat, getLsbD_toNat, Nat.pow_succ, ← Nat.div_div_eq_div_mul]
  omega

theorem ppuReadAt_chr {a : Nat} (h : a < 0x2000) (s : State) : ppuReadAt s a = s.cfg.cart.chr.romRead a := by
  have ha : (BitVec.ofNat 16 a).toNat = a := by
    rw [BitVec.toNat_ofNat]
    exact Nat.mod_eq_of_lt (by omega)
  rw [ppuReadAt, ppuRead, if_pos (by omega), readChr, ha]

/-- Settles O18: both planes lie in CHR, and a quadrant's palette is `byte_two_bits` at its place. -/
theorem tileAndAttributeBits : Obligations.TileAndAttributeBits := by
  refine ⟨fun s bank id x y hbank _ hy => ?_, fun s nt row col _ _ _ => ?_⟩
  · have hid := id.isLt
    have hlow : ppuReadAt s (bank + 16 * id.toNat + y) = s.cfg.cart.chr.romRead (bank + 16 * id.toNat + y) :=
      ppuReadAt_chr (by omega) s
    have hhigh : ppuReadAt s (bank + 16 * id.toNat + y + 8) = s.cfg.cart.chr.romRead (bank + 16 * id.toNat + y + 8) :=
      ppuReadAt_chr (by omega) s
    simp only [tilePixel, hlow, hhigh, getLsbD_toNat]
    rfl
  · intro attr q
    have hq : row / 2 % 2 * 2 + col / 2 % 2 = q := by
      simp only [q]
      split <;> split <;> omega
    rw [attrPalette, hq, BitVec.toNat_ushiftRight, Nat.shiftRight_eq_div_pow]
    exact byte_two_bits attr (2 * q)

/-- The sprites of slots below `n`, painted from the highest down, leave the pixel of the lowest opaque one, or else what was
there. -/
theorem paintSprites_lowest (s : State) (py px n : Nat) (under : BitVec 6) :
    let c := (List.range n).reverse.foldl (paintSprite s py px) under
    (∃ k, k < n ∧ spritePixel s k py px = some c ∧ ∀ j, j < k → spritePixel s j py px = none) ∨
      ((∀ k, k < n → spritePixel s k py px = none) ∧ c = under) := by
  induction n generalizing under with
  | zero => exact .inr ⟨fun k hk => absurd hk (Nat.not_lt_zero k), rfl⟩
  | succ n ih =>
    simp only [List.range_succ, List.reverse_append, List.reverse_singleton, List.singleton_append, List.foldl_cons]
    rcases ih (paintSprite s py px under n) with ⟨k, hk, hopaque, hlowest⟩ | ⟨hclear, hc⟩
    · exact .inl ⟨k, Nat.lt_succ_of_lt hk, hopaque, hlowest⟩
    · rw [hc, paintSprite]
      cases hn : spritePixel s n py px with
      | some colour => exact .inl ⟨n, Nat.lt_succ_self n, hn, hclear⟩
      | none =>
        refine .inr ⟨fun k hk => ?_, rfl⟩
        rcases Nat.lt_succ_iff_lt_or_eq.1 hk with hk | rfl
        · exact hclear k hk
        · exact hn

/-- Settles O17: a frame is a grid of `pixel`, and a pixel is `paintSprites_lowest` over the background. -/
theorem framePixelPriority : Obligations.FramePixelPriority := by
  refine fun s => ⟨by simp [renderFrame], fun py hpy => ⟨(List.range 256).map (pixel s py), ?_, by simp, fun px hpx =>
    ⟨pixel s py px, by simp [hpx], paintSprites_lowest s py px 64 (backgroundPixel s py px)⟩⟩⟩
  simp [renderFrame, hpy]

section
variable {s t : State} (memory : PpuMemoryKept s t) (cart : t.cfg.cart = s.cfg.cart)
include memory

theorem colour_congr : colour t = colour s := by
  funext i
  rw [colour, colour, paletteByte, paletteByte, memory.2.2]

theorem oamByte_congr : oamByte t = oamByte s := by
  funext i
  rw [oamByte, oamByte, memory.2.1]

include cart

theorem ppuReadAt_congr : ppuReadAt t = ppuReadAt s := by
  funext a
  simp only [ppuReadAt, ppuRead, vramByte, paletteByte, cart, memory.1, memory.2.2]

theorem tilePixel_congr : tilePixel t = tilePixel s := by
  funext bank id x y
  simp only [tilePixel, ppuReadAt_congr memory cart]

theorem attrPalette_congr : attrPalette t = attrPalette s := by
  funext nt row col
  simp only [attrPalette, ppuReadAt_congr memory cart]

/-- The background reads the PPU's address space and Control's nametable and background bank. -/
theorem backgroundPixel_congr (hnt : baseNametable t.ppu.ctrl = baseNametable s.ppu.ctrl)
    (hbank : backgroundBank t.ppu.ctrl = backgroundBank s.ppu.ctrl) : backgroundPixel t = backgroundPixel s := by
  funext py px
  simp only [backgroundPixel, hnt, hbank, tilePixel_congr memory cart, ppuReadAt_congr memory cart,
    attrPalette_congr memory cart, colour_congr memory]

/-- A sprite reads OAM, the pattern tables, the palette and Control's sprite bank. -/
theorem spritePixel_congr (hbank : spriteBank t.ppu.ctrl = spriteBank s.ppu.ctrl) : spritePixel t = spritePixel s := by
  funext k py px
  simp only [spritePixel, hbank, oamByte_congr memory, tilePixel_congr memory cart, colour_congr memory]

theorem renderFrame_congr (hnt : baseNametable t.ppu.ctrl = baseNametable s.ppu.ctrl)
    (hbackground : backgroundBank t.ppu.ctrl = backgroundBank s.ppu.ctrl)
    (hsprite : spriteBank t.ppu.ctrl = spriteBank s.ppu.ctrl) : renderFrame t = renderFrame s := by
  have paint : paintSprite t = paintSprite s := by
    funext py px under k
    rw [paintSprite, paintSprite, spritePixel_congr memory cart hsprite]
  simp only [renderFrame, pixel, paint, backgroundPixel_congr memory cart hnt hbackground]

end

/-- Settles O19: `renderFrame_congr`, whose three fields of Control are made of bits 0 and 1, bit 4, and bit 3. -/
theorem frameDependsOnPpuMemoryOnly : Obligations.FrameDependsOnPpuMemoryOnly := by
  intro s t memory cart hbits
  have hnt : t.ppu.ctrl.toNat % 4 = s.ppu.ctrl.toNat % 4 := by
    have digit := fun b => byte_two_bits b 0
    simp only [Nat.pow_zero, Nat.div_one, Nat.zero_add] at digit
    rw [digit, digit, hbits 0 (by simp), hbits 1 (by simp)]
  refine renderFrame_congr memory cart ?_ ?_ ?_
  · rw [baseNametable, baseNametable, hnt]
  · rw [backgroundBank, backgroundBank, hbits 4 (by simp)]
  · rw [spriteBank, spriteBank, hbits 3 (by simp)]

/-! The scanlines (R340 to R345). -/

theorem advanceScanline_to_241 {s : State} (h : s.ppu.scanline = 240) :
    advanceScanline s = enterVBlank (bumpScanline (sprite0Check s.ppu.scanline s)) := by
  have hline : (bumpScanline (sprite0Check s.ppu.scanline s)).ppu.scanline = 241 := by simp [bumpScanline, h]
  rw [advanceScanline, reachScanline, if_pos hline]

theorem advanceScanline_to_262 {s : State} (h : s.ppu.scanline = 261) :
    advanceScanline s = endFrame (bumpScanline (sprite0Check s.ppu.scanline s)) := by
  have hline : (bumpScanline (sprite0Check s.ppu.scanline s)).ppu.scanline = 262 := by simp [bumpScanline, h]
  rw [advanceScanline, reachScanline, if_neg (by omega), if_pos hline]

theorem advanceScanline_between {s : State} (h : s.ppu.scanline ≠ 240) (h' : s.ppu.scanline ≠ 261) :
    advanceScanline s = bumpScanline (sprite0Check s.ppu.scanline s) := by
  have hline : (bumpScanline (sprite0Check s.ppu.scanline s)).ppu.scanline = s.ppu.scanline + 1 := by simp [bumpScanline]
  rw [advanceScanline, reachScanline, if_neg (by omega), if_neg (by omega)]

/-- Settles O16: one case for each of the three branches. -/
theorem scanlineEvents : Obligations.ScanlineEvents := by
  intro s u
  refine ⟨fun h => ?_, fun h => ⟨_, rfl, ?_⟩, fun h h' => ?_⟩
  · have hpending : (u.ppu.nmiPending || u.ppu.ctrl.getLsbD 7) =
        if u.ppu.ctrl.getLsbD 7 then true else u.ppu.nmiPending := by
      cases u.ppu.ctrl.getLsbD 7 <;> simp
    have hline : u.ppu.scanline + 1 = 241 := by simp [u, h]
    rw [advanceScanline_to_241 h, ← hpending, ← hline]
    rfl
  · rw [advanceScanline_to_262 h]
    rfl
  · have hline : u.ppu.scanline = s.ppu.scanline := sprite0Check_scanline _ s
    have hbump : advanceScanline s = bumpScanline u := advanceScanline_between h h'
    rw [hbump, ← hline]
    rfl

/-! The loop of `PPU.tick` (R340). -/

/-- The cycle counter set. -/
def setCycle (c : Nat) (s : State) : State := s.setPpu { s.ppu with cycle := c }

theorem ppuTick_eq (n : Nat) (s : State) :
    ppuTick n s = advanceScanlines ((s.ppu.cycle + 3 * n) / 341) (setCycle ((s.ppu.cycle + 3 * n) % 341) s) := rfl

theorem setCycle_setCycle (c d : Nat) (s : State) : setCycle c (setCycle d s) = setCycle c s := rfl

theorem sprite0Check_setCycle (c line : Nat) (s : State) :
    sprite0Check line (setCycle c s) = setCycle c (sprite0Check line s) := by
  rw [sprite0Check, sprite0Check, apply_ite (setCycle c)]
  rfl

/-- The frame does not show the cycle counter. -/
theorem renderFrame_setCycle (c : Nat) (s : State) : renderFrame (setCycle c s) = renderFrame s :=
  renderFrame_congr ⟨rfl, rfl, rfl⟩ rfl rfl rfl rfl

theorem endFrame_setCycle (c : Nat) (s : State) : endFrame (setCycle c s) = setCycle c (endFrame s) := by
  have hframe : renderFrame (wrapScanline (setCycle c s)) = renderFrame (wrapScanline s) :=
    renderFrame_setCycle c (wrapScanline s)
  rw [endFrame, hframe]
  rfl

/-- Nothing that a scanline does depends on the cycle counter. -/
theorem advanceScanline_setCycle (c : Nat) (s : State) :
    advanceScanline (setCycle c s) = setCycle c (advanceScanline s) := by
  have hline : (setCycle c s).ppu.scanline = s.ppu.scanline := rfl
  have hcheck := sprite0Check_setCycle c s.ppu.scanline s
  by_cases h : s.ppu.scanline = 240
  · rw [advanceScanline_to_241 h, advanceScanline_to_241 (hline.trans h), hline, hcheck]
    rfl
  by_cases h' : s.ppu.scanline = 261
  · rw [advanceScanline_to_262 h', advanceScanline_to_262 (hline.trans h'), hline, hcheck, ← endFrame_setCycle]
    rfl
  · rw [advanceScanline_between h h', advanceScanline_between (s := setCycle c s) h h', hline, hcheck]
    rfl

theorem ppuTick_of_lt {n : Nat} {s : State} (h : s.ppu.cycle + 3 * n < 341) :
    ppuTick n s = setCycle (s.ppu.cycle + 3 * n) s := by
  rw [ppuTick_eq, Nat.div_eq_of_lt h, Nat.mod_eq_of_lt h]
  rfl

/-- A crossing is one scanline advance, then the loop again on what is left of the counter. -/
theorem ppuTick_of_ge {n : Nat} {s : State} (h : 341 ≤ s.ppu.cycle + 3 * n) :
    ppuTick n s = ppuTick 0 (advanceScanline (setCycle (s.ppu.cycle + 3 * n - 341) s)) := by
  generalize hc : s.ppu.cycle + 3 * n = c at h
  have hcycle : (advanceScanline (setCycle (c - 341) s)).ppu.cycle + 3 * 0 = c - 341 := advanceScanline_cycle _
  have hrest : setCycle ((c - 341) % 341) (advanceScanline (setCycle (c - 341) s)) =
      advanceScanline (setCycle (c % 341) s) := by
    rw [← advanceScanline_setCycle, setCycle_setCycle, ← Nat.mod_eq_sub_mod h]
  rw [ppuTick_eq, ppuTick_eq, hc, hcycle, hrest, show c / 341 = (c - 341) / 341 + 1 by omega]
  rfl

/-! Sprite 0 (R345). -/

theorem sprite0Check_never {s : State} (h : s.cfg.sprite0HitPolicy = .never) (line : Nat) : sprite0Check line s = s := by
  simp [sprite0Check, h]

/-- Under the policy `never`, with SpriteHitZero 0. -/
def NeverHit (s : State) : Prop := s.cfg.sprite0HitPolicy = .never ∧ s.ppu.spriteHitZero = false

theorem Quiet.neverHit {s t : State} (q : Quiet s t) (h : NeverHit s) : NeverHit t := by
  rw [NeverHit, q.cfg, q.hit]
  exact h

/-- A scanline sets SpriteHitZero in the check only. -/
theorem advanceScanline_neverHit {s : State} (h : NeverHit s) : NeverHit (advanceScanline s) := by
  refine ⟨(congrArg RunConfig.sprite0HitPolicy (congrArg State.cfg (advanceScanline_time s))).trans h.1, ?_⟩
  by_cases h240 : s.ppu.scanline = 240
  · rw [advanceScanline_to_241 h240]
    rfl
  by_cases h261 : s.ppu.scanline = 261
  · rw [advanceScanline_to_262 h261]
    rfl
  · rw [advanceScanline_between h240 h261, sprite0Check_never h.1]
    exact h.2

theorem advanceScanlines_neverHit (n : Nat) {s : State} (h : NeverHit s) : NeverHit (advanceScanlines n s) := by
  induction n generalizing s with
  | zero => exact h
  | succ n ih => exact ih (advanceScanline_neverHit h)

theorem ppuTick_neverHit (n : Nat) {s : State} (h : NeverHit s) : NeverHit (ppuTick n s) := advanceScanlines_neverHit _ h

theorem pollInterrupts_neverHit {s : State} (h : NeverHit s) : NeverHit (pollInterrupts s) := by
  rcases pollInterrupts_cases s with ⟨u, quiet, hpoll⟩ | ⟨-, hpoll⟩
  · rw [hpoll]
    exact ppuTick_neverHit _ (quiet.neverHit h)
  · rw [hpoll]
    exact h

theorem step_neverHit {s t : State} (h : NeverHit s) (hstep : step s = .next t) : NeverHit t := by
  obtain ⟨base, u, quiet, rfl⟩ := step_next hstep
  have between : Quiet (pollInterrupts s) u := ((Quiet.refl _).setExtra 0).trans quiet
  exact ppuTick_neverHit _ (between.neverHit (pollInterrupts_neverHit h))

/-- Settles O15: `ppuTick_of_lt` and `ppuTick_of_ge` are the loop, and `step_neverHit` the policy `never`. -/
theorem scanlineLoop : Obligations.ScanlineLoop := by
  refine ⟨fun n s => ⟨ppuTick_of_lt, ppuTick_of_ge⟩, fun n s => ite_congr (propext ?_) (fun _ => rfl) fun _ => rfl,
    fun s t hpolicy hhit hstep => (step_neverHit ⟨hpolicy, hhit⟩ hstep).2⟩
  rw [and_comm, and_assoc, and_assoc]

/-! The PPU's address space (R330 to R334): one rule for a read and one for a write in each range. -/

theorem ppuRead_pattern {a : Word} (h : a.toNat ≤ 0x1FFF) (s : State) : ppuRead a s = readChr s.cfg.cart a := if_pos h

theorem ppuRead_nametable {a : Word} (h : 0x2000 ≤ a.toNat ∧ a.toNat ≤ 0x3EFF) (s : State) :
    ppuRead a s = vramByte s (ntIndex s.cfg.cart.mirroring a) := by
  rw [ppuRead, if_neg (by omega), if_pos h.2]

theorem ppuRead_palette {a : Word} (h : 0x3F00 ≤ a.toNat) (s : State) : ppuRead a s = paletteByte s (palIndex a) := by
  rw [ppuRead, if_neg (by omega), if_neg (by omega)]

theorem ppuWrite_pattern {a : Word} (h : a.toNat ≤ 0x1FFF) (v : Byte) (s : State) :
    ppuWrite a v s = s.emit (.diag .romWrite a) := if_pos h

theorem ppuWrite_nametable {a : Word} (h : 0x2000 ≤ a.toNat ∧ a.toNat ≤ 0x3EFF) (v : Byte) (s : State) :
    ppuWrite a v s = s.setPpu { s.ppu with vram := s.ppu.vram.set (ntIndex s.cfg.cart.mirroring a) v } := by
  rw [ppuWrite, if_neg (by omega), if_pos h.2]

theorem ppuWrite_palette {a : Word} (h : 0x3F00 ≤ a.toNat) (v : Byte) (s : State) :
    ppuWrite a v s = s.setPpu { s.ppu with palette := s.ppu.palette.set (palIndex a) v } := by
  rw [ppuWrite, if_neg (by omega), if_neg (by omega)]

theorem read_set (store : Store) (m : Memory) (i j : Nat) (v : Byte) :
    (m.set i v).read store j = if j = i then v else m.read store j := by
  by_cases h : j = i
  · rw [if_pos h, h, read_set_same]
  · rw [if_neg h, read_set_other store m v (Ne.symm h)]

/-- A byte written to the nametables is read at the addresses with its VRAM index. -/
theorem ppuRead_ppuWrite_nametable {a b : Word} (ha : 0x2000 ≤ a.toNat ∧ a.toNat ≤ 0x3EFF)
    (hb : 0x2000 ≤ b.toNat ∧ b.toNat ≤ 0x3EFF) (v : Byte) (s : State) :
    ppuRead b (ppuWrite a v s) =
      if ntIndex s.cfg.cart.mirroring b = ntIndex s.cfg.cart.mirroring a then v else ppuRead b s := by
  rw [ppuRead_nametable hb, ppuRead_nametable hb, ppuWrite_nametable ha]
  exact read_set .vram _ _ _ v

/-- A byte written to the palette is read at the addresses with its entry. -/
theorem ppuRead_ppuWrite_palette {a b : Word} (ha : 0x3F00 ≤ a.toNat) (hb : 0x3F00 ≤ b.toNat) (v : Byte) (s : State) :
    ppuRead b (ppuWrite a v s) = if palIndex b = palIndex a then v else ppuRead b s := by
  rw [ppuRead_palette hb, ppuRead_palette hb, ppuWrite_palette ha]
  exact read_set .palette _ _ _ v

/-- A VRAM index is a physical table of 0x400 bytes and an offset in it, so equal indices agree in both. -/
theorem ntIndex_eq_iff (m : Mirroring) (a b : Word) :
    ntIndex m a = ntIndex m b ↔ a.toNat % 0x400 = b.toNat % 0x400 ∧
      (m = .horizontal ∧ (a.toNat - 0x2000) % 0x1000 / 0x400 / 2 = (b.toNat - 0x2000) % 0x1000 / 0x400 / 2 ∨
        m = .vertical ∧ (a.toNat - 0x2000) % 0x1000 / 0x400 % 2 = (b.toNat - 0x2000) % 0x1000 / 0x400 % 2) := by
  cases m
  case horizontal =>
    simp only [ntIndex, true_and, reduceCtorEq, false_and, or_false]
    omega
  case vertical =>
    simp only [ntIndex, true_and, reduceCtorEq, false_and, false_or]
    omega

/-- Settles O58: `ntIndex_eq_iff` says which addresses are one byte, and a write shows where the indices agree. -/
theorem nametableMirroring : Obligations.NametableMirroring := by
  intro m a b ha ha' hb hb' table same
  have hsame : ntIndex m a = ntIndex m b ↔ same := ntIndex_eq_iff m a b
  refine ⟨hsame, ntIndex_lt m a, fun s v hm => ?_⟩
  rw [ppuRead_ppuWrite_nametable ⟨ha, ha'⟩ ⟨hb, hb'⟩, hm]
  exact ⟨fun h => if_pos (hsame.2 h).symm, fun h => if_neg fun heq => h (hsame.1 heq.symm)⟩

/-- From 0x3F00 on, which is a multiple of 32, the palette entry is the address modulo 32, folded. -/
theorem palIndex_eq_fold {a : Word} (h : 0x3F00 ≤ a.toNat) :
    palIndex a = if a.toNat % 32 ∈ [0x10, 0x14, 0x18, 0x1C] then a.toNat % 32 - 0x10 else a.toNat % 32 := by
  have hindex : (a.toNat - 0x3F00) % 32 = a.toNat % 32 := by omega
  rw [palIndex, hindex]
  exact ite_congr (by simp) (fun _ => rfl) fun _ => rfl

/-- The four entries that fold away are never reached. -/
theorem palIndex_not_mem (a : Word) : palIndex a ∉ [0x10, 0x14, 0x18, 0x1C] := by
  simp only [palIndex, List.mem_cons, List.not_mem_nil, or_false]
  split <;> omega

/-- Settles O59: `palIndex_eq_fold` says which addresses are one entry, and a write shows where the entries agree. -/
theorem paletteMirrors : Obligations.PaletteMirrors := by
  intro a b ha _ hb _ fold
  have hsame : palIndex a = palIndex b ↔ fold a = fold b := by rw [palIndex_eq_fold ha, palIndex_eq_fold hb]
  refine ⟨hsame, palIndex_lt a, palIndex_not_mem a, fun s v => ?_⟩
  rw [ppuRead_ppuWrite_palette ha hb]
  exact ⟨fun h => if_pos (hsame.2 h).symm, fun h => if_neg fun heq => h (hsame.1 heq.symm)⟩

/-! Words of PPU space: the 14-bit mask (D16) and the two halves of `PPU.v`. -/

theorem and_3FFF_eq_ofNat (w : Word) : w &&& 0x3FFF = BitVec.ofNat 16 (w.toNat % 0x4000) := by
  apply BitVec.eq_of_toNat_eq
  have hmask : w.toNat &&& 0x3FFF = w.toNat % 0x4000 := Nat.and_two_pow_sub_one_eq_mod _ 14
  rw [BitVec.toNat_and, BitVec.toNat_ofNat]
  exact hmask.trans (Nat.mod_eq_of_lt (by omega)).symm

theorem ppuIncrement_toNat (ctrl : Byte) : (ppuIncrement ctrl).toNat = if ctrl.getLsbD 2 = true then 32 else 1 := by
  rw [ppuIncrement]
  split <;> rfl

theorem nextV_eq_ofNat (ppu : Ppu) :
    nextV ppu = BitVec.ofNat 16 ((ppu.v.toNat + (if ppu.ctrl.getLsbD 2 = true then 32 else 1)) % 0x4000) := by
  rw [nextV, and_3FFF_eq_ofNat, BitVec.toNat_add, ppuIncrement_toNat, Nat.mod_mod_of_dvd _ (by decide)]

theorem loByte_toNat (w : Word) : (loByte w).toNat = w.toNat % 256 := by simp [loByte]

theorem hiByte_toNat (w : Word) : (hiByte w).toNat = w.toNat / 256 := by
  have hw := w.isLt
  simp only [hiByte, BitVec.extractLsb'_toNat, Nat.shiftRight_eq_div_pow]
  omega

theorem zext16_eq_mkWord (v : Byte) : zext16 v = mkWord 0#8 v := by
  apply BitVec.eq_of_toNat_eq
  simp [zext16_toNat]

theorem zext16_shiftLeft_eq_mkWord (v : Byte) : zext16 v <<< 8 = mkWord v 0#8 := by
  apply BitVec.eq_of_toNat_eq
  have hv := v.isLt
  rw [BitVec.toNat_shiftLeft, zext16_toNat, mkWord_toNat, Nat.shiftLeft_eq, BitVec.toNat_zero]
  omega

/-- A new high byte over the kept low byte of a word. -/
theorem highByte_or_kept (v : Byte) (w : Word) : (zext16 v <<< 8) ||| (w &&& 0x00FF) = mkWord v (loByte w) :=
  calc (zext16 v <<< 8) ||| (w &&& 0x00FF)
      = mkWord v 0#8 ||| (mkWord (hiByte w) (loByte w) &&& mkWord 0#8 (BitVec.allOnes 8)) := by
        rw [mkWord_hiByte_loByte, zext16_shiftLeft_eq_mkWord]
        rfl
    _ = mkWord (v ||| (hiByte w &&& 0#8)) (0#8 ||| (loByte w &&& BitVec.allOnes 8)) := by
        rw [BitVec.and_append, BitVec.or_append]
    _ = mkWord v (loByte w) := by rw [BitVec.and_zero, BitVec.or_zero, BitVec.and_allOnes, BitVec.zero_or]

/-- A new low byte under the kept high byte of a word. -/
theorem kept_or_lowByte (w : Word) (v : Byte) : (w &&& 0xFF00) ||| zext16 v = mkWord (hiByte w) v :=
  calc (w &&& 0xFF00) ||| zext16 v
      = (mkWord (hiByte w) (loByte w) &&& mkWord (BitVec.allOnes 8) 0#8) ||| mkWord 0#8 v := by
        rw [mkWord_hiByte_loByte, zext16_eq_mkWord]
        rfl
    _ = mkWord ((hiByte w &&& BitVec.allOnes 8) ||| 0#8) ((loByte w &&& 0#8) ||| v) := by
        rw [BitVec.and_append, BitVec.or_append]
    _ = mkWord (hiByte w) v := by rw [BitVec.and_allOnes, BitVec.or_zero, BitVec.and_zero, BitVec.zero_or]

/-! The registers (R311 to R323). -/

theorem memWrite_nesMap_ppu {a : Word} {s : State} (hbus : s.cfg.bus = .nesMap)
    (h : 0x2000 ≤ a.toNat ∧ a.toNat ≤ 0x3FFF) (v : Byte) : memWrite a v s = ppuRegWrite a v s := by
  have howner : ownerOf s.cfg.bus a = some .ppu := by rw [hbus, ownerOf_nesMap_ppu h]
  simp only [memWrite, howner]

/-! The register that an address selects (R311). -/

section
variable {a : Word} (v : Byte) (s : State)

theorem ppuRegWrite_control (h : a.toNat % 8 = 0) : ppuRegWrite a v s = controlWrite v s := by
  simp only [ppuRegWrite, ppuReg, h]

theorem ppuRegWrite_mask (h : a.toNat % 8 = 1) : ppuRegWrite a v s = s.setPpu { s.ppu with mask := v } := by
  simp only [ppuRegWrite, ppuReg, h]

theorem ppuRegWrite_status (h : a.toNat % 8 = 2) : ppuRegWrite a v s = s := by
  simp only [ppuRegWrite, ppuReg, h]

theorem ppuRegWrite_oamAddr (h : a.toNat % 8 = 3) : ppuRegWrite a v s = s.setPpu { s.ppu with oamAddr := v } := by
  simp only [ppuRegWrite, ppuReg, h]

theorem ppuRegWrite_oamData (h : a.toNat % 8 = 4) : ppuRegWrite a v s = oamDataWrite v s := by
  simp only [ppuRegWrite, ppuReg, h]

theorem ppuRegWrite_scroll (h : a.toNat % 8 = 5) : ppuRegWrite a v s = scrollWrite v s := by
  simp only [ppuRegWrite, ppuReg, h]

theorem ppuRegWrite_addr (h : a.toNat % 8 = 6) : ppuRegWrite a v s = addrWrite v s := by
  simp only [ppuRegWrite, ppuReg, h]

theorem ppuRegWrite_data (h : a.toNat % 8 = 7) : ppuRegWrite a v s = dataWrite v s := by
  simp only [ppuRegWrite, ppuReg, h]

end

/-! What each register's write does. -/

/-- The NMI rises with Control bit 7 in VBlank (R312). -/
theorem raised_eq_ite (pending old new vblank : Bool) :
    (pending || (!old && new && vblank)) = if old = false ∧ new = true ∧ vblank = true then true else pending := by
  revert pending old new vblank
  decide

theorem controlWrite_eq (v : Byte) (s : State) : controlWrite v s = { s with ppu := { s.ppu with
    ctrl := v
    nmiPending := if s.ppu.ctrl.getLsbD 7 = false ∧ v.getLsbD 7 = true ∧ s.ppu.vblank = true then true
      else s.ppu.nmiPending } } := by
  rw [← raised_eq_ite]
  rfl

theorem scrollWrite_first {s : State} (h : s.ppu.scrollLatch = .first) (v : Byte) :
    scrollWrite v s = s.setPpu { s.ppu with scrollX := v, scrollLatch := .second } := by
  simp only [scrollWrite, h]

theorem scrollWrite_second {s : State} (h : s.ppu.scrollLatch = .second) (v : Byte) :
    scrollWrite v s = s.setPpu { s.ppu with scrollY := v, scrollLatch := .first } := by
  simp only [scrollWrite, h]

theorem addrWrite_high {s : State} (h : s.ppu.addrLatch = .high) (v : Byte) :
    addrWrite v s = s.setPpu { s.ppu with
      v := BitVec.ofNat 16 ((v.toNat * 256 + s.ppu.v.toNat % 256) % 0x4000), addrLatch := .low } := by
  rw [← loByte_toNat, ← mkWord_toNat, ← and_3FFF_eq_ofNat, ← highByte_or_kept]
  simp only [addrWrite, h]

theorem addrWrite_low {s : State} (h : s.ppu.addrLatch = .low) (v : Byte) :
    addrWrite v s = s.setPpu { s.ppu with
      v := BitVec.ofNat 16 ((s.ppu.v.toNat / 256 * 256 + v.toNat) % 0x4000), addrLatch := .high } := by
  rw [← hiByte_toNat, ← mkWord_toNat, ← and_3FFF_eq_ofNat, ← kept_or_lowByte]
  simp only [addrWrite, h]

/-- Two Addr writes from the latch High set `PPU.v` whole, and leave the latch High (D15). -/
theorem addrWrite_pair {s : State} (h : s.ppu.addrLatch = .high) (hi lo : Byte) :
    addrWrite lo (addrWrite hi s) = s.setPpu { s.ppu with v := BitVec.ofNat 16 ((hi.toNat * 256 + lo.toNat) % 0x4000) } := by
  have hv : ((hi.toNat * 256 + s.ppu.v.toNat % 256) % 0x4000 % 2 ^ 16 / 256 * 256 + lo.toNat) % 0x4000 =
      (hi.toNat * 256 + lo.toNat) % 0x4000 := by
    have hlo := lo.isLt
    omega
  rw [addrWrite_high h, addrWrite_low rfl, setPpu_ppu, BitVec.toNat_ofNat, hv, ← h]
  rfl

/-- The OAM write is one byte at OAMAddr, which then moves on. -/
theorem oamDataWrite_effect (v : Byte) (s : State) :
    let t := oamDataWrite v s
    t = { s with ppu := { s.ppu with oam := t.ppu.oam, oamAddr := s.ppu.oamAddr + 1 } } ∧
      oamByte t s.ppu.oamAddr.toNat = v ∧ ∀ i, i ≠ s.ppu.oamAddr.toNat → oamByte t i = oamByte s i :=
  ⟨rfl, read_set_same .oam _ _ v, fun _ hi => read_set_other .oam _ v hi.symm⟩

/-- Settles O55: the address modulo 8 selects the register, and each clause is the equation of that register's write. -/
theorem ppuRegisterWrites : Obligations.PpuRegisterWrites := by
  intro s a v hbus hlow hhigh t
  have hwrite : t = ppuRegWrite a v s := memWrite_nesMap_ppu hbus ⟨hlow, hhigh⟩ v
  rw [hwrite]
  refine ⟨fun h => ?_, fun h => ppuRegWrite_mask v s h, fun h => ppuRegWrite_status v s h,
    fun h => ppuRegWrite_oamAddr v s h, fun h => ?_, fun h => ?_, fun h => ?_⟩
  · rw [ppuRegWrite_control v s h, controlWrite_eq]
  · rw [ppuRegWrite_oamData v s h]
    exact oamDataWrite_effect v s
  · rw [ppuRegWrite_scroll v s h]
    cases hlatch : s.ppu.scrollLatch with
    | first => exact scrollWrite_first hlatch v
    | second => exact scrollWrite_second hlatch v
  · rw [ppuRegWrite_addr v s h]
    cases hlatch : s.ppu.addrLatch with
    | high => exact addrWrite_high hlatch v
    | low => exact addrWrite_low hlatch v

/-! The Data register (R317, R318). -/

theorem memRead_nesMap_data {a : Word} {s : State} (hbus : s.cfg.bus = .nesMap)
    (h : 0x2000 ≤ a.toNat ∧ a.toNat ≤ 0x3FFF) (hreg : a.toNat % 8 = 7) : memRead a s = dataRead s :=
  (memRead_ppu (by rw [hbus, ownerOf_nesMap_ppu h])).trans (ppuRegRead_data s hreg)

theorem dataRead_below {s : State} (h : s.ppu.v.toNat < 0x3F00) :
    dataRead s = (s.ppu.buffer, s.setPpu { s.ppu with buffer := ppuRead s.ppu.v s, v := nextV s.ppu }) :=
  if_neg (by omega)

theorem dataRead_palette {s : State} (h : 0x3F00 ≤ s.ppu.v.toNat) :
    dataRead s = (paletteByte s (palIndex s.ppu.v), s.setPpu { s.ppu with v := nextV s.ppu }) := by
  rw [dataRead, if_pos h, ppuRead_palette h]

/-- Settles O56: one equation for each side of 0x3F00; the second read gives the buffer that the first one filled. -/
theorem dataReadIsBuffered : Obligations.DataReadIsBuffered := by
  intro s a hbus hlow hhigh hreg next
  have hread : ∀ u : State, u.cfg.bus = .nesMap → memRead a u = dataRead u := fun u hu =>
    memRead_nesMap_data hu ⟨hlow, hhigh⟩ hreg
  have hnext : nextV s.ppu = next := nextV_eq_ofNat s.ppu
  rw [hread s hbus, ← hnext]
  refine ⟨dataRead_below, dataRead_palette, fun h hagain => ?_⟩
  have hbus' : (dataRead s).2.cfg.bus = .nesMap := by rw [dataRead_below h]; exact hbus
  have hv' : (dataRead s).2.ppu.v.toNat < 0x3F00 := by rw [dataRead_below h]; exact hagain
  rw [hread _ hbus', dataRead_below hv', dataRead_below h]
  rfl

theorem dataWrite_pattern {s : State} (h : s.ppu.v.toNat ≤ 0x1FFF) (v : Byte) :
    dataWrite v s = (s.emit (.diag .romWrite s.ppu.v)).setPpu { s.ppu with v := nextV s.ppu } := by
  rw [dataWrite, ppuWrite_pattern h]
  rfl

theorem dataWrite_nametable {s : State} (h : 0x2000 ≤ s.ppu.v.toNat ∧ s.ppu.v.toNat ≤ 0x3EFF) (v : Byte) :
    dataWrite v s = s.setPpu { s.ppu with
      v := nextV s.ppu, vram := s.ppu.vram.set (ntIndex s.cfg.cart.mirroring s.ppu.v) v } := by
  rw [dataWrite, ppuWrite_nametable h]
  rfl

theorem dataWrite_palette {s : State} (h : 0x3F00 ≤ s.ppu.v.toNat) (v : Byte) :
    dataWrite v s = s.setPpu { s.ppu with
      v := nextV s.ppu, palette := s.ppu.palette.set (palIndex s.ppu.v) v } := by
  rw [dataWrite, ppuWrite_palette h]
  rfl

theorem ntIndex_2305 (m : Mirroring) : ntIndex m 0x2305 = 0x305 := by cases m <;> decide

/-- The write of R318's example: Addr 0x23, Addr 0x05, Data 0x66. -/
theorem dataWrite_at_2305 {s : State} (hbus : s.cfg.bus = .nesMap) (hlatch : s.ppu.addrLatch = .high) :
    memWrite 0x2007 0x66 (memWrite 0x2006 0x05 (memWrite 0x2006 0x23 s)) = s.setPpu { s.ppu with
      v := (0x2305 + ppuIncrement s.ppu.ctrl) &&& 0x3FFF, vram := s.ppu.vram.set 0x305 0x66 } := by
  have haddr : ∀ (u : State) (v : Byte), u.cfg.bus = .nesMap → memWrite 0x2006 v u = addrWrite v u := fun u v hu =>
    (memWrite_nesMap_ppu hu (by decide) v).trans (ppuRegWrite_addr v u (by decide))
  have hdata : ∀ (u : State) (v : Byte), u.cfg.bus = .nesMap → memWrite 0x2007 v u = dataWrite v u := fun u v hu =>
    (memWrite_nesMap_ppu hu (by decide) v).trans (ppuRegWrite_data v u (by decide))
  have hcfg : (memWrite 0x2006 0x23 s).cfg.bus = .nesMap := by rw [memWrite_cfg, hbus]
  have hpair : memWrite 0x2006 0x05 (memWrite 0x2006 0x23 s) = s.setPpu { s.ppu with v := 0x2305 } := by
    rw [haddr _ _ hcfg, haddr _ _ hbus, addrWrite_pair hlatch]
    rfl
  rw [hpair, hdata, dataWrite_nametable, setPpu_ppu, setPpu_cfg, ntIndex_2305]
  · rfl
  · exact (by decide : 0x2000 ≤ (0x2305 : Word).toNat ∧ (0x2305 : Word).toNat ≤ 0x3EFF)
  · exact hbus

/-- Settles O57: a read and a write of PPU space by its three ranges, and the example as `dataWrite_at_2305`. -/
theorem dataWriteReachesPpuSpace : Obligations.DataWriteReachesPpuSpace := by
  refine ⟨fun a s => ⟨fun h => ppuRead_pattern h s, fun h => ppuRead_nametable h s, fun h => ppuRead_palette h s⟩,
    fun s a v hbus hlow hhigh hreg => ?_, fun s hbus hlatch hincrement => ?_⟩
  · intro t next
    have hnext : nextV s.ppu = next := nextV_eq_ofNat s.ppu
    have hwrite : t = dataWrite v s := (memWrite_nesMap_ppu hbus ⟨hlow, hhigh⟩ v).trans (ppuRegWrite_data v s hreg)
    rw [hwrite, ← hnext]
    refine ⟨fun h => dataWrite_pattern h v, fun h => ?_, fun h => ?_⟩
    · rw [dataWrite_nametable h]
      exact ⟨rfl, fun i => read_set .vram _ _ i v⟩
    · rw [dataWrite_palette h]
      exact ⟨rfl, fun i => read_set .palette _ _ i v⟩
  · have hone : ppuIncrement s.ppu.ctrl = 1 := if_neg (by rw [hincrement]; exact Bool.false_ne_true)
    rw [dataWrite_at_2305 hbus hlatch, hone]
    exact ⟨read_set_same .vram _ _ _, rfl, rfl⟩

end Sys2Proof.Machine
end

