-- ==== Sys2Proof/Proofs/Devices.lean ====
section
/-! PROOFS of the statements about the cartridge, the ports and the OAM DMA (62_devices.md). -/

namespace Sys2Proof.Machine

open Sys2Proof.Laws

/-! PRG and CHR (R381 to R383, R331). -/

theorem memRead_prg {a : Word} {s : State} (h : ownerOf s.cfg.bus a = some .prg) :
    memRead a s = (readPrg s.cfg.cart a, s) := by
  simp only [memRead, h]

theorem memWrite_prg {a : Word} {s : State} (v : Byte) (h : ownerOf s.cfg.bus a = some .prg) :
    memWrite a v s = s.emit (.diag .romWrite a) := by
  simp only [memWrite, h]

/-- One bank of 16 KB is seen twice, 0x4000 apart (R381). -/
theorem prgIndex_single_mirror {a : Word} (hlow : 0x8000 ≤ a.toNat) (hhigh : a.toNat < 0xC000) :
    prgIndex .single (a + 0x4000) = prgIndex .single a := by
  have hsum : (a + 0x4000).toNat = a.toNat + 0x4000 := BitVec.toNat_add_of_lt (show a.toNat + 0x4000 < 2 ^ 16 by omega)
  rw [prgIndex, prgIndex, hsum, prgBytes]
  omega

/-- Two banks fill the range, so no address is folded (R381). -/
theorem prgIndex_dual (a : Word) : prgIndex .dual a = a.toNat - 0x8000 := by
  have ha := a.isLt
  exact Nat.mod_eq_of_lt (show a.toNat - 0x8000 < 32768 by omega)

/-- Settles O53: an address from 0x8000 on belongs to PRG, whose index is `prgIndex`; pattern space is CHR. -/
theorem prgAndChrAreReadOnly : Obligations.PrgAndChrAreReadOnly := by
  refine ⟨fun s a hbus ha => ?_, fun s a ha => ⟨ppuRead_pattern ha s, fun v => ppuWrite_pattern ha v s⟩⟩
  have howner : ∀ b : Word, 0x8000 ≤ b.toNat → ownerOf s.cfg.bus b = some .prg := fun b hb => by
    rw [hbus, ownerOf_nesMap_prg hb]
  refine ⟨memRead_prg (howner a ha), fun hbanks hhigh => ?_, fun hbanks => ?_, fun v => memWrite_prg v (howner a ha)⟩
  · have hmirror : 0x8000 ≤ (a + 0x4000).toNat := by bv_omega
    rw [memRead_prg (howner _ hmirror), memRead_prg (howner a ha), readPrg, readPrg, hbanks,
      prgIndex_single_mirror ha hhigh]
  · rw [memRead_prg (howner a ha), readPrg, hbanks, prgIndex_dual]

/-! The ports (R374, R375). -/

/-- A write to a port other than 0x4014 is logged with its value (D29). -/
theorem memWrite_port {a : Word} {s : State} (v : Byte) (hbus : s.cfg.bus = .nesMap)
    (h : 0x4000 ≤ a.toNat ∧ a.toNat ≤ 0x4017) (hdma : a.toNat ≠ 0x4014) :
    memWrite a v s = s.emit (.portWrite a v) := by
  have ports : ((0x4000 ≤ a.toNat ∧ a.toNat ≤ 0x4013) ∨ a.toNat = 0x4015) ∨ a.toNat = 0x4016 ∨ a.toNat = 0x4017 := by
    omega
  rcases ports with apu | joypad
  · simp only [memWrite, hbus, ownerOf_nesMap_apu apu]
  · simp only [memWrite, hbus, ownerOf_nesMap_joypad joypad]

/-! The OAM DMA (R371, R372). -/

theorem memWrite_oamDma {s : State} (v : Byte) (hbus : s.cfg.bus = .nesMap) : memWrite 0x4014 v s = oamDma v s := by
  have howner : ownerOf s.cfg.bus 0x4014 = some .oamDma := by rw [hbus, ownerOf_nesMap_oamDma rfl]
  simp only [memWrite, howner]

/-- The address of byte `i` of a page of the CPU bus. -/
def pageAddr (page : Byte) (i : Nat) : Word := BitVec.ofNat 16 (page.toNat * 256 + i)

/-- The state after the first `n` bytes of an OAM DMA. -/
def oamDmaBytes (page : Byte) (n : Nat) (s : State) : State := (List.range n).foldl (oamDmaByte page) s

theorem oamDma_eq (page : Byte) (s : State) : oamDma page s =
    (oamDmaBytes page 256 s).setDmaStall ((oamDmaBytes page 256 s).dmaStall +
      (oamDmaBytes page 256 s).cfg.oamDmaStallCycles) := rfl

theorem oamDmaBytes_succ (page : Byte) (n : Nat) (s : State) :
    oamDmaBytes page (n + 1) s = oamDmaByte page (oamDmaBytes page n s) n := by
  rw [oamDmaBytes, List.range_succ, List.foldl_append]
  rfl

/-- Whatever page is read, its bytes leave OAMAddr and the owed stall as they were. -/
theorem oamDmaBytes_kept (page : Byte) (n : Nat) (s : State) :
    (oamDmaBytes page n s).ppu.oamAddr = s.ppu.oamAddr ∧ (oamDmaBytes page n s).dmaStall = s.dmaStall := by
  induction n with
  | zero => exact ⟨rfl, rfl⟩
  | succ n ih =>
    obtain ⟨haddr, hstall⟩ := ih
    have hread := memRead_effect (pageAddr page n) (oamDmaBytes page n s)
    rw [oamDmaBytes_succ]
    exact ⟨hread.oamAddr.trans haddr, hread.dmaStall.trans hstall⟩

theorem oamDmaBytes_memory (page : Byte) (n : Nat) (s : State) : MemoryKept s (oamDmaBytes page n s) :=
  oamDma_induct (R := MemoryKept) page (fun _ _ => rfl) (fun _ _ _ => MemoryKept.trans)
    (fun t _ => (memRead_effect _ t).memory.trans (.of_fields rfl rfl rfl rfl)) (List.range n) s

theorem oamDmaBytes_cfg (page : Byte) (n : Nat) (s : State) : (oamDmaBytes page n s).cfg = s.cfg :=
  (oamDma_induct page WriteEffect.refl (fun _ _ _ => WriteEffect.trans) (oamDmaByte_effect page) (List.range n) s).cfg

/-- A byte of the DMA that comes from memory is stored, and its read changes nothing. -/
theorem oamDmaByte_of_peek {page b : Byte} {i : Nat} {s : State} (h : peek (pageAddr page i) s = some b) :
    oamDmaByte page s i = setOamByte ((s.ppu.oamAddr.toNat + i) % 256) b s := by
  have hread : memRead (BitVec.ofNat 16 (page.toNat * 256 + i)) s = (b, s) := memRead_of_peek h
  simp only [oamDmaByte, hread]

theorem oamByte_setOamByte (i j : Nat) (v : Byte) (s : State) :
    oamByte (setOamByte i v s) j = if j = i then v else oamByte s j := read_set .oam _ i j v

/-- After `n` bytes of a page of memory only OAM has changed, and it holds them from OAMAddr on. The places of two of the
256 bytes differ, so a later byte does not overwrite an earlier one. -/
theorem oamDmaBytes_of_placeable {page : Byte} {s : State}
    (hpage : ∀ i, i < 256 → placeable s.cfg.bus (pageAddr page i) = true) {n : Nat} (hn : n ≤ 256) :
    oamDmaBytes page n s = { s with ppu := { s.ppu with oam := (oamDmaBytes page n s).ppu.oam } } ∧
      ∀ i, i < n → peek (pageAddr page i) s =
        some (oamByte (oamDmaBytes page n s) ((s.ppu.oamAddr.toNat + i) % 256)) := by
  induction n with
  | zero => exact ⟨rfl, fun i hi => absurd hi (Nat.not_lt_zero i)⟩
  | succ n ih =>
    obtain ⟨hstate, hbytes⟩ := ih (by omega)
    obtain ⟨b, hb⟩ := exists_peek (hpage n hn)
    have hstep : oamDmaBytes page (n + 1) s =
        setOamByte ((s.ppu.oamAddr.toNat + n) % 256) b (oamDmaBytes page n s) := by
      rw [oamDmaBytes_succ, oamDmaByte_of_peek ((oamDmaBytes_memory page n s _).trans hb), (oamDmaBytes_kept page n s).1]
    refine ⟨?_, fun i hi => ?_⟩
    · rw [hstep, setOamByte, hstate]
      rfl
    · rw [hstep, oamByte_setOamByte]
      by_cases hlast : i = n
      · rw [hlast, hb, if_pos rfl]
      · rw [hbytes i (by omega), if_neg (by omega)]

/-- A page that lies below 0x2000 or from 0x6000 on is memory. -/
theorem placeable_pageAddr {page : Byte} (h : page.toNat < 0x20 ∨ 0x60 ≤ page.toNat) (bus : BusConfig) {i : Nat}
    (hi : i < 256) : placeable bus (pageAddr page i) = true := by
  have hlt := page.isLt
  have haddr : (pageAddr page i).toNat = page.toNat * 256 + i := by
    rw [pageAddr, BitVec.toNat_ofNat]
    exact Nat.mod_eq_of_lt (by omega)
  exact placeable_of_range bus _ (by omega)

theorem oamDma_oamAddr (page : Byte) (s : State) : (oamDma page s).ppu.oamAddr = s.ppu.oamAddr :=
  (oamDmaBytes_kept page 256 s).1

theorem oamDma_dmaStall (page : Byte) (s : State) :
    (oamDma page s).dmaStall = s.dmaStall + s.cfg.oamDmaStallCycles := by
  rw [oamDma_eq, setDmaStall_dmaStall, (oamDmaBytes_kept page 256 s).2, oamDmaBytes_cfg]

/-- Settles O54: the 256 bytes are `oamDmaBytes`, whose loop keeps OAMAddr and the stall; every other port is logged. -/
theorem oamDmaAndPortWrites : Obligations.OamDmaAndPortWrites := by
  refine ⟨fun s v hbus => ?_, fun s a v hbus hlow hhigh hdma => memWrite_port v hbus ⟨hlow, hhigh⟩ hdma⟩
  rw [memWrite_oamDma v hbus]
  refine ⟨oamDma_effect v s, oamDma_memory v s, oamDma_oamAddr v s, oamDma_dmaStall v s, fun hpage => ?_⟩
  obtain ⟨hstate, hbytes⟩ := oamDmaBytes_of_placeable (fun i hi => placeable_pageAddr hpage s.cfg.bus hi) (Nat.le_refl 256)
  rw [oamDma_eq]
  generalize oamDmaBytes v 256 s = u at hstate hbytes ⊢
  exact ⟨congrArg (State.setDmaStall _) hstate, hbytes⟩

/-! The header of an image (R384 to R387): each check as a fact about numbers. -/

theorem headerOk_iff (image : List Byte) : headerOk image = true ↔ 16 ≤ image.length ∧
    (headerByte image 0).toNat = 0x4E ∧ (headerByte image 1).toNat = 0x45 ∧ (headerByte image 2).toNat = 0x53 := by
  rw [headerOk, Bool.and_eq_true, decide_eq_true_iff, beq_iff_eq]
  refine and_congr_right fun hlen => ?_
  match image, hlen with
  | b0 :: b1 :: b2 :: rest, _ => simp [headerByte, BitVec.toNat_eq]

/-- A bit of a byte is clear exactly if the number's binary digit is 0. -/
theorem getLsbD_eq_false_iff (b : Byte) (i : Nat) : b.getLsbD i = false ↔ b.toNat / 2 ^ i % 2 = 0 := by
  rw [← getLsbD_toNat]
  cases b.getLsbD i <;> decide

theorem nes20_iff (b : Byte) : b.extractLsb' 2 2 = 0b10 ↔ b.toNat / 4 % 4 = 2 := by
  rw [← BitVec.toNat_inj, BitVec.extractLsb'_toNat, Nat.shiftRight_eq_div_pow]
  rfl

/-- The mapper id is two high nibbles, so it is 0 exactly if both are (R386). -/
theorem headerMapperId_eq_zero_iff (image : List Byte) : headerMapperId image = 0 ↔
    (headerByte image 7).toNat / 16 = 0 ∧ (headerByte image 6).toNat / 16 = 0 := by
  have mask : ((0xF0 : Nat) : Byte) = BitVec.allOnes 8 <<< 4 := rfl
  have hbyte := (headerByte image 7).isLt
  rw [headerMapperId, mask, ← BitVec.shiftLeft_ushiftRight, BitVec.toNat_or, Nat.or_eq_zero_iff, BitVec.toNat_shiftLeft,
    BitVec.toNat_ushiftRight, BitVec.toNat_ushiftRight, Nat.shiftRight_eq_div_pow, Nat.shiftRight_eq_div_pow,
    Nat.shiftLeft_eq]
  omega

/-! Which images are accepted, and the cartridge of one (R384). -/

/-- The image passes every check of R384. -/
structure ImageAccepted (image : List Byte) : Prop where
  header     : headerOk image = true
  noTrainer  : (headerByte image 6).getLsbD 2 = false
  notNes20   : (headerByte image 7).extractLsb' 2 2 ≠ 0b10
  mapper     : headerMapperId image = 0
  sizes      : (headerByte image 4 = 1 ∨ headerByte image 4 = 2) ∧ headerByte image 5 = 1
  twoTables  : (headerByte image 6).getLsbD 3 = false
  longEnough : imageSize image ≤ image.length

/-- The checks of R384 in numbers. -/
theorem imageAccepted_iff (image : List Byte) : ImageAccepted image ↔
    let b := fun i => (headerByte image i).toNat
    16 ≤ image.length ∧ b 0 = 0x4E ∧ b 1 = 0x45 ∧ b 2 = 0x53 ∧ b 6 / 4 % 2 = 0 ∧ b 7 / 4 % 4 ≠ 2 ∧ b 7 / 16 = 0 ∧
      b 6 / 16 = 0 ∧ (b 4 = 1 ∨ b 4 = 2) ∧ b 5 = 1 ∧ b 6 / 8 % 2 = 0 ∧ 16 + 16384 * b 4 + 8192 * b 5 ≤ image.length := by
  constructor
  · rintro ⟨hheader, htrainer, hnes20, hmapper, ⟨hprg, hchr⟩, htables, hlength⟩
    obtain ⟨hlen, h0, h1, h2⟩ := (headerOk_iff image).1 hheader
    obtain ⟨h7, h6⟩ := (headerMapperId_eq_zero_iff image).1 hmapper
    exact ⟨hlen, h0, h1, h2, (getLsbD_eq_false_iff _ 2).1 htrainer, mt (nes20_iff _).2 hnes20, h7, h6,
      hprg.imp BitVec.toNat_eq.1 BitVec.toNat_eq.1, BitVec.toNat_eq.1 hchr, (getLsbD_eq_false_iff _ 3).1 htables, hlength⟩
  · rintro ⟨hlen, h0, h1, h2, htrainer, hnes20, h7, h6, hprg, hchr, htables, hlength⟩
    exact ⟨(headerOk_iff image).2 ⟨hlen, h0, h1, h2⟩, (getLsbD_eq_false_iff _ 2).2 htrainer, mt (nes20_iff _).1 hnes20,
      (headerMapperId_eq_zero_iff image).2 ⟨h7, h6⟩,
      ⟨hprg.imp BitVec.toNat_eq.2 BitVec.toNat_eq.2, BitVec.toNat_eq.2 hchr⟩, (getLsbD_eq_false_iff _ 3).2 htables, hlength⟩

/-- The mirroring of a header without FourScreen. -/
def imageMirroring (image : List Byte) : Mirroring :=
  if (headerByte image 6).getLsbD 0 then .vertical else .horizontal

/-- The cartridge that an accepted image describes. -/
def imageCart (image : List Byte) : Cart where
  banks := if headerByte image 4 = 1 then .single else .dual
  prg := Memory.romOfBytes 0 ((image.drop 16).take (16384 * (headerByte image 4).toNat))
  chr := Memory.romOfBytes 0 ((image.drop (16 + 16384 * (headerByte image 4).toNat)).take 8192)
  mirroring := imageMirroring image
  mapperId := 0

theorem headerMirroring_fourScreen {image : List Byte} (h : (headerByte image 6).getLsbD 3 = true) :
    headerMirroring image = .fourScreen := if_pos h

theorem headerMirroring_twoTables {image : List Byte} (h : (headerByte image 6).getLsbD 3 = false) :
    headerMirroring image = .twoTables (imageMirroring image) := by
  rw [headerMirroring, h, if_neg Bool.false_ne_true, imageMirroring]
  split <;> rfl

theorem loadImage_accepted {image : List Byte} (h : ImageAccepted image) : loadImage image = .ok (imageCart image) := by
  obtain ⟨hheader, htrainer, hnes20, hmapper, hsizes, htables, hlength⟩ := h
  rw [loadImage, if_neg (ne_false_of_eq_true hheader), if_neg (ne_true_of_eq_false htrainer), if_neg hnes20,
    if_neg (not_not.2 hmapper), if_neg (not_not.2 hsizes), headerMirroring_twoTables htables]
  exact if_neg (Nat.not_lt.2 hlength)

theorem loadImage_refused {image : List Byte} (h : ¬ImageAccepted image) : ∃ kind, loadImage image = .error kind := by
  unfold loadImage
  by_cases hheader : headerOk image = false
  · exact ⟨_, if_pos hheader⟩
  rw [if_neg hheader]
  by_cases htrainer : (headerByte image 6).getLsbD 2 = true
  · exact ⟨_, if_pos htrainer⟩
  rw [if_neg htrainer]
  by_cases hnes20 : (headerByte image 7).extractLsb' 2 2 = 0b10
  · exact ⟨_, if_pos hnes20⟩
  rw [if_neg hnes20]
  by_cases hmapper : headerMapperId image = 0
  · rw [if_neg (not_not.2 hmapper)]
    by_cases hsizes : (headerByte image 4 = 1 ∨ headerByte image 4 = 2) ∧ headerByte image 5 = 1
    · rw [if_neg (not_not.2 hsizes)]
      cases htables : (headerByte image 6).getLsbD 3 with
      | true => exact ⟨_, by rw [headerMirroring_fourScreen htables]⟩
      | false =>
        have hshort : image.length < imageSize image := Nat.lt_of_not_le fun hlength =>
          h ⟨eq_true_of_ne_false hheader, eq_false_of_ne_true htrainer, hnes20, hmapper, hsizes, htables, hlength⟩
        rw [headerMirroring_twoTables htables]
        exact ⟨_, if_pos hshort⟩
    · exact ⟨_, if_pos hsizes⟩
  · exact ⟨_, if_pos hmapper⟩

/-! The bytes of an image in its cartridge. -/

theorem romWf_romOfBytes {size : Nat} {bytes : List Byte} (h : bytes.length ≤ size) :
    (Memory.romOfBytes 0 bytes).romWf size = true := by
  obtain ⟨hrising, hcells⟩ := romOfBytes_spec 0 bytes
  refine romWf_iff.2 ⟨hrising, fun c hc => ?_⟩
  obtain ⟨-, hlt, hne⟩ := hcells c hc
  exact ⟨by omega, hne⟩

/-- A ROM made of a slice of an image gives the image's byte at the slice's start and the index. -/
theorem romRead_slice (image : List Byte) (start : Nat) {size i : Nat} (h : i < size) :
    (Memory.romOfBytes 0 ((image.drop start).take size)).romRead i = image.getD (start + i) 0 := by
  have hread := romRead_romOfBytes ((image.drop start).take size) 0 i
  rw [Nat.zero_add] at hread
  rw [hread, List.getD_eq_getElem?_getD, List.getElem?_take_of_lt h, List.getElem?_drop, List.getD_eq_getElem?_getD]

theorem prgBytes_imageCart {image : List Byte} (h : headerByte image 4 = 1 ∨ headerByte image 4 = 2) :
    prgBytes (imageCart image).banks = 16384 * (headerByte image 4).toNat := by
  rcases h with h | h <;> simp [imageCart, h, prgBytes]

theorem cartWf_imageCart {image : List Byte} (h : headerByte image 4 = 1 ∨ headerByte image 4 = 2) :
    cartWf (imageCart image) = true := by
  rw [cartWf, prgBytes_imageCart h, Bool.and_eq_true, Bool.and_eq_true]
  exact ⟨⟨romWf_romOfBytes (List.length_take_le _ _), romWf_romOfBytes (List.length_take_le _ _)⟩, rfl⟩

theorem imageMirroring_vertical_iff (image : List Byte) :
    imageMirroring image = .vertical ↔ (headerByte image 6).toNat % 2 = 1 := by
  have hbit := getLsbD_toNat (headerByte image 6) 0
  rw [Nat.pow_zero, Nat.div_one] at hbit
  rw [imageMirroring, ← hbit]
  cases (headerByte image 6).getLsbD 0 <;> decide

/-- Settles O60: the checks of `ImageAccepted` are the numbers' checks one by one, and `imageCart` holds the image's bytes. -/
theorem imageValidation : Obligations.ImageValidation := by
  intro image b accepted
  have hiff : ImageAccepted image ↔ accepted := imageAccepted_iff image
  refine ⟨fun h => ?_, fun h => ?_⟩
  · have haccepted := hiff.2 h
    have hload := loadImage_accepted haccepted
    obtain ⟨hunits, -⟩ := haccepted.sizes
    exact ⟨imageCart image, hload, by rw [State.bootImage, hload], cartWf_imageCart hunits, prgBytes_imageCart hunits,
      imageMirroring_vertical_iff image, rfl, fun i hi => romRead_slice image 16 hi, fun i hi => romRead_slice image _ hi⟩
  · obtain ⟨kind, hload⟩ := loadImage_refused (mt hiff.1 h)
    exact ⟨kind, hload, by rw [State.bootImage, hload]⟩

end Sys2Proof.Machine
end

