-- ==== Sys2Proof/Proofs/Reset.lean ====
section
/-! PROOFS of the statements about the state after reset (10_state.md section 4, 70_reset_and_hazards.md section 1). -/

namespace Sys2Proof.Machine

open Sys2Proof.Laws

/-- Booting sets the program counter to the word at the reset vector, and nothing else (R400 step 4). -/
theorem boot_eq (cfg : RunConfig) : ∃ lo hi,
    peek 0xFFFC (State.powerOn cfg) = some lo ∧ peek 0xFFFD (State.powerOn cfg) = some hi ∧
    State.boot cfg = (State.powerOn cfg).setPc (mkWord hi lo) := by
  obtain ⟨lo, hlo⟩ := exists_peek (placeable_vector (State.powerOn cfg).cfg.bus (a := 0xFFFC) (by decide))
  obtain ⟨hi, hhi⟩ := exists_peek (placeable_vector (State.powerOn cfg).cfg.bus (a := 0xFFFD) (by decide))
  have hword : readWord resetVector (State.powerOn cfg) = (mkWord hi lo, State.powerOn cfg) := readWord_of_peek hlo hhi
  exact ⟨lo, hi, hlo, hhi, by rw [State.boot, loadProgramCounter_eq, hword]⟩

/-- Settles O2: `boot_eq` gives the vector's bytes, and the rest of the state is power-on's. -/
theorem resetValues : Obligations.ResetValues :=
  ⟨boot_eq, fun _ _ => rfl, reset_is_boot, fun _ => rfl⟩

/-- The program counter is free in the invariant. -/
theorem Inv.setPc {s : State} (h : Inv s) (pc : Word) : Inv (s.setPc pc) :=
  ⟨h.v, h.cycle, h.scanline, h.vblank, h.hit, h.pending, h.overflow, h.status, h.stall, h.extra, h.irq, h.memories⟩

/-- The power-on status byte has U set and B clear (R31, R32; D4). -/
theorem statusOk_powerOn : StatusOk 0x24 := by simp [StatusOk, isBitSet, Flag.index]

/-- At power-on the frame begins, with VBlank, SpriteHitZero and the pending NMI clear, and every memory is empty. -/
theorem powerOn_inv (cfg : RunConfig) : Inv (State.powerOn cfg) where
  v        := Nat.zero_le _
  cycle    := Nat.zero_lt_succ _
  scanline := Nat.zero_lt_succ _
  vblank   := nofun
  hit      := nofun
  pending  := nofun
  overflow := rfl
  status   := statusOk_powerOn
  stall    := rfl
  extra    := rfl
  irq      := rfl
  memories := powerOn_memoriesWf cfg

theorem boot_inv (cfg : RunConfig) : Inv (State.boot cfg) := by
  obtain ⟨lo, hi, -, -, hboot⟩ := boot_eq cfg
  rw [hboot]
  exact (powerOn_inv cfg).setPc _

/-- Settles O3: the invariant holds at power-on (`powerOn_inv`), and loading the program counter keeps it. -/
theorem invariantAtReset : Obligations.InvariantAtReset :=
  ⟨boot_inv, powerOn_inv _⟩

end Sys2Proof.Machine
end
